-- ==== Sys2Proof/Word.lean ====
section
/-! DEFINITION. The word types of the block (00_scope.md R7, R8): a byte, the 16-bit chain index, the 32-bit
register. All values are unsigned. A byte string is a list of bytes, byte 0 first. -/

set_option autoImplicit false

namespace Sys2Proof

/-- An 8-bit unsigned value (R7). -/
abbrev Byte := BitVec 8

/-- The 16 bits of the chain index i (R36). -/
abbrev Half := BitVec 16

/-- A 32-bit register or command word, bit 0 the least significant (R8). -/
abbrev Word := BitVec 32

/-- A byte string S: S[0], S[1], … in order (R7). -/
abbrev Bytes := List Byte

end Sys2Proof
end

