-- ==== Sys2Proof/Config.lean ====
section
/-! DEFINITION. What the builder of one block fixes (00_scope.md R2 to R5) and the values the spec leaves open
(93_implementation_defined.md P1, U1 to U5). The open values are opaque constants: nothing can be proved of them. -/

set_option autoImplicit false

namespace Sys2Proof

/-- The build parameters N, I_LEN and BASE, with their ranges (R2, R4, R5). A block with a parameter outside its
range cannot be built (93_implementation_defined.md P2), so no value of this type has one.
State carries this record (DESIGN CHOICE, safe: log 1). -/
structure Params where
  /-- N, the number of bytes H returns. -/
  n : Nat
  /-- I_LEN, the number of bytes of I_BUF. -/
  iLen : Nat
  /-- BASE, the byte address of the register window. -/
  base : Nat
  nRange : 1 ≤ n ∧ n ≤ 257
  iLenRange : 1 ≤ iLen ∧ iLen ≤ 256
  baseAligned : base % 0x800 = 0
  deriving DecidableEq, Repr

/-- The reference instance: N = 32 (R2), I_LEN = 16 (R4). BASE is the platform's; 0 here (DESIGN CHOICE: log 1). -/
def Params.reference : Params where
  n := 32
  iLen := 16
  base := 0
  nRange := by decide
  iLenRange := by decide
  baseAligned := by decide

/-- The places that hold an unspecified byte after reset (70_reset_and_hazards.md R210). -/
inductive FreeByteSite where
  | iBuf | vBuf | qdBuf | eBuf | seqTmp | seqJ0 | seqK | seqJ | seqLeft
  deriving DecidableEq, Repr

/-- The parameter registers that hold an unspecified value after reset (R210, 93_implementation_defined.md U3). -/
inductive FreeParamSite where
  | cfgW | cfgU | cfgV | cfgLs | cfgP
  deriving DecidableEq, Repr

/-- H for digest length n: "a pluggable function", total, uninterpreted (R3, P1; log 2). The result has n bytes by
its type. -/
opaque Config.hash (n : Nat) : Bytes → Vector Byte n

/-- The byte an unspecified place holds after a reset (U1, U2): draw number, place, index in the place (log 5, 6). -/
opaque Config.freeByte (draw : Nat) (site : FreeByteSite) (index : Nat) : Byte

/-- The value a parameter register holds after a reset, before the first successful CFG (U3; log 6). -/
opaque Config.freeParam (draw : Nat) (site : FreeParamSite) : Nat

/-- The word a host read draws while BUSY = 1 (U4, U5; log 8). -/
opaque Config.freeWord (draw : Nat) : Word

end Sys2Proof
end

