-- ==== Sys2Proof/Syntax.lean ====
section
/-! DEFINITION. The nine commands of the opcode map (30_encoding.md R83), one constructor a row. Operands are the
numbers the assembler takes (R94); their range 0..255 is checked in WellFormed. -/

set_option autoImplicit false

namespace Sys2Proof

/-- A command of the block (R83, R94). -/
inductive Instr where
  /-- `CFG w` (40_control.md R107). -/
  | cfg (w : Nat)
  /-- `WALK j0, k` (42_chain_walk.md R147). -/
  | walk (j0 k : Nat)
  /-- `WALK.FULL` (R148). -/
  | walkFull
  /-- `WALK.SIGN` (R149). -/
  | walkSign
  /-- `WALK.VERIFY` (R150). -/
  | walkVerify
  /-- `COEF.Q` (41_codec.md R126). -/
  | coefQ
  /-- `COEF.E` (R127). -/
  | coefE
  /-- `CKSUM` (R128). -/
  | cksum
  /-- `ENCODE` (R129). -/
  | encode
  deriving DecidableEq, Repr

end Sys2Proof
end

