-- ==== Sys2Proof/WellFormed.lean ====
section
/-! DEFINITION. Which commands have a word: "An assembler refuses a w or j0 or k outside 0..255" (30_encoding.md R94).
A value of w other than 1, 2, 4, 8 is well formed: it is a parameter error, not an encoding error (R84). -/

set_option autoImplicit false

namespace Sys2Proof

/-- The operands fit their 8-bit fields (R84, R94). -/
def Instr.wf : Instr → Bool
  | .cfg w => decide (w < 256)
  | .walk j0 k => decide (j0 < 256) && decide (k < 256)
  | .walkFull => true
  | .walkSign => true
  | .walkVerify => true
  | .coefQ => true
  | .coefE => true
  | .cksum => true
  | .encode => true

end Sys2Proof
end

