-- ==== Sys2Proof/Decode.lean ====
section
/-! DEFINITION. The command word (30_encoding.md R80 to R88): the opcode map as a table of match and mask, Decode as
the first row that matches (R86), and the assembler's word of each command (R94). -/

set_option autoImplicit false

namespace Sys2Proof

/-- The OP field, bits [7:0] (R81). -/
def fieldOp (x : Word) : Byte := x.extractLsb' 0 8

/-- The A field, bits [15:8] (R81). -/
def fieldA (x : Word) : Byte := x.extractLsb' 8 8

/-- The B field, bits [23:16] (R81). -/
def fieldB (x : Word) : Byte := x.extractLsb' 16 8

/-- The RSV field, bits [31:24] (R81). -/
def fieldRsv (x : Word) : Byte := x.extractLsb' 24 8

/-- One row of the opcode map: a word x is the row's command when x AND mask = pattern; `build` takes A and B. -/
structure OpRow where
  pattern : Word
  mask : Word
  build : Nat → Nat → Instr

/-- Does the word match the row (R83)? -/
def OpRow.matchesWord (r : OpRow) (x : Word) : Bool := x &&& r.mask == r.pattern

/-- The opcode map (R83), in the spec's order. -/
def opRows : List OpRow :=
  [ ⟨0x00000001#32, 0xFFFF00FF#32, fun a _ => .cfg a⟩,
    ⟨0x00000002#32, 0xFF0000FF#32, fun a b => .walk a b⟩,
    ⟨0x00000003#32, 0xFFFFFFFF#32, fun _ _ => .walkFull⟩,
    ⟨0x00000004#32, 0xFFFFFFFF#32, fun _ _ => .walkSign⟩,
    ⟨0x00000005#32, 0xFFFFFFFF#32, fun _ _ => .walkVerify⟩,
    ⟨0x00000006#32, 0xFFFFFFFF#32, fun _ _ => .coefQ⟩,
    ⟨0x00000106#32, 0xFFFFFFFF#32, fun _ _ => .coefE⟩,
    ⟨0x00000007#32, 0xFFFFFFFF#32, fun _ _ => .cksum⟩,
    ⟨0x00000008#32, 0xFFFFFFFF#32, fun _ _ => .encode⟩ ]

/-- Why a word is no command. There is one reason (R87). -/
inductive Reject where
  /-- The word matches no row of R83; the dispatch step completes with ERR = ILLEGAL_COMMAND (60_exceptions.md R193). -/
  | illegalCommand
  deriving DecidableEq, Repr

/-- `Decode(x)` (R86): the first row that matches, with A = x[15:8] and B = x[23:16] zero-extended (R84). -/
def decode (x : Word) : Except Reject Instr :=
  match opRows.find? (fun r => r.matchesWord x) with
  | some r => .ok (r.build (fieldA x).toNat (fieldB x).toNat)
  | none => .error .illegalCommand

/-- The word whose RSV is 0 and whose B, A and OP are the given numbers (R81, R94). -/
def commandWord (op a b : Nat) : Word :=
  BitVec.ofNat 32 b <<< 16 ||| BitVec.ofNat 32 a <<< 8 ||| BitVec.ofNat 32 op

/-- The word each command assembles to (R94). -/
def encode : Instr → Word
  | .cfg w => commandWord 0x01 w 0
  | .walk j0 k => commandWord 0x02 j0 k
  | .walkFull => 0x00000003#32
  | .walkSign => 0x00000004#32
  | .walkVerify => 0x00000005#32
  | .coefQ => 0x00000006#32
  | .coefE => 0x00000106#32
  | .cksum => 0x00000007#32
  | .encode => 0x00000008#32

/-- The first `nbits` bits of w as a command word; every command is one 32-bit word (R80). -/
def tableWord (nbits w : Nat) : Word := BitVec.ofNat 32 (w % 2 ^ min nbits 32)

/-- The host's view of the decoder: the command a table word decodes to, `none` where it is illegal. -/
def decodeTableWord (nbits w : Nat) : Option Instr :=
  match decode (tableWord nbits w) with
  | .ok i => some i
  | .error _ => none

end Sys2Proof
end

