-- ==== Sys2Proof/Machine/State.lean ====
section
/-! DEFINITION. The state of one block instance (10_state.md R22), the events the agents take (00_scope.md R13), the
registers of the window (R24), the completion codes (60_exceptions.md R191), and the state after reset
(70_reset_and_hazards.md R210). -/

set_option autoImplicit false

namespace Sys2Proof.Machine

open Sys2Proof

/-- SEQ_PHASE (10_state.md R43). -/
inductive Phase where
  | idle | issued | walking
  deriving DecidableEq, Repr

/-- The completion codes of STATUS.ERR (60_exceptions.md R191); 0x06 to 0xFF are never produced. -/
inductive ErrCode where
  | ok
  | illegalCommand
  | unsupportedParameter
  | notConfigured
  | range
  | noEncoding
  deriving DecidableEq, Repr

/-- The registers and buffer words of the window (10_state.md R24); a buffer word is named by its index m. -/
inductive Target where
  | cmd | status | result | hcount | leafQ | chainI
  | paramN | paramW | paramU | paramV | paramLs | paramP | paramIlen
  | iBuf (m : Nat)
  | vBuf (m : Nat)
  | qdBuf (m : Nat)
  | eBuf (m : Nat)
  deriving DecidableEq, Repr

/-- One event of the schedule (00_scope.md R13). Addresses are byte addresses of the bus, widths are in bits; the
value of a write that is not 32 bits wide is never looked at, as the access has no step (20_memory.md R62). -/
inductive Event where
  /-- The host reads. -/
  | read (addr width : Nat)
  /-- The host writes. -/
  | write (addr width : Nat) (val : Word)
  /-- The sequencer is given its turn. -/
  | sequencer
  /-- The platform resets the block. -/
  | reset
  deriving DecidableEq, Repr

/-- The host accesses that have no step: "the host has no step for it (it is stuck), and the block's state is
unchanged" (20_memory.md R62, R63). Raised by the bus (Machine/Bus.lean) alone, never by a command.
Safe: the model stops where the host is stuck (log 9). -/
inductive Fault where
  /-- A width other than 32 bits (R62). -/
  | accessWidth
  /-- An address that is not a multiple of 4 (R62). -/
  | accessMisaligned
  /-- An offset that R24 does not define, inside the window or outside it (R63). -/
  | accessUndefined
  deriving DecidableEq, Repr

/-- Why the model gives an instruction no meaning. No command is refused: this reason is raised by nothing. -/
inductive Refusal where
  /-- The instruction is not modelled yet (safe); raised by no arm of exec. -/
  | notModelled (mnemonic : String)
  deriving DecidableEq, Repr

/-- The state of one block instance (R22), its build parameters, and the model's own fields. -/
structure State where
  /-- N, I_LEN, BASE: fixed at build, changed by no step (R23; log 1). -/
  par : Params
  /-- CMD_LAST (R25). -/
  cmdLast : Word
  /-- STATUS.BUSY (R27). -/
  busy : Bool
  /-- STATUS.DONE (R28). -/
  done : Bool
  /-- STATUS.CFGD (R29). -/
  cfgd : Bool
  /-- STATUS.EVALID (R30). -/
  evalid : Bool
  /-- STATUS.OVERRUN (R31). -/
  overrun : Bool
  /-- STATUS.ERR (R32). -/
  err : Byte
  /-- RESULT (R33). -/
  result : Word
  /-- HCOUNT (R34). -/
  hcount : Word
  /-- LEAF_Q (R35). -/
  leafQ : Word
  /-- CHAIN_I[15:0] (R36). -/
  chainI : Half
  /-- CFG_W, meaningful when CFGD (R38). -/
  cfgW : Nat
  /-- CFG_U (R38). -/
  cfgU : Nat
  /-- CFG_V (R38). -/
  cfgV : Nat
  /-- CFG_LS (R38). -/
  cfgLs : Nat
  /-- CFG_P (R38). -/
  cfgP : Nat
  /-- I_BUF, I_LEN bytes (R39). -/
  iBuf : Bytes
  /-- V_BUF, N bytes (R40). -/
  vBuf : Bytes
  /-- QD_BUF, N bytes (R41). -/
  qdBuf : Bytes
  /-- E_BUF, N + 2 bytes (R42). -/
  eBuf : Bytes
  /-- SEQ_PHASE (R43). -/
  phase : Phase
  /-- SEQ_J0 (R43). -/
  seqJ0 : Byte
  /-- SEQ_K (R43). -/
  seqK : Byte
  /-- SEQ_J (R43). -/
  seqJ : Byte
  /-- SEQ_LEFT (R43). -/
  seqLeft : Byte
  /-- SEQ_TMP, N bytes (R43). -/
  seqTmp : Bytes
  /-- The model's own: the index of the next draw of a free value (log 7). -/
  draws : Nat
  /-- The model's own: the events still to come, first one first (log 3). -/
  agenda : List Event
  /-- The model's own: the words the host's reads have returned, newest first (log 4). -/
  readLog : List Word
  deriving DecidableEq, Repr

/-- A buffer of `len` unspecified bytes after the reset that made draw number `draw` (R210, U1). -/
def State.drawnBytes (draw : Nat) (site : FreeByteSite) (len : Nat) : Bytes :=
  (List.range len).map (Config.freeByte draw site)

/-- The state right after a reset that makes draw number `draw` (70_reset_and_hazards.md R210). The build
parameters, the host's agenda and what the host has read are not the block's and stay. -/
def State.afterReset (par : Params) (draw : Nat) (agenda : List Event) (readLog : List Word) : State where
  par := par
  cmdLast := 0
  busy := false
  done := false
  cfgd := false
  evalid := false
  overrun := false
  err := 0
  result := 0
  hcount := 0
  leafQ := 0
  chainI := 0
  cfgW := Config.freeParam draw .cfgW
  cfgU := Config.freeParam draw .cfgU
  cfgV := Config.freeParam draw .cfgV
  cfgLs := Config.freeParam draw .cfgLs
  cfgP := Config.freeParam draw .cfgP
  iBuf := State.drawnBytes draw .iBuf par.iLen
  vBuf := State.drawnBytes draw .vBuf par.n
  qdBuf := State.drawnBytes draw .qdBuf par.n
  eBuf := State.drawnBytes draw .eBuf (par.n + 2)
  phase := .idle
  seqJ0 := Config.freeByte draw .seqJ0 0
  seqK := Config.freeByte draw .seqK 0
  seqJ := Config.freeByte draw .seqJ 0
  seqLeft := Config.freeByte draw .seqLeft 0
  seqTmp := State.drawnBytes draw .seqTmp par.n
  draws := draw + 1
  agenda := agenda
  readLog := readLog

/-- The reference block (N = 32, I_LEN = 16) right after its first reset, with nothing on the agenda (R210). -/
def State.reset : State := State.afterReset Params.reference 0 [] []

end Sys2Proof.Machine
end

