-- ==== Sys2Proof/Machine/Operands.lean ====
section
/-! DEFINITION. How operands are laid out: the fixed-width big-endian encodings (00_scope.md R10), the words of a byte
buffer (20_memory.md R65, R66), the register map (10_state.md R24) and the input of a chain step
(30_encoding.md R85). -/

set_option autoImplicit false

namespace Sys2Proof.Machine

open Sys2Proof

/-- Byte k of a word, k = 0..3: bits [31−8k : 24−8k] (20_memory.md R65). -/
def wordByte (val : Word) (k : Nat) : Byte := val.extractLsb' (24 - 8 * k) 8

/-- `be32(x)`: the four bytes of x, most significant first (00_scope.md R10). -/
def be32 (x : Word) : Bytes := [wordByte x 0, wordByte x 1, wordByte x 2, wordByte x 3]

/-- `be16(x)` (R10). -/
def be16 (x : Half) : Bytes := [x.extractLsb' 8 8, x.extractLsb' 0 8]

/-- Byte a of a buffer; a byte past its end counts as 0 (20_memory.md R66). -/
def byteAt (b : Bytes) (a : Nat) : Byte := b.getD a 0

/-- `word(B, m)`: bytes 4m to 4m+3, the first one most significant (R65). -/
def bufferWord (b : Bytes) (m : Nat) : Word :=
  byteAt b (4 * m) ++ byteAt b (4 * m + 1) ++ byteAt b (4 * m + 2) ++ byteAt b (4 * m + 3)

/-- A write of val to word m of a buffer: four bytes, those past the buffer's end ignored (R61, R65, R66). -/
def setBufferWord (b : Bytes) (m : Nat) (val : Word) : Bytes :=
  (((b.set (4 * m) (wordByte val 0)).set (4 * m + 1) (wordByte val 1)).set (4 * m + 2) (wordByte val 2)).set
    (4 * m + 3) (wordByte val 3)

/-- ceil(len/4), the number of words of a buffer of len bytes (10_state.md R24). -/
def wordCount (len : Nat) : Nat := (len + 3) / 4

/-- The window offset of a register or buffer word (10_state.md R24). -/
def Target.offset : Target → Nat
  | .cmd => 0x000
  | .status => 0x004
  | .result => 0x008
  | .hcount => 0x00C
  | .leafQ => 0x010
  | .chainI => 0x014
  | .paramN => 0x020
  | .paramW => 0x024
  | .paramU => 0x028
  | .paramV => 0x02C
  | .paramLs => 0x030
  | .paramP => 0x034
  | .paramIlen => 0x038
  | .iBuf m => 0x100 + 4 * m
  | .vBuf m => 0x200 + 4 * m
  | .qdBuf m => 0x400 + 4 * m
  | .eBuf m => 0x600 + 4 * m

/-- The registers of R24 below the buffer windows. -/
def controlTargets : List Target :=
  [.cmd, .status, .result, .hcount, .leafQ, .chainI, .paramN, .paramW, .paramU, .paramV, .paramLs, .paramP, .paramIlen]

/-- The word index of an offset in a buffer window that begins at `start`, if the buffer has that word (R24, R63). -/
def bufferIndex (start len off : Nat) : Option Nat :=
  if start ≤ off ∧ (off - start) % 4 = 0 ∧ (off - start) / 4 < wordCount len then some ((off - start) / 4) else none

/-- The register or buffer word at an offset, `none` where R24 defines none (20_memory.md R63). -/
def targetAt (par : Params) (off : Nat) : Option Target :=
  if off < 0x100 then controlTargets.find? (fun t => t.offset == off)
  else if off < 0x200 then (bufferIndex 0x100 par.iLen off).map Target.iBuf
  else if off < 0x400 then (bufferIndex 0x200 par.n off).map Target.vBuf
  else if off < 0x600 then (bufferIndex 0x400 par.n off).map Target.qdBuf
  else if off < 0x800 then (bufferIndex 0x600 (par.n + 2) off).map Target.eBuf
  else none

/-- `StepInput(value, I, q, i, j) = I ‖ be32(q) ‖ be16(i) ‖ byte(j) ‖ value` (30_encoding.md R85). -/
def stepInput (value ident : Bytes) (q : Word) (i : Half) (j : Byte) : Bytes :=
  ident ++ be32 q ++ be16 i ++ [j] ++ value

end Sys2Proof.Machine
end

