-- ==== Sys2Proof/Machine/Functions.lean ====
section
/-! DEFINITION. The functions of the spec that the commands apply, on plain data: parameter derivation
(40_control.md R101 to R104), digits, checksum and encoding (41_codec.md R120 to R125), chain step and walk
(42_chain_walk.md R140, R142). -/

set_option autoImplicit false

namespace Sys2Proof.Machine

open Sys2Proof

/-- `ceil(a / b)` on naturals (00_scope.md R11). -/
def ceilDiv (a b : Nat) : Nat := (a + b - 1) / b

/-- `2^w − 1`: the largest digit, and the number of steps of a whole chain. -/
def maxDigit (w : Nat) : Nat := 2 ^ w - 1

/-- `u(N, w) = ceil(8N / w)` (R101). -/
def deriveU (n w : Nat) : Nat := ceilDiv (8 * n) w

/-- `v(N, w) = ceil((floor(log2(((2^w)−1)·u)) + 1) / w)` (R102). -/
def deriveV (n w : Nat) : Nat := ceilDiv (Nat.log2 (maxDigit w * deriveU n w) + 1) w

/-- `ls(N, w) = 16 − v · w` (R103); never negative for N ≤ 257 (R106). -/
def deriveLs (n w : Nat) : Nat := 16 - deriveV n w * w

/-- `p(N, w) = u + v` (R104). -/
def deriveP (n w : Nat) : Nat := deriveU n w + deriveV n w

/-- w is one of 1, 2, 4, 8 (00_scope.md R6). -/
def supportedW (w : Nat) : Bool := w == 1 || w == 2 || w == 4 || w == 8

/-- `coef(S, i)`: the i-th w-bit digit of S, most significant first within each byte (R120). -/
def coef (w : Nat) (s : Bytes) (i : Nat) : Nat :=
  if w = 8 then (byteAt s i).toNat
  else
    let byteIndex := i * w / 8
    let offset := i % (8 / w)
    let shift := 8 - w * (offset + 1)
    ((byteAt s byteIndex).toNat >>> shift) &&& maxDigit w

/-- The sum of `(2^w − 1) − coef(Q, i)` over the first `count` digits (R123). -/
def digitSum (w : Nat) (q : Bytes) : Nat → Nat
  | 0 => 0
  | count + 1 => digitSum w q count + (maxDigit w - coef w q count)

/-- `checksum(Q)`: the sum over u digits, shifted left by ls and cut to 16 bits (R123). -/
def checksum (w u ls : Nat) (q : Bytes) : Half := BitVec.ofNat 16 ((digitSum w q u <<< ls) &&& 0xFFFF)

/-- `Encode(Q) = Q ‖ be16(checksum(Q))` (R125, 30_encoding.md R89). -/
def encodeDigest (w u ls : Nat) (q : Bytes) : Bytes := q ++ be16 (checksum w u ls q)

/-- `step(value, I, q, i, j) = H(StepInput(value, I, q, i, j))` for a hash function H (R140). -/
def chainStep (hash : Bytes → Bytes) (value ident : Bytes) (q : Word) (i : Half) (j : Nat) : Bytes :=
  hash (stepInput value ident q i (BitVec.ofNat 8 j))

/-- `Walk(x, I, q, i, j0, k)`: k chain steps with counters j0, j0 + 1, …, j0 + k − 1 (R142). -/
def walk (hash : Bytes → Bytes) (ident : Bytes) (q : Word) (i : Half) (x : Bytes) (j0 : Nat) : Nat → Bytes
  | 0 => x
  | k + 1 => walk hash ident q i (chainStep hash x ident q i j0) (j0 + 1) k

/-- The block's H for digest length n, as a function on byte strings (00_scope.md R3). -/
def hashBytes (n : Nat) (x : Bytes) : Bytes := (Config.hash n x).toList

end Sys2Proof.Machine
end

