-- ==== Sys2Proof/Machine/Flags.lean ====
section
/-! DEFINITION. The STATUS register: the word a read gives (10_state.md R26, 20_memory.md R79), the codes of its ERR
field (60_exceptions.md R191), and the two operations that set BUSY, DONE and ERR: issue (10_state.md R46) and
completion (R48). -/

set_option autoImplicit false

namespace Sys2Proof.Machine

open Sys2Proof

/-- The 8-bit code of a completion (60_exceptions.md R191). -/
def ErrCode.code : ErrCode → Byte
  | .ok => 0x00
  | .illegalCommand => 0x01
  | .unsupportedParameter => 0x02
  | .notConfigured => 0x03
  | .range => 0x04
  | .noEncoding => 0x05

/-- A flag at bit `pos` of a register. -/
def flagAt (b : Bool) (pos : Nat) : Word := (BitVec.ofBool b).setWidth 32 <<< pos

/-- `ERR << 8 | OVERRUN << 4 | EVALID << 3 | CFGD << 2 | DONE << 1 | BUSY` (10_state.md R26). -/
def packStatus (err : Byte) (overrun evalid cfgd done busy : Bool) : Word :=
  err.setWidth 32 <<< 8 ||| flagAt overrun 4 ||| flagAt evalid 3 ||| flagAt cfgd 2 ||| flagAt done 1 ||| flagAt busy 0

/-- STATUS as the state has it (R26). -/
def State.statusWord (s : State) : Word := packStatus s.err s.overrun s.evalid s.cfgd s.done s.busy

/-- STATUS read while BUSY = 1: BUSY 1, DONE 0, ERR 0x00, the exact OVERRUN, and CFGD and EVALID taken from bits 2
and 3 of a drawn word (20_memory.md R79). -/
def busyStatusWord (overrun : Bool) (drawn : Word) : Word :=
  packStatus 0 overrun (drawn.getLsbD 3) (drawn.getLsbD 2) false true

/-- Command issue: what a write of val to CMD does while BUSY = 0 (10_state.md R46). -/
def issue (val : Word) (s : State) : State :=
  { s with cmdLast := val, busy := true, done := false, err := 0x00, phase := .issued }

/-- `Complete(e)` (10_state.md R48). An erroneous command does this and nothing else (60_exceptions.md R198). -/
def complete (e : ErrCode) (s : State) : State :=
  { s with err := e.code, busy := false, done := true, phase := .idle }

end Sys2Proof.Machine
end

