-- ==== Sys2Proof/Machine/Ops.lean ====
section
/-! DEFINITION. The operations the commands share: fetching the command word, the ordered checks
(60_exceptions.md R192), the error completion (R198), and loading a program's command for the host's probe. The block
has no trap and no return from one (R190, R199): an error is `complete e` (Machine/Flags.lean) and nothing else. -/

set_option autoImplicit false

namespace Sys2Proof.Machine

open Sys2Proof

/-- The command the dispatch step finds in CMD_LAST (10_state.md R47, 30_encoding.md R86). -/
def fetch (s : State) : Except Reject Instr := decode s.cmdLast

/-- The commands other than CFG need CFGD = 1 (60_exceptions.md R195). -/
def needsConfig : Instr → Bool
  | .cfg _ => false
  | .walk _ _ => true
  | .walkFull => true
  | .walkSign => true
  | .walkVerify => true
  | .coefQ => true
  | .coefE => true
  | .cksum => true
  | .encode => true

/-- CFG with w outside {1, 2, 4, 8} (R194). -/
def unsupportedConfig : Instr → Bool
  | .cfg w => !supportedW w
  | .walk _ _ => false
  | .walkFull => false
  | .walkSign => false
  | .walkVerify => false
  | .coefQ => false
  | .coefE => false
  | .cksum => false
  | .encode => false

/-- The four walks need CHAIN_I < p (R196). -/
def isWalk : Instr → Bool
  | .cfg _ => false
  | .walk _ _ => true
  | .walkFull => true
  | .walkSign => true
  | .walkVerify => true
  | .coefQ => false
  | .coefE => false
  | .cksum => false
  | .encode => false

/-- The commands that need EVALID = 1 (R197). -/
def needsEncoding : Instr → Bool
  | .cfg _ => false
  | .walk _ _ => false
  | .walkFull => false
  | .walkSign => true
  | .walkVerify => true
  | .coefQ => false
  | .coefE => true
  | .cksum => false
  | .encode => false

/-- The last three checks of R192: WALK with j0 + k > 2^w − 1 (no wrap), COEF.Q and COEF.E with a digit index past
their byte string. -/
def operandRangeError (i : Instr) (s : State) : Bool :=
  match i with
  | .cfg _ => false
  | .walk j0 k => decide (maxDigit s.cfgW < j0 + k)
  | .walkFull => false
  | .walkSign => false
  | .walkVerify => false
  | .coefQ => decide (8 * s.par.n / s.cfgW ≤ s.chainI.toNat)
  | .coefE => decide (8 * (s.par.n + 2) / s.cfgW ≤ s.chainI.toNat)
  | .cksum => false
  | .encode => false

/-- `Check` for a word that decodes to i: the first code that applies (60_exceptions.md R192). -/
def check (i : Instr) (s : State) : ErrCode :=
  if needsConfig i && !s.cfgd then .notConfigured
  else if unsupportedConfig i then .unsupportedParameter
  else if isWalk i && decide (s.cfgP ≤ s.chainI.toNat) then .range
  else if needsEncoding i && !s.evalid then .noEncoding
  else if operandRangeError i s then .range
  else .ok

/-- The dispatch of a command that decodes (10_state.md R47): when a check fails only the completion with its code
(60_exceptions.md R198), else the command's effect. -/
def checked (i : Instr) (effect : State → State) (s : State) : State :=
  if check i s = .ok then effect s else complete (check i s) s

/-- A state in which the sequencer's next turn, which comes first, dispatches `word`: what a host write of `word` to
CMD leaves (10_state.md R46), with that turn put at the head of the agenda (log 10). -/
def loadCommand (word : Word) (s : State) : State :=
  { issue word s with agenda := .sequencer :: s.agenda }

end Sys2Proof.Machine
end

