-- ==== Sys2Proof/Machine/Bus.lean ====
section
/-! DEFINITION. The host's accesses to the register window (20_memory.md R60 to R69, R78, R79), and the reset event
(70_reset_and_hazards.md R210). -/

set_option autoImplicit false

namespace Sys2Proof.Machine

open Sys2Proof

/-- Which accesses have a step (R62, R63): 32 bits wide, at a multiple of 4, at a defined offset of the window. BASE is
a multiple of 0x800, so the address is a multiple of 4 exactly when the offset is. -/
def accessTarget (par : Params) (addr width : Nat) : Except Fault Target :=
  if width ≠ 32 then .error .accessWidth
  else if addr % 4 ≠ 0 then .error .accessMisaligned
  else if addr < par.base then .error .accessUndefined
  else
    match targetAt par (addr - par.base) with
    | some t => .ok t
    | none => .error .accessUndefined

/-- A PARAM register of a CFG value: 0 while CFGD = 0 (10_state.md R38). -/
def State.paramWord (s : State) (v : Nat) : Word := if s.cfgd then BitVec.ofNat 32 v else 0

/-- What a read returns while BUSY = 0 (20_memory.md R60). -/
def State.readTarget (s : State) : Target → Word
  | .cmd => s.cmdLast
  | .status => s.statusWord
  | .result => s.result
  | .hcount => s.hcount
  | .leafQ => s.leafQ
  | .chainI => s.chainI.setWidth 32
  | .paramN => BitVec.ofNat 32 s.par.n
  | .paramW => s.paramWord s.cfgW
  | .paramU => s.paramWord s.cfgU
  | .paramV => s.paramWord s.cfgV
  | .paramLs => s.paramWord s.cfgLs
  | .paramP => s.paramWord s.cfgP
  | .paramIlen => BitVec.ofNat 32 s.par.iLen
  | .iBuf m => bufferWord s.iBuf m
  | .vBuf m => bufferWord s.vBuf m
  | .qdBuf m => bufferWord s.qdBuf m
  | .eBuf m => bufferWord s.eBuf m

/-- What a read returns while BUSY = 1 (R79), the word `drawn` standing for the unspecified bits. -/
def State.readBusy (s : State) (drawn : Word) : Target → Word
  | .status => busyStatusWord s.overrun drawn
  | _ => drawn

/-- The host is given a word (log 4). The block's own state does not change (R60, R69). -/
def deliver (val : Word) (s : State) : State := { s with readLog := val :: s.readLog }

/-- A host read of an admitted target (R60, R79); a read while BUSY = 1 uses up one draw (log 8). -/
def hostRead (t : Target) (s : State) : State :=
  if s.busy then deliver (s.readBusy (Config.freeWord s.draws) t) { s with draws := s.draws + 1 }
  else deliver (s.readTarget t) s

/-- What a write does while BUSY = 0 (R61). A write to a read-only register has no effect (R68). -/
def writeTarget (t : Target) (val : Word) (s : State) : State :=
  match t with
  | .cmd => issue val s
  | .leafQ => { s with leafQ := val }
  | .chainI => { s with chainI := val.extractLsb' 0 16 }
  | .iBuf m => { s with iBuf := setBufferWord s.iBuf m val }
  | .vBuf m => { s with vBuf := setBufferWord s.vBuf m val }
  | .qdBuf m => { s with qdBuf := setBufferWord s.qdBuf m val, evalid := false }
  | .status => s
  | .result => s
  | .hcount => s
  | .paramN => s
  | .paramW => s
  | .paramU => s
  | .paramV => s
  | .paramLs => s
  | .paramP => s
  | .paramIlen => s
  | .eBuf _ => s

/-- A host write to an admitted target (R61); while BUSY = 1 it is discarded and sets OVERRUN (R78). -/
def hostWrite (t : Target) (val : Word) (s : State) : State :=
  if s.busy then { s with overrun := true } else writeTarget t val s

/-- A host read as an event: no step where the access is not admitted (R62, R63). -/
def busRead (addr width : Nat) (s : State) : Host.Outcome State Fault Refusal :=
  match accessTarget s.par addr width with
  | .error f => .fault f
  | .ok t => .next (hostRead t s)

/-- A host write as an event. -/
def busWrite (addr width : Nat) (val : Word) (s : State) : Host.Outcome State Fault Refusal :=
  match accessTarget s.par addr width with
  | .error f => .fault f
  | .ok t => .next (hostWrite t val s)

/-- The reset event (R210, R211), in any state; it draws the unspecified values anew. -/
def resetEvent (s : State) : State := State.afterReset s.par s.draws s.agenda s.readLog

end Sys2Proof.Machine
end

