-- ==== Sys2Proof/Machine/Codec.lean ====
section
/-! DEFINITION. The codec commands COEF.Q, COEF.E, CKSUM, ENCODE (41_codec.md R126 to R129). -/

set_option autoImplicit false

namespace Sys2Proof.Machine

open Sys2Proof

/-- `ExecCoef(B)`: RESULT <- the digit CHAIN_I of the buffer (R126, R127). -/
def coefEffect (buffer : Bytes) (s : State) : State :=
  complete .ok { s with result := BitVec.ofNat 32 (coef s.cfgW buffer s.chainI.toNat) }

/-- The checksum of QD_BUF under the loaded parameters (R123). -/
def State.digestChecksum (s : State) : Half := checksum s.cfgW s.cfgU s.cfgLs s.qdBuf

/-- `ExecCksum()` (R128). -/
def cksumEffect (s : State) : State :=
  complete .ok { s with result := s.digestChecksum.setWidth 32 }

/-- `ExecEncode()` (R129). -/
def encodeEffect (s : State) : State :=
  complete .ok
    { s with
      eBuf := encodeDigest s.cfgW s.cfgU s.cfgLs s.qdBuf
      evalid := true
      result := s.digestChecksum.setWidth 32 }

/-- COEF.Q (R126). -/
def execCoefQ (s : State) : Host.Outcome State Fault Refusal :=
  .next (checked .coefQ (coefEffect s.qdBuf) s)

/-- COEF.E (R127). -/
def execCoefE (s : State) : Host.Outcome State Fault Refusal :=
  .next (checked .coefE (coefEffect s.eBuf) s)

/-- CKSUM (R128). -/
def execCksum (s : State) : Host.Outcome State Fault Refusal :=
  .next (checked .cksum cksumEffect s)

/-- ENCODE (R129). -/
def execEncode (s : State) : Host.Outcome State Fault Refusal :=
  .next (checked .encode encodeEffect s)

end Sys2Proof.Machine
end

