-- ==== Sys2Proof/Machine/Control.lean ====
section
/-! DEFINITION. The configuration command CFG (40_control.md R107). -/

set_option autoImplicit false

namespace Sys2Proof.Machine

open Sys2Proof

/-- `ExecCfg(w)` (R107): load the five values for w, set CFGD, clear EVALID, complete. -/
def cfgEffect (w : Nat) (s : State) : State :=
  complete .ok
    { s with
      cfgW := w
      cfgU := deriveU s.par.n w
      cfgV := deriveV s.par.n w
      cfgLs := deriveLs s.par.n w
      cfgP := deriveP s.par.n w
      cfgd := true
      evalid := false }

/-- CFG w (R107). -/
def execCfg (w : Nat) (s : State) : Host.Outcome State Fault Refusal :=
  .next (checked (.cfg w) (cfgEffect w) s)

end Sys2Proof.Machine
end

