-- ==== Sys2Proof/Machine/Walk.lean ====
section
/-! DEFINITION. The hash-chain walks (42_chain_walk.md): StartWalk, the walking step and FinishWalk of the sequencer
(R144 to R146) and the commands WALK, WALK.FULL, WALK.SIGN, WALK.VERIFY (R147 to R150). -/

set_option autoImplicit false

namespace Sys2Proof.Machine

open Sys2Proof

/-- The block's hash function (00_scope.md R3). -/
def State.hash (s : State) : Bytes → Bytes := hashBytes s.par.n

/-- `(zext_32(SEQ_J0) << 8) | zext_32(SEQ_K)` (R146). -/
def walkResult (j0 k : Byte) : Word := j0.setWidth 32 <<< 8 ||| k.setWidth 32

/-- `FinishWalk()` (R146). -/
def finishWalk (s : State) : State :=
  complete .ok { s with vBuf := s.seqTmp, result := walkResult s.seqJ0 s.seqK }

/-- The sequencer's fields as StartWalk(j0, k) loads them (R144). -/
def loadWalk (j0 k : Nat) (s : State) : State :=
  { s with
    seqJ0 := BitVec.ofNat 8 j0
    seqK := BitVec.ofNat 8 k
    seqJ := BitVec.ofNat 8 j0
    seqLeft := BitVec.ofNat 8 k
    seqTmp := s.vBuf }

/-- `StartWalk(j0, k)` (R144): with k = 0 the walk finishes in the same step. -/
def startWalk (j0 k : Nat) (s : State) : State :=
  if k = 0 then finishWalk (loadWalk j0 k s) else { loadWalk j0 k s with phase := .walking }

/-- One invocation of H on the chain value in flight, and the counters (R145, R141). -/
def hashOnce (s : State) : State :=
  { s with
    seqTmp := chainStep s.hash s.seqTmp s.iBuf s.leafQ s.chainI s.seqJ.toNat
    hcount := s.hcount + 1
    seqJ := s.seqJ + 1
    seqLeft := s.seqLeft - 1 }

/-- The walking step of the sequencer (R145): when no step is left the walk finishes in the same step. -/
def walkStep (s : State) : State :=
  if (hashOnce s).seqLeft = 0 then finishWalk (hashOnce s) else hashOnce s

/-- The digit of E_BUF that gives chain CHAIN_I its step count, `c` of R149 and R150. -/
def State.chainDigit (s : State) : Nat := coef s.cfgW s.eBuf s.chainI.toNat

/-- WALK j0, k (R147). -/
def execWalk (j0 k : Nat) (s : State) : Host.Outcome State Fault Refusal :=
  .next (checked (.walk j0 k) (startWalk j0 k) s)

/-- WALK.FULL (R148): 2^w − 1 steps from counter 0. -/
def execWalkFull (s : State) : Host.Outcome State Fault Refusal :=
  .next (checked .walkFull (startWalk 0 (maxDigit s.cfgW)) s)

/-- WALK.SIGN (R149): c steps from counter 0. -/
def execWalkSign (s : State) : Host.Outcome State Fault Refusal :=
  .next (checked .walkSign (startWalk 0 s.chainDigit) s)

/-- WALK.VERIFY (R150): the remaining 2^w − 1 − c steps, from counter c. -/
def execWalkVerify (s : State) : Host.Outcome State Fault Refusal :=
  .next (checked .walkVerify (startWalk s.chainDigit (maxDigit s.cfgW - s.chainDigit)) s)

end Sys2Proof.Machine
end

