-- ==== Sys2Proof/Machine/Dispatch.lean ====
section
/-! DEFINITION. The dispatch of a command that decodes (10_state.md R47): one arm per constructor. -/

namespace Sys2Proof.Machine

open Sys2Proof

-- Each meaning is the sequencer's dispatch step of its command.
def exec (i : Instr) (s : State) : Host.Outcome State Fault Refusal :=
  match i with
  | .cfg w => Sys2Proof.Machine.execCfg w s
  | .walk j0 k => Sys2Proof.Machine.execWalk j0 k s
  | .walkFull => Sys2Proof.Machine.execWalkFull s
  | .walkSign => Sys2Proof.Machine.execWalkSign s
  | .walkVerify => Sys2Proof.Machine.execWalkVerify s
  | .coefQ => Sys2Proof.Machine.execCoefQ s
  | .coefE => Sys2Proof.Machine.execCoefE s
  | .cksum => Sys2Proof.Machine.execCksum s
  | .encode => Sys2Proof.Machine.execEncode s

end Sys2Proof.Machine
end

