-- ==== Sys2Proof/Machine/Step.lean ====
section
/-! DEFINITION. One step of the machine: the next event of the agenda, by the agent it names (00_scope.md R13). -/

set_option autoImplicit false

namespace Sys2Proof.Machine

open Sys2Proof

/-- The dispatch step (10_state.md R47): a word that decodes to no command completes with ILLEGAL_COMMAND
(60_exceptions.md R193), any other runs its command. -/
def dispatch (s : State) : Host.Outcome State Fault Refusal :=
  match fetch s with
  | .ok i => exec i s
  | .error .illegalCommand => .next (complete .illegalCommand s)

/-- The sequencer's turn: it is enabled only while SEQ_PHASE is not IDLE (R13, R43); a turn given to an idle
sequencer changes nothing (DESIGN CHOICE, safe: log 3). -/
def sequencerStep (s : State) : Host.Outcome State Fault Refusal :=
  match s.phase with
  | .idle => .next s
  | .issued => dispatch s
  | .walking => .next (walkStep s)

/-- One event by the agent it names. -/
def handle (e : Event) (s : State) : Host.Outcome State Fault Refusal :=
  match e with
  | .read addr width => busRead addr width s
  | .write addr width val => busWrite addr width val s
  | .sequencer => sequencerStep s
  | .reset => .next (resetEvent s)

/-- One step: the first event of the agenda, which is thereby used up; with an empty agenda the sequencer's turn
(weak fairness, 70_reset_and_hazards.md R220; log 3). -/
def step (s : State) : Host.Outcome State Fault Refusal :=
  match s.agenda with
  | [] => sequencerStep s
  | e :: rest => handle e { s with agenda := rest }

/-- The host's probe: the state in which the very next step dispatches the table word (log 10). -/
def State.withFetchWord (s : State) (nbits w : Nat) : State := loadCommand (tableWord nbits w) s

end Sys2Proof.Machine
end

