-- ==== Sys2Proof/Machine/HostSide.lean ====
section
/-! DEFINITION. The host's side of the block (45_host_sequences.md, 30_encoding.md R93 to R95): the bus accesses of the
spec's program notation as events, and the four operations of the document as functions. Machine/HostProgram.lean has
the operations as programs on the block. NOT BLOCK BEHAVIOUR (00_scope.md R15): no step calls anything in this file
(log 14). -/

set_option autoImplicit false

namespace Sys2Proof.Machine

open Sys2Proof

/-- `wr REG, value` (30_encoding.md R93). -/
def wr (par : Params) (t : Target) (val : Word) : Event := .write (par.base + t.offset) 32 val

/-- `rd REG` (R93). -/
def rd (par : Params) (t : Target) : Event := .read (par.base + t.offset) 32

/-- The words `wrbuf BUF, bytes` writes and where (R95), `target m` being word m of BUF. -/
def bufferWrites (target : Nat → Target) (bytes : Bytes) : List (Target × Word) :=
  (List.range (wordCount bytes.length)).map fun m => (target m, bufferWord bytes m)

/-- `wrbuf BUF, bytes` (R95). -/
def wrbuf (par : Params) (target : Nat → Target) (bytes : Bytes) : List Event :=
  (bufferWrites target bytes).map fun store => wr par store.1 store.2

/-- The reads of `rdbuf BUF` for a buffer of len bytes (R95). -/
def rdbuf (par : Params) (target : Nat → Target) (len : Nat) : List Event :=
  (List.range (wordCount len)).map fun m => rd par (target m)

/-- The len bytes of the words a `rdbuf` returned (R95). -/
def bytesOfWords (words : List Word) (len : Nat) : Bytes := (words.flatMap be32).take len

/-- `wr CMD, c` (R93, R94). -/
def wrCommand (par : Params) (c : Instr) : Event := wr par .cmd (encode c)

/-- The host's view of one instantiation: the hash function, N and w. -/
structure HostParams where
  hash : Bytes → Bytes
  n : Nat
  w : Nat

/-- The number p of chains (40_control.md R104). -/
def HostParams.p (h : HostParams) : Nat := deriveP h.n h.w

/-- `I ‖ be32(q) ‖ be16(i) ‖ 0xFF ‖ seed` (45_host_sequences.md R171). -/
def privateElementInput (seed ident : Bytes) (q : Word) (i : Nat) : Bytes :=
  ident ++ be32 q ++ be16 (BitVec.ofNat 16 i) ++ [0xFF] ++ seed

/-- `I ‖ be32(q) ‖ D_PBLC ‖ y_0 ‖ … ‖ y_{p−1}` (R173). -/
def publicDigestInput (ident : Bytes) (q : Word) (ys : List Bytes) : Bytes :=
  ident ++ be32 q ++ [0x80, 0x80] ++ ys.flatten

/-- `I ‖ be32(q) ‖ D_MESG ‖ C ‖ message` (R175). -/
def messageDigestInput (ident : Bytes) (q : Word) (c message : Bytes) : Bytes :=
  ident ++ be32 q ++ [0x81, 0x81] ++ c ++ message

/-- The private-key element x_i (R171). -/
def privateElement (h : HostParams) (seed ident : Bytes) (q : Word) (i : Nat) : Bytes :=
  h.hash (privateElementInput seed ident q i)

/-- The private key x_0 … x_{p−1} (R171). -/
def privateKey (h : HostParams) (seed ident : Bytes) (q : Word) : List Bytes :=
  (List.range h.p).map (privateElement h seed ident q)

/-- The public-key digest K (R173). -/
def publicDigest (h : HostParams) (ident : Bytes) (q : Word) (ys : List Bytes) : Bytes :=
  h.hash (publicDigestInput ident q ys)

/-- The message digest Q (R175). -/
def messageDigest (h : HostParams) (ident : Bytes) (q : Word) (c message : Bytes) : Bytes :=
  h.hash (messageDigestInput ident q c message)

/-- What the block's walk makes of the i-th element of a list: counters from `start i`, `count i` steps. -/
def walkChains (h : HostParams) (ident : Bytes) (q : Word) (start count : Nat → Nat) (xs : List Bytes) : List Bytes :=
  xs.mapIdx fun i x => walk h.hash ident q (BitVec.ofNat 16 i) x (start i) (count i)

/-- Public-key derivation (R172): every chain to its top, then the digest. -/
def publicKey (h : HostParams) (ident : Bytes) (q : Word) (xs : List Bytes) : Bytes :=
  publicDigest h ident q (walkChains h ident q (fun _ => 0) (fun _ => maxDigit h.w) xs)

/-- The encoded hash of a digest under the loaded parameters (41_codec.md R125). -/
def HostParams.encodedHash (h : HostParams) (digest : Bytes) : Bytes :=
  encodeDigest h.w (deriveU h.n h.w) (deriveLs h.n h.w) digest

/-- The signature {C, Y} (45_host_sequences.md R177). -/
structure Signature where
  c : Bytes
  y : List Bytes
  deriving DecidableEq, Repr

/-- The structural checks of verification (R179): len(C) = N, p elements, each of N bytes. -/
def Signature.wellFormed (sig : Signature) (n p : Nat) : Bool :=
  sig.c.length == n && sig.y.length == p && sig.y.all fun y => y.length == n

/-- Why the host does not sign. -/
inductive SignError where
  /-- len(C) ≠ N (R174). Raised by signing alone. -/
  | invalidRandomizerLength
  deriving DecidableEq, Repr

/-- Signing (R174, R176): chain i walks coef(E, i) steps from its private element. -/
def sign (h : HostParams) (message : Bytes) (xs : List Bytes) (ident : Bytes) (q : Word) (c : Bytes) :
    Except SignError Signature :=
  if c.length ≠ h.n then .error .invalidRandomizerLength
  else
    let e := h.encodedHash (messageDigest h ident q c message)
    .ok { c := c, y := walkChains h ident q (fun _ => 0) (fun i => coef h.w e i) xs }

/-- Verification (R178 to R180): total, a malformed signature is false. -/
def verify (h : HostParams) (message : Bytes) (sig : Signature) (ident : Bytes) (q : Word) (key : Bytes) : Bool :=
  if sig.wellFormed h.n h.p then
    let e := h.encodedHash (messageDigest h ident q sig.c message)
    let zs := walkChains h ident q (fun i => coef h.w e i) (fun i => maxDigit h.w - coef h.w e i) sig.y
    publicDigest h ident q zs == key
  else false

/-- The block's hashes of a signature: the sum of c_i over the p chains (R181). -/
def signCost (w : Nat) (e : Bytes) : Nat → Nat
  | 0 => 0
  | p + 1 => signCost w e p + coef w e p

/-- The block's hashes of a verification: the sum of M − c_i over the p chains (R181). -/
def verifyCost (w : Nat) (e : Bytes) : Nat → Nat
  | 0 => 0
  | p + 1 => verifyCost w e p + (maxDigit w - coef w e p)

end Sys2Proof.Machine
end

