-- ==== Sys2Proof/Machine/HostProgram.lean ====
section
/-! DEFINITION. Host programs (30_encoding.md R93 to R95) as data, a run of one against the block, and the four
operations of 45_host_sequences.md as such programs (R171, R172, R176, R178). The host is outside the block (00_scope.md
R15): a run makes bus accesses by `step`, and no step calls anything in this file (log 14, 15). -/

set_option autoImplicit false

namespace Sys2Proof.Machine

open Sys2Proof

/-! ## Programs -/

/-- A host program that ends in a value of type α. A host-local computation or conditional (R93) is a Lean term between
the statements; a host loop is a recursion that builds the program. -/
inductive HostProgram (α : Type) where
  /-- The program ends. -/
  | done (result : α)
  /-- `wr REG, value` (R93). -/
  | write (target : Target) (val : Word) (next : HostProgram α)
  /-- `rd REG -> name` (R93). -/
  | read (target : Target) (next : Word → HostProgram α)
  /-- `poll`: read STATUS until bit 0 is 0 (R95). -/
  | poll (next : HostProgram α)
  /-- One invocation of H by the host (45_host_sequences.md R170), no bus access. -/
  | hash (input : Bytes) (next : Bytes → HostProgram α)

/-- `exec .word x`: `wr CMD, x ; poll` (R94, R95). -/
def execWord {α : Type} (x : Word) (next : HostProgram α) : HostProgram α := .write .cmd x (.poll next)

/-- `exec c` (R95). -/
def execCommand {α : Type} (c : Instr) (next : HostProgram α) : HostProgram α := execWord (encode c) next

/-- `wrbuf BUF, bytes` (R95). -/
def storeBuffer {α : Type} (target : Nat → Target) (bytes : Bytes) (next : HostProgram α) : HostProgram α :=
  (bufferWrites target bytes).foldr (fun store rest => .write store.1 store.2 rest) next

/-- The reads of `count` buffer words from word m on, in order. -/
def loadWords {α : Type} (target : Nat → Target) (m : Nat) : Nat → (List Word → HostProgram α) → HostProgram α
  | 0, next => next []
  | count + 1, next => .read (target m) fun x => loadWords target (m + 1) count fun xs => next (x :: xs)

/-- `rdbuf BUF -> name` for a buffer of len bytes (R95). -/
def loadBuffer {α : Type} (target : Nat → Target) (len : Nat) (next : Bytes → HostProgram α) : HostProgram α :=
  loadWords target 0 (wordCount len) fun xs => next (bytesOfWords xs len)

/-- `for i in first..` over the elements of a list: `body i x` ends in the element the loop collects. -/
def forChains {α : Type} (body : Nat → Bytes → (Bytes → HostProgram α) → HostProgram α) (first : Nat) :
    List Bytes → (List Bytes → HostProgram α) → HostProgram α
  | [], next => next []
  | x :: xs, next => body first x fun y => forChains body (first + 1) xs fun ys => next (y :: ys)

/-! ## The operations of 45_host_sequences.md

`n` is the digest length and `w` the loaded parameter: "CFG w done earlier" (R172). -/

/-- `wrbuf V_BUF, x ; wr CHAIN_I, i ; exec walk`, the head of the loops of R172, R176 and R178. -/
def walkOnBlock {α : Type} (command : Instr) (i : Nat) (x : Bytes) (next : HostProgram α) : HostProgram α :=
  storeBuffer .vBuf x (.write .chainI (BitVec.ofNat 32 i) (execCommand command next))

/-- `wrbuf I_BUF, I ; wr LEAF_Q, q` (R172, R176, R178). -/
def loadIdentity {α : Type} (ident : Bytes) (q : Word) (next : HostProgram α) : HostProgram α :=
  storeBuffer .iBuf ident (.write .leafQ q next)

/-- Private-key generation (R171): one host hash for each of `count` chains from chain i on. -/
def privateElements (seed ident : Bytes) (q : Word) (i : Nat) : Nat → (List Bytes → HostProgram (List Bytes)) →
    HostProgram (List Bytes)
  | 0, next => next []
  | count + 1, next =>
    .hash (privateElementInput seed ident q i) fun x =>
      privateElements seed ident q (i + 1) count fun xs => next (x :: xs)

/-- Private-key generation for the p chains (R171). -/
def privateKeyProgram (n w : Nat) (seed ident : Bytes) (q : Word) : HostProgram (List Bytes) :=
  privateElements seed ident q 0 (deriveP n w) .done

/-- Public-key derivation (R172). -/
def publicKeyProgram (n : Nat) (xs : List Bytes) (ident : Bytes) (q : Word) : HostProgram Bytes :=
  loadIdentity ident q <|
    forChains (fun i x next => walkOnBlock .walkFull i x (loadBuffer .vBuf n next)) 0 xs fun ys =>
      .hash (publicDigestInput ident q ys) .done

/-- What signing leaves with the host: the signature, and the checksum read as a diagnostic (R176, R177). -/
structure Signed where
  signature : Signature
  sum : Word
  deriving DecidableEq, Repr

/-- Signing (R174, R176). A randomizer of the wrong length issues no command. -/
def signProgram (n : Nat) (message : Bytes) (xs : List Bytes) (ident : Bytes) (q : Word) (c : Bytes) :
    HostProgram (Except SignError Signed) :=
  if c.length ≠ n then .done (.error .invalidRandomizerLength)
  else
    .hash (messageDigestInput ident q c message) fun digest =>
      loadIdentity ident q <| storeBuffer .qdBuf digest <| execCommand .encode <| .read .result fun sum =>
        forChains (fun i x next => walkOnBlock .walkSign i x (loadBuffer .vBuf n next)) 0 xs fun ys =>
          .done (.ok ⟨⟨c, ys⟩, sum⟩)

/-- One chain of verification (R178): `rd STATUS -> s ; if s[15:8] ≠ 0 { return false }` after the walk, so that an
error of the block is read as false (R179). -/
def verifyChain (n i : Nat) (y : Bytes) (next : Bytes → HostProgram Bool) : HostProgram Bool :=
  walkOnBlock .walkVerify i y <| .read .status fun status =>
    if status.extractLsb' 8 8 ≠ 0 then .done false else loadBuffer .vBuf n next

/-- Verification (R178 to R180). A malformed signature is false before any access (R179). -/
def verifyProgram (n w : Nat) (message : Bytes) (sig : Signature) (ident : Bytes) (q : Word) (key : Bytes) :
    HostProgram Bool :=
  if sig.wellFormed n (deriveP n w) then
    .hash (messageDigestInput ident q sig.c message) fun digest =>
      loadIdentity ident q <| storeBuffer .qdBuf digest <| execCommand .encode <|
        forChains (verifyChain n) 0 sig.y fun zs =>
          .hash (publicDigestInput ident q zs) fun candidate => .done (candidate == key)
  else .done false

/-! ## Running a program -/

/-- k steps of the machine. -/
def runSteps (k : Nat) (s : State) : Host.Outcome State Fault Refusal := Sys2Proof.core.run k s

/-- The host at its block: the block, the bus accesses the host has made and its own invocations of H, which HCOUNT does
not count (45_host_sequences.md, opening paragraph). -/
structure Bench where
  block : State
  accesses : Nat
  hashes : Nat
  deriving DecidableEq, Repr

/-- How a run ends. -/
inductive HostRun (α : Type) where
  /-- The program has ended. -/
  | finished (result : α) (bench : Bench)
  /-- A poll has used up its reads and the block is still busy. -/
  | polling (bench : Bench)
  /-- The host is stuck on an access that has no step (20_memory.md R62, R63). -/
  | stuck (reason : Fault)
  /-- A command has no meaning; no run ends so. -/
  | refused (reason : Refusal)

/-- The host's next access: the sequencer first takes the turns the schedule gives it before this access (00_scope.md
R13), then the event happens; `next` goes on with the block as it is then. -/
def Bench.access {α : Type} (turns : Nat → Nat) (e : Event) (b : Bench) (next : Bench → HostRun α) : HostRun α :=
  let agenda := List.replicate (turns b.accesses) .sequencer ++ [e]
  match runSteps agenda.length { b.block with agenda := agenda } with
  | .next t => next { b with block := t, accesses := b.accesses + 1 }
  | .fault f => .stuck f
  | .refused r => .refused r

/-- The word the last read returned. -/
def Bench.word (b : Bench) : Word := b.block.readLog.headD 0

/-- `p: rd STATUS -> s ; if s[0] = 1 { goto p }` (30_encoding.md R95), for at most `reads` reads. -/
def Bench.pollStatus {α : Type} (turns : Nat → Nat) (next : Bench → HostRun α) : Nat → Bench → HostRun α
  | 0, b => .polling b
  | reads + 1, b =>
    b.access turns (rd b.block.par .status) fun b' =>
      if b'.word.getLsbD 0 then b'.pollStatus turns next reads else next b'

/-- A run of a program: `turns k` is how many turns the sequencer takes before the host's access number k, `patience`
how many reads one poll makes at most (log 15). The host's H is the block's (45_host_sequences.md R170). -/
def HostProgram.run {α : Type} (turns : Nat → Nat) (patience : Nat) : HostProgram α → Bench → HostRun α
  | .done result, b => .finished result b
  | .write target val next, b => b.access turns (wr b.block.par target val) (next.run turns patience)
  | .read target next, b =>
    b.access turns (rd b.block.par target) fun b' => (next b'.word).run turns patience b'
  | .poll next, b => b.pollStatus turns (next.run turns patience) patience
  | .hash input next, b => (next (b.block.hash input)).run turns patience { b with hashes := b.hashes + 1 }

end Sys2Proof.Machine
end

