-- ==== Sys2Proof/Safety.lean ====
section
/-! DEFINITION. What claims are stated in: the invariant of the block, a run without a discarded write, the part of a
state that a host's access cannot touch while a command runs, and how a run of a host program ends. -/

set_option autoImplicit false

namespace Sys2Proof.Machine

open Sys2Proof

/-- Every buffer has its fixed length (10_state.md R22, R39 to R43). -/
abbrev State.lengthsOk (s : State) : Prop :=
  s.iBuf.length = s.par.iLen ∧ s.vBuf.length = s.par.n ∧ s.qdBuf.length = s.par.n ∧
    s.eBuf.length = s.par.n + 2 ∧ s.seqTmp.length = s.par.n

/-- BUSY = 1 if and only if SEQ_PHASE is not IDLE (R44); while BUSY = 1, DONE = 0 and ERR = 0x00 (R28, R32, R46). -/
abbrev State.busyOk (s : State) : Prop :=
  (s.busy = true ↔ s.phase ≠ .idle) ∧ (s.busy = true → s.done = false ∧ s.err = 0)

/-- The CFG values are those of their w and N while CFGD = 1 (R38). -/
abbrev State.cfgOk (s : State) : Prop :=
  s.cfgd = true → supportedW s.cfgW = true ∧ s.cfgU = deriveU s.par.n s.cfgW ∧ s.cfgV = deriveV s.par.n s.cfgW ∧
    s.cfgLs = deriveLs s.par.n s.cfgW ∧ s.cfgP = deriveP s.par.n s.cfgW

/-- EVALID = 1 means that E_BUF holds the encoding of QD_BUF under the loaded parameters (R26, R30, R42). -/
abbrev State.evalidOk (s : State) : Prop :=
  s.evalid = true → s.cfgd = true ∧ s.eBuf = encodeDigest s.cfgW s.cfgU s.cfgLs s.qdBuf

/-- ERR holds a code of 60_exceptions.md R191; the codes 0x06 to 0xFF are never produced. -/
abbrev State.errOk (s : State) : Prop := s.err.toNat ≤ 5

/-- While a walk runs: its chain is a chain of the loaded parameters, its counters stay inside [0, 2^w − 1], its steps
are taken in order, and the value in flight is V_BUF walked by the steps already taken (42_chain_walk.md R144, R145). -/
abbrev State.walkOk (s : State) : Prop :=
  s.phase = .walking →
    s.cfgd = true ∧ s.chainI.toNat < s.cfgP ∧ 1 ≤ s.seqLeft.toNat ∧ s.seqLeft.toNat ≤ s.seqK.toNat ∧
    s.seqJ.toNat = s.seqJ0.toNat + (s.seqK.toNat - s.seqLeft.toNat) ∧
    s.seqJ0.toNat + s.seqK.toNat ≤ maxDigit s.cfgW ∧
    s.seqTmp = walk s.hash s.iBuf s.leafQ s.chainI s.vBuf s.seqJ0.toNat (s.seqK.toNat - s.seqLeft.toNat)

/-- The invariant of the block: every step keeps it. -/
structure State.Inv (s : State) : Prop where
  lengths : s.lengthsOk
  busyPhase : s.busyOk
  config : s.cfgOk
  encoding : s.evalidOk
  code : s.errOk
  walking : s.walkOk

/-- A state no host write has been lost in: what a claim about a program takes as a premise or proves
(60_exceptions.md R200, 93_implementation_defined.md F1). -/
abbrev State.noOverrun (s : State) : Prop := s.overrun = false

/-- A safe run: k steps that end in a state with OVERRUN = 0, none of them a stuck access. -/
def SafeRun (k : Nat) (s : State) : Prop := ∃ t, runSteps k s = .next t ∧ t.noOverrun

/-- An event that is a host access the window admits (20_memory.md R62, R63). -/
def Event.isAdmittedAccess (par : Params) : Event → Bool
  | .read addr width => match accessTarget par addr width with | .ok _ => true | .error _ => false
  | .write addr width _ => match accessTarget par addr width with | .ok _ => true | .error _ => false
  | .sequencer => false
  | .reset => false

/-- The state less what a host access may change while BUSY = 1: OVERRUN, the draws, the host's own agenda and log. -/
def State.blockView (s : State) : State :=
  { s with overrun := false, draws := 0, agenda := [], readLog := [] }

/-- The counters (j0, k) the four walks start with (42_chain_walk.md R147 to R150); `none` for the other commands. -/
def walkCounters (i : Instr) (s : State) : Option (Nat × Nat) :=
  match i with
  | .walk j0 k => some (j0, k)
  | .walkFull => some (0, maxDigit s.cfgW)
  | .walkSign => some (0, s.chainDigit)
  | .walkVerify => some (s.chainDigit, maxDigit s.cfgW - s.chainDigit)
  | .cfg _ => none
  | .coefQ => none
  | .coefE => none
  | .cksum => none
  | .encode => none

/-- A host write of val at window offset off, made next, leaves t (the host's remaining events aside). -/
def afterWrite (s : State) (off : Nat) (val : Word) (t : State) : Prop :=
  ∀ rest, step { s with agenda := .write (s.par.base + off) 32 val :: rest } = .next { t with agenda := rest }

/-- A host read at window offset off, made next, leaves t (the host's remaining events aside). -/
def afterRead (s : State) (off : Nat) (t : State) : Prop :=
  ∀ rest, step { s with agenda := .read (s.par.base + off) 32 :: rest } = .next { t with agenda := rest }

/-- b' is b after a write of val to word m: byte 4m + k holds bits [31−8k : 24−8k] of val where b has that byte, and
every other byte is as before (20_memory.md R65, R66). -/
def wordStored (b b' : Bytes) (m : Nat) (val : Word) : Prop :=
  b'.length = b.length ∧
    ∀ a, b'.getD a 0 = if a / 4 = m ∧ a < b.length then val.extractLsb' (24 - 8 * (a % 4)) 8 else b.getD a 0

/-- val is word m of b: bits [31−8k : 24−8k] are byte 4m + k, and 0 past the end of b (R65, R66). -/
def wordShown (b : Bytes) (m : Nat) (val : Word) : Prop :=
  ∀ k < 4, val.extractLsb' (24 - 8 * k) 8 = b.getD (4 * m + k) 0

/-- The window offsets of the register map, written out (10_state.md R24, 20_memory.md R63). -/
def definedOffset (par : Params) (off : Nat) : Prop :=
  off ∈ [0x000, 0x004, 0x008, 0x00C, 0x010, 0x014, 0x020, 0x024, 0x028, 0x02C, 0x030, 0x034, 0x038] ∨
  off % 4 = 0 ∧
    ((0x100 ≤ off ∧ off < 0x100 + 4 * ((par.iLen + 3) / 4)) ∨
     (0x200 ≤ off ∧ off < 0x200 + 4 * ((par.n + 3) / 4)) ∨
     (0x400 ≤ off ∧ off < 0x400 + 4 * ((par.n + 3) / 4)) ∨
     (0x600 ≤ off ∧ off < 0x600 + 4 * ((par.n + 2 + 3) / 4)))

/-- The next step is a turn of the sequencer, and r is the state with that event used up. -/
def sequencerNext (s r : State) : Prop :=
  (s.agenda = [] ∧ r = s) ∨ ∃ rest, s.agenda = .sequencer :: rest ∧ r = { s with agenda := rest }

/-- The completion code of each command, instruction by instruction, as its own rule lists its checks
(40_control.md R107, 41_codec.md R126 to R129, 42_chain_walk.md R147 to R150). -/
def completionCode (i : Instr) (s : State) : Byte :=
  match i with
  | .cfg w => if w = 1 ∨ w = 2 ∨ w = 4 ∨ w = 8 then 0x00 else 0x02
  | .walk j0 k =>
    if s.cfgd = false then 0x03 else if s.chainI.toNat ≥ s.cfgP then 0x04
    else if j0 + k > 2 ^ s.cfgW - 1 then 0x04 else 0x00
  | .walkFull => if s.cfgd = false then 0x03 else if s.chainI.toNat ≥ s.cfgP then 0x04 else 0x00
  | .walkSign =>
    if s.cfgd = false then 0x03 else if s.chainI.toNat ≥ s.cfgP then 0x04
    else if s.evalid = false then 0x05 else 0x00
  | .walkVerify =>
    if s.cfgd = false then 0x03 else if s.chainI.toNat ≥ s.cfgP then 0x04
    else if s.evalid = false then 0x05 else 0x00
  | .coefQ => if s.cfgd = false then 0x03 else if s.chainI.toNat ≥ 8 * s.par.n / s.cfgW then 0x04 else 0x00
  | .coefE =>
    if s.cfgd = false then 0x03 else if s.evalid = false then 0x05
    else if s.chainI.toNat ≥ 8 * (s.par.n + 2) / s.cfgW then 0x04 else 0x00
  | .cksum => if s.cfgd = false then 0x03 else 0x00
  | .encode => if s.cfgd = false then 0x03 else 0x00

/-- What a walk of k steps from j0 has made of a state once it has completed (42_chain_walk.md R146). -/
def walkOutcome (j0 k : Nat) (s : State) : State :=
  { s with
    vBuf := walk s.hash s.iBuf s.leafQ s.chainI s.vBuf j0 k
    result := BitVec.ofNat 32 j0 <<< 8 ||| BitVec.ofNat 32 k
    hcount := s.hcount + BitVec.ofNat 32 k
    err := 0
    busy := false
    done := true
    phase := .idle
    seqJ0 := BitVec.ofNat 8 j0
    seqK := BitVec.ofNat 8 k
    seqJ := BitVec.ofNat 8 (j0 + k)
    seqLeft := 0
    seqTmp := walk s.hash s.iBuf s.leafQ s.chainI s.vBuf j0 k }

/-! ## Host programs -/

/-- A block configured for w and between two commands: where the operations of 45_host_sequences.md start
(70_reset_and_hazards.md R212, R214). -/
abbrev State.ready (s : State) (w : Nat) : Prop := s.Inv ∧ s.phase = .idle ∧ s.cfgd = true ∧ s.cfgW = w

/-- The host's parameters at a block: the block's H and N (45_host_sequences.md R170), and w. -/
def Bench.params (b : Bench) (w : Nat) : HostParams := ⟨b.block.hash, b.block.par.n, w⟩

/-- Over any `patience` accesses in a row the sequencer has at least the 256 turns that the longest command takes: what
weak fairness gives a poll (70_reset_and_hazards.md R219, R220). -/
def fairSchedule (turns : Nat → Nat) (patience : Nat) : Prop :=
  ∀ k, 256 ≤ ((List.range patience).map fun m => turns (k + m)).sum

/-- The run is never stuck, and where it finishes it finishes so. -/
def HostRun.endsOnlyIn {α : Type} (r : HostRun α) (post : α → Bench → Prop) : Prop :=
  match r with
  | .finished result b => post result b
  | .polling _ => True
  | .stuck _ => False
  | .refused _ => False

/-- The run finishes so. -/
def HostRun.finishesIn {α : Type} (r : HostRun α) (post : α → Bench → Prop) : Prop :=
  ∃ result b, r = .finished result b ∧ post result b

end Sys2Proof.Machine
end

