-- ==== Sys2Proof/Certificates/Slice0/Obligations.lean ====
section
/-! DEFINITION. The statements for the provers. Each docstring names the rules of spec/ it comes from. -/

set_option autoImplicit false

open Sys2Proof Sys2Proof.Machine

/-! ## Encoding -/

/-- Every well-formed command is what its assembled word decodes to (30_encoding.md R83, R84, R86, R94). -/
def Obligations.DecodeReadsBackEncode : Prop :=
  ∀ i : Instr, i.wf = true → decode (encode i) = .ok i

/-- A word that decodes is the assembled word of the command it decodes to, so each legal word has one meaning
(R83, R86, R94); and "No two rows match one word" (R83). -/
def Obligations.DecodedWordIsAssembledWord : Prop :=
  (∀ (x : Word) (i : Instr), decode x = .ok i → i.wf = true ∧ encode i = x) ∧
  opRows.Pairwise (fun r r' => ∀ x : Word, ¬ (r.matchesWord x = true ∧ r'.matchesWord x = true))

/-- Which words are illegal, field by field (R82, R87, R88): RSV ≠ 0, an OP outside 0x01..0x08, a non-zero unused A
or B. -/
def Obligations.IllegalWordsByField : Prop :=
  ∀ x : Word, decode x = .error .illegalCommand ↔
    fieldRsv x ≠ 0 ∨ fieldOp x = 0x00 ∨ (fieldOp x).toNat ≥ 0x09 ∨
    (fieldOp x = 0x01 ∧ fieldB x ≠ 0) ∨
    ((fieldOp x = 0x03 ∨ fieldOp x = 0x04 ∨ fieldOp x = 0x05 ∨ fieldOp x = 0x07 ∨ fieldOp x = 0x08) ∧
      (fieldA x ≠ 0 ∨ fieldB x ≠ 0)) ∨
    (fieldOp x = 0x06 ∧ ((fieldA x).toNat ≥ 2 ∨ fieldB x ≠ 0))

/-- Words written out from the encodings of R83 and R94 decode to the commands they stand for. -/
def Obligations.SpecWordsDecode : Prop :=
  decode 0x00000401#32 = .ok (.cfg 4) ∧ decode 0x000A0502#32 = .ok (.walk 5 10) ∧
  decode 0x00000003#32 = .ok .walkFull ∧ decode 0x00000106#32 = .ok .coefE ∧
  decode 0x00000008#32 = .ok .encode ∧ decode 0x00000206#32 = .error .illegalCommand ∧
  decode 0x00000000#32 = .error .illegalCommand

/-! ## The step -/

/-- When the sequencer takes its turn on an issued command that decodes, the step is exec of it (10_state.md R47). -/
def Obligations.SequencerTurnRunsDecodedCommand : Prop :=
  ∀ (s r : State) (i : Instr), sequencerNext s r → s.phase = .issued → decode s.cmdLast = .ok i →
    step s = exec i r

/-- An issued word that decodes to nothing completes with ERR = 0x01 and nothing else; a word that decodes never
reports that code (60_exceptions.md R193). -/
def Obligations.IllegalWordCompletesWithItsCode : Prop :=
  (∀ s r : State, sequencerNext s r → s.phase = .issued → decode s.cmdLast = .error .illegalCommand →
    step s = .next { r with err := 0x01, busy := false, done := true, phase := .idle }) ∧
  (∀ (i : Instr) (s t : State), s.err = 0 → exec i s = .next t → t.err ≠ 0x01)

/-- The check order of R192, command by command (every command but CFG first needs CFGD = 1): a failing command
completes with the first code that applies and changes nothing else (R198); a passing one reports no error; a word
that decodes to nothing reports ILLEGAL_COMMAND before any other check. -/
def Obligations.FirstFailingCheckIsReportedAlone : Prop :=
  (∀ (i : Instr) (s : State),
    (completionCode i s ≠ 0 →
      exec i s = .next { s with err := completionCode i s, busy := false, done := true, phase := .idle }) ∧
    (completionCode i s = 0 →
      ∃ t, exec i s = .next t ∧ (t.err = 0 ∨ (t.phase = .walking ∧ t.err = s.err)))) ∧
  (∀ s : State, decode s.cmdLast = .error .illegalCommand →
    dispatch s = .next { s with err := 0x01, busy := false, done := true, phase := .idle })

/-! ## Configuration -/

/-- CFG w with w in {1, 2, 4, 8} (40_control.md R107): the five values, CFGD, EVALID and the completion, and nothing
else. -/
def Obligations.CfgLoadsParameterSet : Prop :=
  ∀ (w : Nat) (s : State), w = 1 ∨ w = 2 ∨ w = 4 ∨ w = 8 →
    exec (.cfg w) s = .next
      { s with
        cfgW := w
        cfgU := deriveU s.par.n w
        cfgV := deriveV s.par.n w
        cfgLs := deriveLs s.par.n w
        cfgP := deriveP s.par.n w
        cfgd := true
        evalid := false
        err := 0
        busy := false
        done := true
        phase := .idle }

/-- UNSUPPORTED_PARAMETER: CFG with another w completes with 0x02 and keeps the previous configuration; nothing else
reports that code (60_exceptions.md R194). -/
def Obligations.UnsupportedWidthKeepsConfiguration : Prop :=
  (∀ (w : Nat) (s : State), ¬ (w = 1 ∨ w = 2 ∨ w = 4 ∨ w = 8) →
    exec (.cfg w) s = .next { s with err := 0x02, busy := false, done := true, phase := .idle }) ∧
  (∀ (i : Instr) (s t : State), s.err = 0 → exec i s = .next t → t.err = 0x02 →
    ∃ w, i = .cfg w ∧ ¬ (w = 1 ∨ w = 2 ∨ w = 4 ∨ w = 8))

/-- The derivation functions (40_control.md R101 to R104): u is 8N/w exactly; v is the formula of R102, which is the
number of w-bit digits needed to hold (2^w − 1)·u; ls and p follow. -/
def Obligations.DerivedParametersMeetTheirFormulas : Prop :=
  ∀ n w : Nat, 1 ≤ n → n ≤ 257 → w = 1 ∨ w = 2 ∨ w = 4 ∨ w = 8 →
    deriveU n w * w = 8 * n ∧
    1 ≤ (2 ^ w - 1) * deriveU n w ∧
    deriveV n w = (Nat.log2 ((2 ^ w - 1) * deriveU n w) + 1 + w - 1) / w ∧
    (2 ^ w - 1) * deriveU n w < 2 ^ (deriveV n w * w) ∧
    2 ^ ((deriveV n w - 1) * w) ≤ (2 ^ w - 1) * deriveU n w ∧
    deriveLs n w + deriveV n w * w = 16 ∧
    deriveP n w = deriveU n w + deriveV n w

/-- The ranges of R106 for every admitted N, no register losing a bit, and the failure at N = 258, w = 8 that
bounds N. -/
def Obligations.DerivedParametersStayInRange : Prop :=
  (∀ n w : Nat, 1 ≤ n → n ≤ 257 → w = 1 ∨ w = 2 ∨ w = 4 ∨ w = 8 →
    1 ≤ deriveV n w ∧ deriveV n w ≤ 12 ∧ deriveV n w * w ≤ 16 ∧ deriveLs n w ≤ 12 ∧
    deriveU n w ≤ 2056 ∧ deriveP n w ≤ 2068 ∧ deriveP n w ≤ 8 * (n + 2) / w ∧
    (∀ x ∈ [w, deriveU n w, deriveV n w, deriveLs n w, deriveP n w], (BitVec.ofNat 32 x).toNat = x)) ∧
  deriveV 258 8 = 3 ∧ 3 * 8 > 16

/-- The parameter set (10_state.md R37, R38, 40_control.md R108): N and I_LEN never change (R23), nor does BASE; between
two resets the five values change only in the step that dispatches a CFG with a supported w. -/
def Obligations.ParametersChangeOnlyByCfg : Prop :=
  ∀ s t : State, step s = .next t → t.par = s.par ∧ (s.agenda.head? ≠ some .reset →
    (t.cfgW = s.cfgW ∧ t.cfgU = s.cfgU ∧ t.cfgV = s.cfgV ∧ t.cfgLs = s.cfgLs ∧ t.cfgP = s.cfgP ∧ t.cfgd = s.cfgd) ∨
    (∃ r w, sequencerNext s r ∧ s.phase = .issued ∧ decode s.cmdLast = .ok (.cfg w) ∧
      (w = 1 ∨ w = 2 ∨ w = 4 ∨ w = 8) ∧ t.cfgd = true))

/-! ## Codec -/

/-- COEF.Q (41_codec.md R126): the digit of QD_BUF, RESULT and the completion only. -/
def Obligations.CoefQWritesTheDigit : Prop :=
  ∀ s : State, s.cfgd = true → s.chainI.toNat < 8 * s.par.n / s.cfgW →
    exec .coefQ s = .next
      { s with
        result := BitVec.ofNat 32 (coef s.cfgW s.qdBuf s.chainI.toNat)
        err := 0
        busy := false
        done := true
        phase := .idle }

/-- COEF.E (R127): the digit of E_BUF, RESULT and the completion only. -/
def Obligations.CoefEWritesTheDigit : Prop :=
  ∀ s : State, s.cfgd = true → s.evalid = true → s.chainI.toNat < 8 * (s.par.n + 2) / s.cfgW →
    exec .coefE s = .next
      { s with
        result := BitVec.ofNat 32 (coef s.cfgW s.eBuf s.chainI.toNat)
        err := 0
        busy := false
        done := true
        phase := .idle }

/-- CKSUM (R128): the checksum of QD_BUF, RESULT and the completion only. -/
def Obligations.CksumWritesTheChecksum : Prop :=
  ∀ s : State, s.cfgd = true →
    exec .cksum s = .next
      { s with
        result := (checksum s.cfgW s.cfgU s.cfgLs s.qdBuf).setWidth 32
        err := 0
        busy := false
        done := true
        phase := .idle }

/-- ENCODE (R129): E_BUF <- QD_BUF followed by the two checksum bytes, EVALID, RESULT and the completion only. -/
def Obligations.EncodeBuildsTheEncoding : Prop :=
  ∀ s : State, s.cfgd = true →
    exec .encode s = .next
      { s with
        eBuf := s.qdBuf ++
          [(checksum s.cfgW s.cfgU s.cfgLs s.qdBuf).extractLsb' 8 8, (checksum s.cfgW s.cfgU s.cfgLs s.qdBuf).extractLsb' 0 8]
        evalid := true
        result := (checksum s.cfgW s.cfgU s.cfgLs s.qdBuf).setWidth 32
        err := 0
        busy := false
        done := true
        phase := .idle }

/-- Where a digit lies, as R121 and R122 say for a digit inside the byte string; past its end, where the spec defines no
digit, the statement has the model's choice, a byte that counts as 0 (log 11): bits [7 − w·offset : 8 − w·(offset + 1)] of byte floor(i·w/8); nibbles for w = 4,
bit 0 of byte b for digit 8b + 7 at w = 1, whole bytes for w = 8. -/
def Obligations.DigitPlacement : Prop :=
  (∀ (w : Nat) (s : Bytes) (i : Nat), w = 1 ∨ w = 2 ∨ w = 4 ∨ w = 8 →
    coef w s i = ((s.getD (i * w / 8) 0).extractLsb' (8 - w * (i % (8 / w) + 1)) w).toNat) ∧
  (∀ (s : Bytes) (b : Nat), coef 4 s (2 * b) = (s.getD b 0).toNat / 16 ∧ coef 4 s (2 * b + 1) = (s.getD b 0).toNat % 16) ∧
  (∀ (s : Bytes) (b : Nat), coef 1 s (8 * b + 7) = (s.getD b 0).toNat % 2) ∧
  (∀ (s : Bytes) (i : Nat), coef 8 s i = (s.getD i 0).toNat)

/-- The checksum's shift never loses a bit (R124): the sum is below 2^(v·w), v·w + ls = 16, and the low ls bits of the
result are 0. -/
def Obligations.ChecksumLosesNoBit : Prop :=
  ∀ (n w : Nat) (q : Bytes), 1 ≤ n → n ≤ 257 → w = 1 ∨ w = 2 ∨ w = 4 ∨ w = 8 →
    digitSum w q (deriveU n w) ≤ deriveU n w * (2 ^ w - 1) ∧
    deriveU n w * (2 ^ w - 1) < 2 ^ (deriveV n w * w) ∧
    deriveV n w * w + deriveLs n w = 16 ∧
    (checksum w (deriveU n w) (deriveLs n w) q).toNat = digitSum w q (deriveU n w) * 2 ^ deriveLs n w ∧
    digitSum w q (deriveU n w) ≤ 65535

/-- The digits of an encoding (R130): those of the digest, then those of the unshifted sum, most significant first,
then zeros. -/
def Obligations.DigitsOfAnEncoding : Prop :=
  ∀ (n w : Nat) (q : Bytes), 1 ≤ n → n ≤ 257 → w = 1 ∨ w = 2 ∨ w = 4 ∨ w = 8 → q.length = n →
    let e := encodeDigest w (deriveU n w) (deriveLs n w) q
    let s := (checksum w (deriveU n w) (deriveLs n w) q).toNat >>> deriveLs n w
    (∀ i < deriveU n w, coef w e i = coef w q i) ∧
    (∀ t < deriveV n w, coef w e (deriveU n w + t) = (s >>> (w * (deriveV n w - 1 - t))) &&& (2 ^ w - 1)) ∧
    (∀ i, deriveP n w ≤ i → i < 8 * (n + 2) / w → coef w e i = 0)

/-- What the checksum digits are for ("preventing 'digit-lowering' forgeries", 00_scope.md section 6): of the
encodings of two different digests, each has a chain on which its digit is lower than the other's. -/
def Obligations.EncodingOfAnotherDigestLowersSomeDigit : Prop :=
  ∀ (n w : Nat) (q q' : Bytes), 1 ≤ n → n ≤ 257 → w = 1 ∨ w = 2 ∨ w = 4 ∨ w = 8 →
    q.length = n → q'.length = n → q ≠ q' →
    ∃ i < deriveP n w,
      coef w (encodeDigest w (deriveU n w) (deriveLs n w) q') i <
        coef w (encodeDigest w (deriveU n w) (deriveLs n w) q) i

/-! ## Walks -/

/-- WALK j0, k whose checks pass (42_chain_walk.md R144, R147): with k = 0 it completes at once with V_BUF as it was,
else the sequencer is loaded and walks. -/
def Obligations.WalkCommandStarts : Prop :=
  ∀ (s : State) (j0 k : Nat), (Instr.walk j0 k).wf = true → s.cfgd = true → s.chainI.toNat < s.cfgP →
    j0 + k ≤ 2 ^ s.cfgW - 1 →
    (k = 0 → exec (.walk j0 k) s = .next (walkOutcome j0 0 s)) ∧
    (k ≠ 0 → exec (.walk j0 k) s = .next
      { s with
        seqJ0 := BitVec.ofNat 8 j0, seqK := BitVec.ofNat 8 k, seqJ := BitVec.ofNat 8 j0, seqLeft := BitVec.ofNat 8 k
        seqTmp := s.vBuf, phase := .walking })

/-- WALK.FULL whose checks pass (R148): 2^w − 1 steps from counter 0, never none. -/
def Obligations.WalkFullStarts : Prop :=
  ∀ s : State, s.cfgd = true → supportedW s.cfgW = true → s.chainI.toNat < s.cfgP →
    exec .walkFull s = .next
      { s with
        seqJ0 := 0, seqK := BitVec.ofNat 8 (2 ^ s.cfgW - 1), seqJ := 0, seqLeft := BitVec.ofNat 8 (2 ^ s.cfgW - 1)
        seqTmp := s.vBuf, phase := .walking }

/-- WALK.SIGN whose checks pass (R149): c = coef(E_BUF, CHAIN_I) steps from counter 0. -/
def Obligations.WalkSignStarts : Prop :=
  ∀ s : State, s.cfgd = true → supportedW s.cfgW = true → s.evalid = true → s.chainI.toNat < s.cfgP →
    (coef s.cfgW s.eBuf s.chainI.toNat = 0 → exec .walkSign s = .next (walkOutcome 0 0 s)) ∧
    (coef s.cfgW s.eBuf s.chainI.toNat ≠ 0 → exec .walkSign s = .next
      { s with
        seqJ0 := 0, seqK := BitVec.ofNat 8 (coef s.cfgW s.eBuf s.chainI.toNat), seqJ := 0
        seqLeft := BitVec.ofNat 8 (coef s.cfgW s.eBuf s.chainI.toNat), seqTmp := s.vBuf, phase := .walking })

/-- WALK.VERIFY whose checks pass (R150): the remaining 2^w − 1 − c steps from counter c. -/
def Obligations.WalkVerifyStarts : Prop :=
  ∀ s : State, s.cfgd = true → supportedW s.cfgW = true → s.evalid = true → s.chainI.toNat < s.cfgP →
    (coef s.cfgW s.eBuf s.chainI.toNat = 2 ^ s.cfgW - 1 →
      exec .walkVerify s = .next (walkOutcome (2 ^ s.cfgW - 1) 0 s)) ∧
    (coef s.cfgW s.eBuf s.chainI.toNat ≠ 2 ^ s.cfgW - 1 → exec .walkVerify s = .next
      { s with
        seqJ0 := BitVec.ofNat 8 (coef s.cfgW s.eBuf s.chainI.toNat)
        seqK := BitVec.ofNat 8 (2 ^ s.cfgW - 1 - coef s.cfgW s.eBuf s.chainI.toNat)
        seqJ := BitVec.ofNat 8 (coef s.cfgW s.eBuf s.chainI.toNat)
        seqLeft := BitVec.ofNat 8 (2 ^ s.cfgW - 1 - coef s.cfgW s.eBuf s.chainI.toNat)
        seqTmp := s.vBuf, phase := .walking })

/-- One walking step (R145): one hash of I ‖ be32(q) ‖ be16(i) ‖ byte(SEQ_J) ‖ SEQ_TMP, the counters, and with no step
left the completion of R146. -/
def Obligations.WalkingStepHashesOnce : Prop :=
  ∀ s r : State, sequencerNext s r → s.phase = .walking →
    let value := hashBytes s.par.n
      (s.iBuf ++
        [s.leafQ.extractLsb' 24 8, s.leafQ.extractLsb' 16 8, s.leafQ.extractLsb' 8 8, s.leafQ.extractLsb' 0 8] ++
        [s.chainI.extractLsb' 8 8, s.chainI.extractLsb' 0 8] ++ [s.seqJ] ++ s.seqTmp)
    (s.seqLeft ≠ 1 → step s = .next
      { r with seqTmp := value, hcount := s.hcount + 1, seqJ := s.seqJ + 1, seqLeft := s.seqLeft - 1 }) ∧
    (s.seqLeft = 1 → step s = .next
      { r with
        seqTmp := value, hcount := s.hcount + 1, seqJ := s.seqJ + 1, seqLeft := 0, vBuf := value
        result := s.seqJ0.setWidth 32 <<< 8 ||| s.seqK.setWidth 32
        err := 0, busy := false, done := true, phase := .idle })

/-- The counter byte of a hash is at most 2^w − 2, so never the key-generation byte 0xFF (30_encoding.md R90,
40_control.md R109). -/
def Obligations.HashedCounterIsNeverKeyByte : Prop :=
  ∀ s : State, s.Inv → s.phase = .walking → s.seqJ.toNat ≤ 2 ^ s.cfgW - 2 ∧ s.seqJ ≠ 0xFF

/-- A walk may be split at any step (R143). -/
def Obligations.WalksCompose : Prop :=
  ∀ (hash : Bytes → Bytes) (ident : Bytes) (q : Word) (i : Half) (x : Bytes) (j0 a b : Nat),
    walk hash ident q i (walk hash ident q i x j0 a) (j0 + a) b = walk hash ident q i x j0 (a + b)

/-- A walk command of k steps takes exactly 1 + k sequencer turns (R219), the last of which leaves the outcome of R146:
V_BUF walked, RESULT, HCOUNT grown by k, success, nothing else. -/
def Obligations.WalkCommandReachesItsOutcome : Prop :=
  ∀ (s : State) (i : Instr) (j0 k : Nat), s.Inv → s.phase = .issued → s.agenda = [] →
    decode s.cmdLast = .ok i → check i s = .ok → walkCounters i s = some (j0, k) →
    (∀ m ≤ k, ∃ t, runSteps m s = .next t ∧ t.busy = true) ∧
    runSteps (1 + k) s = .next (walkOutcome j0 k s)

/-- Every command completes (70_reset_and_hazards.md R220): at most 256 sequencer turns after the issue. -/
def Obligations.EveryCommandCompletes : Prop :=
  ∀ s : State, s.Inv → s.agenda = [] →
    ∃ m ≤ 256, ∃ t, runSteps m s = .next t ∧ t.phase = .idle ∧ t.busy = false

/-- WALK.SIGN then WALK.VERIFY on one chain leaves the chain top, and HCOUNT grows by 2^w − 1 in all (R151). -/
def Obligations.SignThenVerifyReachesChainTop : Prop :=
  ∀ s : State, s.phase = .idle → s.busy = false → s.cfgd = true → supportedW s.cfgW = true → s.evalid = true →
    s.chainI.toNat < s.cfgP →
    let c := coef s.cfgW s.eBuf s.chainI.toNat
    let m := 2 ^ s.cfgW - 1
    let events := .write (s.par.base + 0x000) 32 0x00000004 :: List.replicate (1 + c) .sequencer ++
      .write (s.par.base + 0x000) 32 0x00000005 :: List.replicate (1 + (m - c)) .sequencer
    ∃ t, runSteps events.length { s with agenda := events } = .next t ∧
      t.vBuf = walk s.hash s.iBuf s.leafQ s.chainI s.vBuf 0 m ∧
      t.hcount = s.hcount + BitVec.ofNat 32 m ∧
      t.result = BitVec.ofNat 32 c <<< 8 ||| BitVec.ofNat 32 (m - c) ∧
      t.err = 0 ∧ t.busy = false ∧ t.done = true ∧ t.overrun = s.overrun ∧ t.agenda = []

/-- A walk reads only its operands (R152): two states that agree on them reach the same V_BUF and RESULT. -/
def Obligations.WalkReadsOnlyItsOperands : Prop :=
  ∀ (s s' : State) (i : Instr) (j0 k : Nat), s.Inv → s'.Inv → s.phase = .issued → s'.phase = .issued →
    s.agenda = [] → s'.agenda = [] → decode s.cmdLast = .ok i → decode s'.cmdLast = .ok i →
    walkCounters i s = some (j0, k) → check i s = .ok →
    s'.par = s.par → s'.cfgd = s.cfgd → s'.cfgW = s.cfgW → s'.cfgP = s.cfgP → s'.chainI = s.chainI →
    s'.leafQ = s.leafQ → s'.iBuf = s.iBuf → s'.vBuf = s.vBuf →
    (needsEncoding i = true → s'.evalid = s.evalid ∧ s'.eBuf = s.eBuf) →
    ∃ t t', runSteps (1 + k) s = .next t ∧ runSteps (1 + k) s' = .next t' ∧ t'.vBuf = t.vBuf ∧ t'.result = t.result ∧
      t.hcount - s.hcount = t'.hcount - s'.hcount ∧ t.err = t'.err

/-! ## Frames -/

/-- What each command leaves alone in its dispatch step (30_encoding.md R91): nothing but the writes its row lists. -/
def Obligations.CommandsTouchOnlyTheirOutputs : Prop :=
  ∀ (i : Instr) (s t : State), exec i s = .next t →
    (t.par = s.par ∧ t.cmdLast = s.cmdLast ∧ t.overrun = s.overrun ∧ t.hcount = s.hcount ∧ t.leafQ = s.leafQ ∧
      t.chainI = s.chainI ∧ t.iBuf = s.iBuf ∧ t.qdBuf = s.qdBuf ∧ t.draws = s.draws ∧ t.agenda = s.agenda ∧
      t.readLog = s.readLog) ∧
    ((∀ w, i ≠ .cfg w) → t.cfgd = s.cfgd ∧ t.cfgW = s.cfgW ∧ t.cfgU = s.cfgU ∧ t.cfgV = s.cfgV ∧ t.cfgLs = s.cfgLs ∧
      t.cfgP = s.cfgP) ∧
    ((∀ w, i ≠ .cfg w) → i ≠ .encode → t.evalid = s.evalid) ∧
    (i ≠ .encode → t.eBuf = s.eBuf) ∧
    t.vBuf = s.vBuf ∧
    ((∃ w, i = .cfg w) → t.result = s.result) ∧
    (isWalk i = false → t.seqJ0 = s.seqJ0 ∧ t.seqK = s.seqK ∧ t.seqJ = s.seqJ ∧ t.seqLeft = s.seqLeft ∧
      t.seqTmp = s.seqTmp ∧ t.phase = .idle)

/-- The frame as the host sees it: after a dispatch every window word reads as before, but STATUS, RESULT, the PARAM
registers after CFG, and E_BUF after ENCODE (R91). -/
def Obligations.OtherWindowWordsReadAsBefore : Prop :=
  ∀ (i : Instr) (s t : State) (target : Target), exec i s = .next t → target ≠ .status → target ≠ .result →
    ((∃ w, i = .cfg w) → target ∉ [.paramW, .paramU, .paramV, .paramLs, .paramP]) →
    (i = .encode → ∀ m, target ≠ .eBuf m) →
    t.readTarget target = s.readTarget target

/-! ## The host's accesses -/

/-- Which accesses have a step: 32 bits wide, at a multiple of 4, at a defined offset of the window; any other is
stuck, which the model shows as a fault (20_memory.md R62, R63; the fault is the model's form: log 9). -/
def Obligations.OnlyAdmittedAccessesHaveAStep : Prop :=
  ∀ (s : State) (addr width : Nat) (val : Word) (rest : List Event),
    let admitted := width = 32 ∧ addr % 4 = 0 ∧ s.par.base ≤ addr ∧ definedOffset s.par (addr - s.par.base)
    (admitted → (∃ t, step { s with agenda := .read addr width :: rest } = .next t) ∧
      ∃ t, step { s with agenda := .write addr width val :: rest } = .next t) ∧
    (¬ admitted → (∃ f, step { s with agenda := .read addr width :: rest } = .fault f) ∧
      ∃ f, step { s with agenda := .write addr width val :: rest } = .fault f)

/-- A host read while BUSY = 0 returns the register or buffer word at its offset and changes nothing (10_state.md R24,
R25, R33 to R38, 20_memory.md R60, R67). -/
def Obligations.IdleReadReturnsTheRegister : Prop :=
  ∀ s : State, s.busy = false →
    let shows := fun (off : Nat) (val : Word) => afterRead s off { s with readLog := val :: s.readLog }
    let param := fun (v : Nat) => if s.cfgd = true then BitVec.ofNat 32 v else 0
    shows 0x000 s.cmdLast ∧ shows 0x004 s.statusWord ∧ shows 0x008 s.result ∧ shows 0x00C s.hcount ∧
    shows 0x010 s.leafQ ∧ shows 0x014 (BitVec.ofNat 32 s.chainI.toNat) ∧
    shows 0x020 (BitVec.ofNat 32 s.par.n) ∧ shows 0x038 (BitVec.ofNat 32 s.par.iLen) ∧
    shows 0x024 (param s.cfgW) ∧ shows 0x028 (param s.cfgU) ∧ shows 0x02C (param s.cfgV) ∧
    shows 0x030 (param s.cfgLs) ∧ shows 0x034 (param s.cfgP) ∧
    (∀ m < (s.par.iLen + 3) / 4, ∃ val, wordShown s.iBuf m val ∧ shows (0x100 + 4 * m) val) ∧
    (∀ m < (s.par.n + 3) / 4, ∃ val, wordShown s.vBuf m val ∧ shows (0x200 + 4 * m) val) ∧
    (∀ m < (s.par.n + 3) / 4, ∃ val, wordShown s.qdBuf m val ∧ shows (0x400 + 4 * m) val) ∧
    (∀ m < (s.par.n + 2 + 3) / 4, ∃ val, wordShown s.eBuf m val ∧ shows (0x600 + 4 * m) val)

/-- The fields of STATUS (R26), bit by bit; a write to STATUS while BUSY = 0 is ignored; it is 0 after reset. -/
def Obligations.StatusFields : Prop :=
  (∀ s : State,
    s.statusWord.getLsbD 0 = s.busy ∧ s.statusWord.getLsbD 1 = s.done ∧ s.statusWord.getLsbD 2 = s.cfgd ∧
    s.statusWord.getLsbD 3 = s.evalid ∧ s.statusWord.getLsbD 4 = s.overrun ∧
    s.statusWord.extractLsb' 5 3 = 0 ∧ s.statusWord.extractLsb' 8 8 = s.err ∧ s.statusWord.extractLsb' 16 16 = 0) ∧
  (∀ (s : State) (val : Word), s.busy = false → afterWrite s 0x004 val s) ∧
  State.reset.statusWord = 0

/-- Host writes while BUSY = 0 (20_memory.md R61, R65, R66): CMD issues the word, whatever it is (10_state.md R46), then
LEAF_Q, CHAIN_I (its low half), the three writable buffers byte by byte, QD_BUF also clearing EVALID, and the read-only
registers not at all. A write to CMD while BUSY = 1 is no issue (R46). -/
def Obligations.IdleWriteStoresItsOperand : Prop :=
  (∀ (s : State) (val : Word), s.busy = false →
    afterWrite s 0x000 val { s with cmdLast := val, busy := true, done := false, err := 0x00, phase := .issued } ∧
    afterWrite s 0x010 val { s with leafQ := val } ∧
    afterWrite s 0x014 val { s with chainI := val.extractLsb' 0 16 } ∧
    (∀ m < (s.par.iLen + 3) / 4, ∃ b, wordStored s.iBuf b m val ∧ afterWrite s (0x100 + 4 * m) val { s with iBuf := b }) ∧
    (∀ m < (s.par.n + 3) / 4, ∃ b, wordStored s.vBuf b m val ∧ afterWrite s (0x200 + 4 * m) val { s with vBuf := b }) ∧
    (∀ m < (s.par.n + 3) / 4, ∃ b, wordStored s.qdBuf b m val ∧
      afterWrite s (0x400 + 4 * m) val { s with qdBuf := b, evalid := false }) ∧
    (∀ off ∈ [0x004, 0x008, 0x00C, 0x020, 0x024, 0x028, 0x02C, 0x030, 0x034, 0x038], afterWrite s off val s) ∧
    (∀ m < (s.par.n + 2 + 3) / 4, afterWrite s (0x600 + 4 * m) val s)) ∧
  (∀ (s : State) (val : Word), s.busy = true → afterWrite s 0x000 val { s with overrun := true })

/-- A host write while BUSY = 1 to any admitted offset is discarded and sets OVERRUN (R78). -/
def Obligations.BusyWriteIsDiscarded : Prop :=
  ∀ (s : State) (off : Nat) (val : Word), s.busy = true → definedOffset s.par off →
    afterWrite s off val { s with overrun := true }

/-- A host read while BUSY = 1 (R79): some word is returned and nothing of the block changes; STATUS shows BUSY = 1,
DONE = 0, ERR = 0x00, the exact OVERRUN and 0 in the reserved bits. The word is a free value (log 8). -/
def Obligations.BusyReadIsUnspecified : Prop :=
  ∀ (s : State) (off : Nat), s.busy = true → definedOffset s.par off →
    ∃ val : Word, afterRead s off { s with readLog := val :: s.readLog, draws := s.draws + 1 } ∧
      (off = 0x004 → val.getLsbD 0 = true ∧ val.getLsbD 1 = false ∧ val.getLsbD 4 = s.overrun ∧
        val.extractLsb' 5 3 = 0 ∧ val.extractLsb' 8 8 = 0 ∧ val.extractLsb' 16 16 = 0)

/-- No read has a side effect on the block, busy or not (R69). -/
def Obligations.ReadsHaveNoSideEffect : Prop :=
  ∀ (s t : State) (addr width : Nat) (rest : List Event), s.agenda = .read addr width :: rest → step s = .next t →
    t.blockView = s.blockView ∧ t.overrun = s.overrun ∧ t.agenda = rest

/-- `wrbuf` while BUSY = 0 (30_encoding.md R95, 20_memory.md R65): the buffer then holds exactly the string. -/
def Obligations.WrbufStoresTheString : Prop :=
  ∀ (s : State) (bytes : Bytes), s.Inv → s.busy = false →
    (bytes.length = s.par.n →
      (let events := wrbuf s.par .vBuf bytes
       runSteps events.length { s with agenda := events } = .next { s with agenda := [], vBuf := bytes }) ∧
      (let events := wrbuf s.par .qdBuf bytes
       runSteps events.length { s with agenda := events } =
         .next { s with agenda := [], qdBuf := bytes, evalid := false })) ∧
    (bytes.length = s.par.iLen →
      let events := wrbuf s.par .iBuf bytes
      runSteps events.length { s with agenda := events } = .next { s with agenda := [], iBuf := bytes })

/-- `rdbuf` while BUSY = 0 returns exactly the bytes of the buffer (R95, R65, R66). -/
def Obligations.RdbufReturnsTheBytes : Prop :=
  ∀ s : State, s.Inv → s.busy = false → s.readLog = [] →
    (let events := rdbuf s.par .vBuf s.par.n
     ∃ t, runSteps events.length { s with agenda := events } = .next t ∧
       bytesOfWords t.readLog.reverse s.par.n = s.vBuf) ∧
    (let events := rdbuf s.par .eBuf (s.par.n + 2)
     ∃ t, runSteps events.length { s with agenda := events } = .next t ∧
       bytesOfWords t.readLog.reverse (s.par.n + 2) = s.eBuf)

/-- After a digest write or a successful CFG the encoding is stale (70_reset_and_hazards.md R216, R217): the three
commands that need it report NO_ENCODING and E_BUF's bytes stay. -/
def Obligations.StaleEncodingIsRefused : Prop :=
  (∀ (s t : State) (m : Nat) (val : Word), s.busy = false → m < (s.par.n + 3) / 4 →
    afterWrite s (0x400 + 4 * m) val t → t.evalid = false ∧ t.eBuf = s.eBuf) ∧
  (∀ (s t : State) (w : Nat), exec (.cfg w) s = .next t →
    t.eBuf = s.eBuf ∧ t.evalid = (if w = 1 ∨ w = 2 ∨ w = 4 ∨ w = 8 then false else s.evalid)) ∧
  (∀ (s : State) (i : Instr), i = .walkSign ∨ i = .walkVerify ∨ i = .coefE → s.cfgd = true → s.evalid = false →
    (isWalk i = true → s.chainI.toNat < s.cfgP) →
    exec i s = .next { s with err := 0x05, busy := false, done := true, phase := .idle })

/-! ## Reset -/

/-- The reset event, in any state, busy or not (70_reset_and_hazards.md R210, R211). The unspecified values are free. -/
def Obligations.ResetEventClearsTheBlock : Prop :=
  ∀ (s : State) (rest : List Event), s.agenda = .reset :: rest →
    ∃ t, step s = .next t ∧
      t.cmdLast = 0 ∧ t.busy = false ∧ t.done = false ∧ t.cfgd = false ∧ t.evalid = false ∧ t.overrun = false ∧
      t.err = 0 ∧ t.statusWord = 0 ∧ t.result = 0 ∧ t.hcount = 0 ∧ t.leafQ = 0 ∧ t.chainI = 0 ∧
      (∀ target ∈ [Target.paramW, .paramU, .paramV, .paramLs, .paramP], t.readTarget target = 0) ∧
      t.readTarget .paramN = BitVec.ofNat 32 s.par.n ∧ t.readTarget .paramIlen = BitVec.ofNat 32 s.par.iLen ∧
      t.par = s.par ∧ t.phase = .idle ∧ t.lengthsOk ∧ t.agenda = rest ∧ sequencerStep t = .next t

/-- The state after the first reset of the reference block (R210). N = 32, I_LEN = 16 are the reference values (R2,
R4); the model's own fields and BASE are its choice (log 1, 3, 4). -/
def Obligations.ResetStateIsAsSpecified : Prop :=
  State.reset.cmdLast = 0 ∧ State.reset.statusWord = 0 ∧ State.reset.result = 0 ∧ State.reset.hcount = 0 ∧
  State.reset.leafQ = 0 ∧ State.reset.chainI = 0 ∧ State.reset.phase = .idle ∧ State.reset.lengthsOk ∧
  State.reset.readTarget .paramN = 32 ∧ State.reset.readTarget .paramIlen = 16 ∧
  State.reset.readTarget .paramW = 0 ∧ State.reset.readTarget .paramP = 0

/-! ## Rules of the whole machine -/

/-- The invariant holds after reset. -/
def Obligations.InvariantHoldsAtReset : Prop := State.reset.Inv

/-- Every step keeps the invariant: buffer lengths (10_state.md R22), BUSY and the phase (R44), the loaded parameters
(R38), the meaning of EVALID (R26, R30), the codes (60_exceptions.md R191), and the walk in progress (42_chain_walk.md
R142 to R145). -/
def Obligations.EveryStepKeepsTheInvariant : Prop :=
  ∀ s t : State, s.Inv → step s = .next t → t.Inv

/-- "BUSY = 1 if and only if SEQ_PHASE ≠ IDLE": every step keeps it (R44), with no other premise. -/
def Obligations.BusyExactlyWhileNotIdle : Prop :=
  ∀ s t : State, (s.busy = true ↔ s.phase ≠ .idle) → step s = .next t → (t.busy = true ↔ t.phase ≠ .idle)

/-- CFGD (R29): set by a successful CFG and by nothing else, kept by a failed one, cleared only by reset; 0 after
reset. -/
def Obligations.CfgdIsClearedOnlyByReset : Prop :=
  (∀ s t : State, step s = .next t →
    (s.cfgd = true → t.cfgd = false → s.agenda.head? = some .reset) ∧
    (s.cfgd = false → t.cfgd = true →
      ∃ r w, sequencerNext s r ∧ s.phase = .issued ∧ decode s.cmdLast = .ok (.cfg w) ∧
        (w = 1 ∨ w = 2 ∨ w = 4 ∨ w = 8))) ∧
  (∀ (s t : State) (w : Nat), exec (.cfg w) s = .next t →
    t.cfgd = (if w = 1 ∨ w = 2 ∨ w = 4 ∨ w = 8 then true else s.cfgd)) ∧
  (∀ s : State, (resetEvent s).cfgd = false) ∧ State.reset.cfgd = false

/-- EVALID (R30): set by a successful ENCODE and by nothing else; cleared by a successful CFG, an accepted write to
QD_BUF, or reset, and by nothing else; 0 after reset. -/
def Obligations.EvalidIsSetOnlyByEncode : Prop :=
  (∀ s t : State, step s = .next t →
    (s.evalid = false → t.evalid = true →
      ∃ r, sequencerNext s r ∧ s.phase = .issued ∧ decode s.cmdLast = .ok .encode ∧ s.cfgd = true) ∧
    (s.evalid = true → t.evalid = false →
      s.agenda.head? = some .reset ∨
      (∃ r w, sequencerNext s r ∧ s.phase = .issued ∧ decode s.cmdLast = .ok (.cfg w) ∧
        (w = 1 ∨ w = 2 ∨ w = 4 ∨ w = 8)) ∨
      (s.busy = false ∧ ∃ m val, m < (s.par.n + 3) / 4 ∧
        s.agenda.head? = some (.write (s.par.base + (0x400 + 4 * m)) 32 val)))) ∧
  (∀ s t : State, s.cfgd = true → exec .encode s = .next t → t.evalid = true) ∧
  (∀ (s t : State) (w : Nat), w = 1 ∨ w = 2 ∨ w = 4 ∨ w = 8 → exec (.cfg w) s = .next t → t.evalid = false) ∧
  (∀ (s : State) (m : Nat) (val : Word), s.busy = false → m < (s.par.n + 3) / 4 →
    ∃ t, afterWrite s (0x400 + 4 * m) val t ∧ t.evalid = false) ∧
  (∀ s : State, (resetEvent s).evalid = false) ∧ State.reset.evalid = false

/-- OVERRUN (R31): set by any host write made while BUSY = 1 and by nothing else; sticky until reset. -/
def Obligations.OverrunIsStickyUntilReset : Prop :=
  (∀ (s : State) (off : Nat) (val : Word), s.busy = true → definedOffset s.par off →
    ∃ t, afterWrite s off val t ∧ t.overrun = true) ∧
  (∀ s : State, (resetEvent s).overrun = false) ∧
  ∀ s t : State, step s = .next t →
    (s.overrun = true → t.overrun = false → s.agenda.head? = some .reset) ∧
    (s.overrun = false → t.overrun = true →
      s.busy = true ∧ ∃ off val, definedOffset s.par off ∧ s.agenda.head? = some (.write (s.par.base + off) 32 val))

/-- HCOUNT (R34, 42_chain_walk.md R141): a step that is not a reset adds 1, modulo 2^32, when it is a walking step of
the sequencer, and leaves it alone otherwise; a reset clears it. -/
def Obligations.HcountCountsHashInvocations : Prop :=
  State.reset.hcount = 0 ∧ (∀ s : State, (resetEvent s).hcount = 0) ∧
  ∀ s t : State, step s = .next t → s.agenda.head? ≠ some .reset →
    (s.phase = .walking → (∃ r, sequencerNext s r) → t.hcount = s.hcount + 1) ∧
    (¬ (s.phase = .walking ∧ ∃ r, sequencerNext s r) → t.hcount = s.hcount)

/-- LEAF_Q, CHAIN_I, I_BUF and QD_BUF are written only by the host, while BUSY = 0, at their own offsets (R35, R36,
R39, R41). -/
def Obligations.OperandRegistersBelongToTheHost : Prop :=
  ∀ s t : State, step s = .next t → s.agenda.head? ≠ some .reset →
    let wrote := fun (lo hi : Nat) =>
      s.busy = false ∧ ∃ off val, lo ≤ off ∧ off < hi ∧ s.agenda.head? = some (.write (s.par.base + off) 32 val)
    (t.leafQ ≠ s.leafQ → wrote 0x010 0x014) ∧ (t.chainI ≠ s.chainI → wrote 0x014 0x018) ∧
    (t.iBuf ≠ s.iBuf → wrote 0x100 0x200) ∧ (t.qdBuf ≠ s.qdBuf → wrote 0x400 0x600)

/-- V_BUF changes only by a host write while BUSY = 0 or at the end of a walk; E_BUF only by ENCODE; RESULT only when
a command completes (R33, R40, R42). -/
def Obligations.ResultBuffersChangeOnlyByTheirCommands : Prop :=
  ∀ s t : State, step s = .next t → s.agenda.head? ≠ some .reset →
    (t.vBuf ≠ s.vBuf →
      (s.busy = false ∧ ∃ off val, 0x200 ≤ off ∧ off < 0x400 ∧ s.agenda.head? = some (.write (s.par.base + off) 32 val)) ∨
      (s.phase = .walking ∧ t.phase = .idle ∧ t.vBuf = t.seqTmp ∧ t.err = 0 ∧ t.done = true)) ∧
    (t.eBuf ≠ s.eBuf → s.phase = .issued ∧ decode s.cmdLast = .ok .encode ∧ t.evalid = true ∧ t.done = true) ∧
    (t.result ≠ s.result → s.phase ≠ .idle ∧ t.phase = .idle ∧ t.err = 0 ∧ t.done = true ∧ t.busy = false)

/-- The host cannot disturb a walk (20_memory.md R73, R78, R79): whatever admitted accesses it makes between the
sequencer's turns, as long as the walk is not over, the block is as if only the turns had been taken. -/
def Obligations.HostAccessesDoNotDisturbAWalk : Prop :=
  ∀ (s : State) (events : List Event), s.Inv → s.phase = .walking →
    (∀ e ∈ events, e = .sequencer ∨ e.isAdmittedAccess s.par = true) →
    events.count .sequencer < s.seqLeft.toNat →
    ∃ t t', runSteps events.length { s with agenda := events } = .next t ∧
      runSteps (events.count .sequencer) { s with agenda := [] } = .next t' ∧ t.blockView = t'.blockView ∧
      t.phase = .walking

/-! ## The host's operations (outside the block, 45_host_sequences.md; log 14, log 15) -/

/-- Signing then verifying, as functions of the host over the spec's walk, which no step calls: the model's form of the
operations (log 14). Every signature of a randomizer of the right length verifies under the public key of the private
key it was made with. The same of the programs run on the block is RoundTripOnTheBlock. -/
def Obligations.SignatureVerifies : Prop :=
  ∀ (n w : Nat) (seed ident : Bytes) (q : Word) (c message : Bytes), 1 ≤ n → n ≤ 257 →
    w = 1 ∨ w = 2 ∨ w = 4 ∨ w = 8 → c.length = n →
    let h : HostParams := ⟨hashBytes n, n, w⟩
    let xs := privateKey h seed ident q
    ∃ sig, sign h message xs ident q c = .ok sig ∧ verify h message sig ident q (publicKey h ident q xs) = true

/-- Public-key derivation on the block (R172, R173): under any schedule of the sequencer the run is never stuck and ends
only with K, the p chains walked to their tops; HCOUNT has grown by p·M, the host has made one hash, no write was lost.
Under a fair schedule (log 15) it does end. -/
def Obligations.PublicKeyProgramDerivesTheKey : Prop :=
  ∀ (turns : Nat → Nat) (patience w : Nat) (b : Bench) (xs : List Bytes) (ident : Bytes) (q : Word),
    b.block.ready w → xs.length = deriveP b.block.par.n w → (∀ x ∈ xs, x.length = b.block.par.n) →
    ident.length = b.block.par.iLen →
    let r := (publicKeyProgram b.block.par.n xs ident q).run turns patience b
    let post := fun (key : Bytes) (b' : Bench) =>
      key = b.block.hash (publicDigestInput ident q
        (xs.mapIdx fun i x => walk b.block.hash ident q (BitVec.ofNat 16 i) x 0 (2 ^ w - 1))) ∧
      b'.block.hcount = b.block.hcount + BitVec.ofNat 32 (deriveP b.block.par.n w * (2 ^ w - 1)) ∧
      b'.hashes = b.hashes + 1 ∧ b'.block.ready w ∧ b'.block.overrun = b.block.overrun
    r.endsOnlyIn post ∧ (fairSchedule turns patience → r.finishesIn post)

/-- Signing on the block (R174 to R176): a randomizer of the wrong length fails before any access or hash. Otherwise the
run ends only with the signature whose element i is x_i walked coef(E, i) steps, E the encoding of Q; E_BUF then holds
E, the diagnostic `sum` is the checksum of Q, HCOUNT has grown by the sum of the c_i, and the host has made one hash.
Under a fair schedule (log 15) it does end. -/
def Obligations.SignProgramSigns : Prop :=
  ∀ (turns : Nat → Nat) (patience w : Nat) (b : Bench) (message : Bytes) (xs : List Bytes) (ident : Bytes) (q : Word)
    (c : Bytes),
    let n := b.block.par.n
    let r := (signProgram n message xs ident q c).run turns patience b
    (c.length ≠ n → r = .finished (.error .invalidRandomizerLength) b) ∧
    (c.length = n → b.block.ready w → xs.length = deriveP n w → (∀ x ∈ xs, x.length = n) →
      ident.length = b.block.par.iLen →
      let digest := b.block.hash (messageDigestInput ident q c message)
      let e := encodeDigest w (deriveU n w) (deriveLs n w) digest
      let post := fun (result : Except SignError Signed) (b' : Bench) =>
        result = .ok ⟨⟨c, xs.mapIdx fun i x => walk b.block.hash ident q (BitVec.ofNat 16 i) x 0 (coef w e i)⟩,
          (checksum w (deriveU n w) (deriveLs n w) digest).setWidth 32⟩ ∧
        b'.block.qdBuf = digest ∧ b'.block.eBuf = e ∧ b'.block.evalid = true ∧
        b'.block.hcount = b.block.hcount + BitVec.ofNat 32 (signCost w e (deriveP n w)) ∧
        b'.hashes = b.hashes + 1 ∧ b'.block.ready w ∧ b'.block.overrun = b.block.overrun
      r.endsOnlyIn post ∧ (fairSchedule turns patience → r.finishesIn post))

/-- Verification on the block (R178 to R180): a malformed signature is false before any access or hash. A well-formed
one ends only with the comparison of K with the digest of the tops, element i walked the remaining 2^w − 1 − c_i steps
from counter c_i; HCOUNT has grown by the sum of those, and the host has made two hashes. From every idle state,
configured or not and for whatever w, the run is never stuck, ends under a fair schedule (log 15), and is true only if
the last command of the block reported no error and the block is configured. On each chain an error of WALK.VERIFY ends
the run with false, whatever would come next. -/
def Obligations.VerifyProgramVerifies : Prop :=
  ∀ (turns : Nat → Nat) (patience w : Nat) (b : Bench) (message : Bytes) (sig : Signature) (ident : Bytes) (q : Word)
    (key : Bytes), w = 1 ∨ w = 2 ∨ w = 4 ∨ w = 8 →
    let n := b.block.par.n
    let r := (verifyProgram n w message sig ident q key).run turns patience b
    let wellFormed := sig.c.length = n ∧ sig.y.length = deriveP n w ∧ ∀ y ∈ sig.y, y.length = n
    (¬ wellFormed → r = .finished false b) ∧
    (wellFormed → b.block.ready w → ident.length = b.block.par.iLen →
      let e := encodeDigest w (deriveU n w) (deriveLs n w) (b.block.hash (messageDigestInput ident q sig.c message))
      let post := fun (verdict : Bool) (b' : Bench) =>
        (verdict = true ↔ b.block.hash (publicDigestInput ident q (sig.y.mapIdx fun i y =>
          walk b.block.hash ident q (BitVec.ofNat 16 i) y (coef w e i) (2 ^ w - 1 - coef w e i))) = key) ∧
        b'.block.hcount = b.block.hcount + BitVec.ofNat 32 (verifyCost w e (deriveP n w)) ∧
        b'.hashes = b.hashes + 2 ∧ b'.block.err = 0 ∧ b'.block.ready w ∧ b'.block.overrun = b.block.overrun
      r.endsOnlyIn post ∧ (fairSchedule turns patience → r.finishesIn post)) ∧
    (wellFormed → b.block.Inv → b.block.phase = .idle → ident.length = b.block.par.iLen →
      let post := fun (verdict : Bool) (b' : Bench) => verdict = true → b'.block.err = 0 ∧ b.block.cfgd = true
      r.endsOnlyIn post ∧ (fairSchedule turns patience → r.finishesIn post)) ∧
    (∀ (i : Nat) (y : Bytes) (next : Bytes → HostProgram Bool), b.block.Inv → b.block.phase = .idle → y.length = n →
      let code := completionCode .walkVerify { b.block with chainI := BitVec.ofNat 16 i }
      code ≠ 0 → ((verifyChain n i y next).run turns patience b).endsOnlyIn fun verdict b' =>
        verdict = false ∧ b'.block.err = code)

/-- The round trip on the block (R184) and its hash counts (R181), in the block (the growth of HCOUNT) and on the host:
from a configured idle block, under any fair schedule (log 15), key generation (p on the host, no access; 67 for N = 32,
w = 4), public-key derivation (p·M and 1; 1006 in all), signing (the sum of the c_i and 1) and verification (the sum of
the M − c_i and 2) one after another all end, and the verdict is true. The two sums make p·M. -/
def Obligations.RoundTripOnTheBlock : Prop :=
  (deriveP 32 4 = 67 ∧ deriveP 32 4 * (2 ^ 4 - 1) + 1 = 1006) ∧
  ∀ (turns : Nat → Nat) (patience w : Nat) (b : Bench) (seed ident : Bytes) (q : Word) (c message : Bytes),
    fairSchedule turns patience → b.block.ready w → c.length = b.block.par.n → ident.length = b.block.par.iLen →
    let n := b.block.par.n
    let p := deriveP n w
    let m := 2 ^ w - 1
    let digit := fun (i : Nat) => coef w (encodeDigest w (deriveU n w) (deriveLs n w)
      (b.block.hash (messageDigestInput ident q c message))) i
    let signed := ((List.range p).map digit).sum
    let verified := ((List.range p).map fun i => m - digit i).sum
    let costs := fun (b₀ b₁ : Bench) (inBlock onHost : Nat) =>
      b₁.block.hcount = b₀.block.hcount + BitVec.ofNat 32 inBlock ∧ b₁.hashes = b₀.hashes + onHost
    signed + verified = p * m ∧
    ((privateKeyProgram n w seed ident q).run turns patience b).finishesIn fun xs b₁ =>
      xs = privateKey (b.params w) seed ident q ∧ b₁ = { b with hashes := b.hashes + p } ∧
      ((publicKeyProgram n xs ident q).run turns patience b₁).finishesIn fun key b₂ => costs b₁ b₂ (p * m) 1 ∧
        ((signProgram n message xs ident q c).run turns patience b₂).finishesIn fun result b₃ => costs b₂ b₃ signed 1 ∧
          ∃ sig sum, result = .ok ⟨sig, sum⟩ ∧
            ((verifyProgram n w message sig ident q key).run turns patience b₃).finishesIn fun verdict b₄ =>
              costs b₃ b₄ verified 2 ∧ verdict = true
end

