-- ==== Sys2Proof/Laws/Bits.lean ====
section
/-! SUPPORT. Words and their bytes: the command word and the buffer word as four bytes side by side. -/

set_option autoImplicit false

namespace Sys2Proof

/-- The assembler's word (30_encoding.md R94) is its four fields side by side (R81). -/
theorem commandWord_eq_append {op a b : Nat} (ho : op < 256) (ha : a < 256) (hb : b < 256) :
    commandWord op a b = 0#8 ++ BitVec.ofNat 8 b ++ BitVec.ofNat 8 a ++ BitVec.ofNat 8 op := by
  have e : ∀ x < 256, BitVec.ofNat 32 x = (BitVec.ofNat 8 x).setWidth 32 := fun x hx => by
    apply BitVec.eq_of_toNat_eq
    simp only [BitVec.toNat_ofNat, BitVec.toNat_setWidth]
    omega
  simp only [commandWord, e op ho, e a ha, e b hb]
  generalize BitVec.ofNat 8 op = o, BitVec.ofNat 8 a = x, BitVec.ofNat 8 b = y
  apply BitVec.eq_of_getLsbD_eq
  intro i hi
  simp only [BitVec.getLsbD_or, BitVec.getLsbD_shiftLeft, BitVec.getLsbD_setWidth, BitVec.getLsbD_append]
  interval_cases i <;> simp

theorem fieldOp_append (r b a o : Byte) : fieldOp (r ++ b ++ a ++ o) = o := by
  apply BitVec.eq_of_getLsbD_eq
  intro i hi
  simp only [fieldOp, BitVec.getLsbD_extractLsb', BitVec.getLsbD_append]
  interval_cases i <;> simp

theorem fieldA_append (r b a o : Byte) : fieldA (r ++ b ++ a ++ o) = a := by
  apply BitVec.eq_of_getLsbD_eq
  intro i hi
  simp only [fieldA, BitVec.getLsbD_extractLsb', BitVec.getLsbD_append]
  interval_cases i <;> simp

theorem fieldB_append (r b a o : Byte) : fieldB (r ++ b ++ a ++ o) = b := by
  apply BitVec.eq_of_getLsbD_eq
  intro i hi
  simp only [fieldB, BitVec.getLsbD_extractLsb', BitVec.getLsbD_append]
  interval_cases i <;> simp

theorem fieldRsv_append (r b a o : Byte) : fieldRsv (r ++ b ++ a ++ o) = r := by
  apply BitVec.eq_of_getLsbD_eq
  intro i hi
  simp only [fieldRsv, BitVec.getLsbD_extractLsb', BitVec.getLsbD_append]
  interval_cases i <;> simp

/-- A word is its four fields side by side (R81). -/
theorem append_fields (x : Word) : (fieldRsv x ++ fieldB x ++ fieldA x ++ fieldOp x : Word) = x := by
  apply BitVec.eq_of_getLsbD_eq
  intro i hi
  simp only [fieldOp, fieldA, fieldB, fieldRsv, BitVec.getLsbD_extractLsb', BitVec.getLsbD_append]
  interval_cases i <;> simp

/-- A word matches a row exactly when its four fields do. -/
theorem append_and_beq (r b a o m1 m2 m3 m4 p1 p2 p3 p4 : Byte) :
    ((r ++ b ++ a ++ o) &&& (m1 ++ m2 ++ m3 ++ m4 : BitVec 32) == (p1 ++ p2 ++ p3 ++ p4 : BitVec 32)) =
      decide (r &&& m1 = p1 ∧ b &&& m2 = p2 ∧ a &&& m3 = p3 ∧ o &&& m4 = p4) := by
  have hand : ((r ++ b ++ a ++ o) &&& (m1 ++ m2 ++ m3 ++ m4 : BitVec 32)) =
      ((r &&& m1) ++ (b &&& m2) ++ (a &&& m3) ++ (o &&& m4) : BitVec 32) := by
    apply BitVec.eq_of_getLsbD_eq
    intro i hi
    simp only [BitVec.getLsbD_and, BitVec.getLsbD_append]
    split_ifs <;> rfl
  rw [hand, Bool.eq_iff_iff]
  simp only [beq_iff_eq, decide_eq_true_eq]
  refine ⟨fun h => ⟨?_, ?_, ?_, ?_⟩, fun ⟨h1, h2, h3, h4⟩ => by rw [h1, h2, h3, h4]⟩
  · simpa only [fieldRsv_append] using congrArg fieldRsv h
  · simpa only [fieldB_append] using congrArg fieldB h
  · simpa only [fieldA_append] using congrArg fieldA h
  · simpa only [fieldOp_append] using congrArg fieldOp h

/-- Decoding by fields (30_encoding.md R81 to R83): the opcode map as conditions on RSV, B, A and OP. -/
theorem decode_append (r b a o : Byte) :
    decode (r ++ b ++ a ++ o) =
      if r = 0 ∧ b = 0 ∧ o = 1 then .ok (.cfg a.toNat)
      else if r = 0 ∧ o = 2 then .ok (.walk a.toNat b.toNat)
      else if r = 0 ∧ b = 0 ∧ a = 0 ∧ o = 3 then .ok .walkFull
      else if r = 0 ∧ b = 0 ∧ a = 0 ∧ o = 4 then .ok .walkSign
      else if r = 0 ∧ b = 0 ∧ a = 0 ∧ o = 5 then .ok .walkVerify
      else if r = 0 ∧ b = 0 ∧ a = 0 ∧ o = 6 then .ok .coefQ
      else if r = 0 ∧ b = 0 ∧ a = 1 ∧ o = 6 then .ok .coefE
      else if r = 0 ∧ b = 0 ∧ a = 0 ∧ o = 7 then .ok .cksum
      else if r = 0 ∧ b = 0 ∧ a = 0 ∧ o = 8 then .ok .encode
      else .error .illegalCommand := by
  have all : ∀ x : Byte, x &&& 0xFF = x := by decide
  have none : ∀ x : Byte, x &&& 0x00 = 0 := by decide
  have cfg := append_and_beq r b a o 0xFF 0xFF 0x00 0xFF 0 0 0 1
  have walk := append_and_beq r b a o 0xFF 0x00 0x00 0xFF 0 0 0 2
  have exact (a' o' : Byte) := append_and_beq r b a o 0xFF 0xFF 0xFF 0xFF 0 0 a' o'
  simp only [all, none, true_and] at cfg walk exact
  change (_ &&& 0xFFFF00FF#32 == 0x00000001#32) = _ at cfg
  change (_ &&& 0xFF0000FF#32 == 0x00000002#32) = _ at walk
  have full := exact 0 3
  have sign := exact 0 4
  have verify := exact 0 5
  have coefQ := exact 0 6
  have coefE := exact 1 6
  have cksum := exact 0 7
  have enc := exact 0 8
  change (_ &&& 0xFFFFFFFF#32 == 0x00000003#32) = _ at full
  change (_ &&& 0xFFFFFFFF#32 == 0x00000004#32) = _ at sign
  change (_ &&& 0xFFFFFFFF#32 == 0x00000005#32) = _ at verify
  change (_ &&& 0xFFFFFFFF#32 == 0x00000006#32) = _ at coefQ
  change (_ &&& 0xFFFFFFFF#32 == 0x00000106#32) = _ at coefE
  change (_ &&& 0xFFFFFFFF#32 == 0x00000007#32) = _ at cksum
  change (_ &&& 0xFFFFFFFF#32 == 0x00000008#32) = _ at enc
  unfold decode opRows
  simp only [OpRow.matchesWord, List.find?]
  rw [cfg, walk, full, sign, verify, coefQ, coefE, cksum, enc, fieldA_append, fieldB_append]
  clear all none cfg walk exact full sign verify coefQ coefE cksum enc
  split_ifs
  case neg => simp only [*, decide_false]
  all_goals simp_all

namespace Machine

/-- Byte k of four bytes side by side is the k-th of them (20_memory.md R65). -/
theorem wordByte_append (a b c d : Byte) (k : Nat) (hk : k < 4) :
    wordByte (a ++ b ++ c ++ d) k = [a, b, c, d][k] := by
  apply BitVec.eq_of_getLsbD_eq
  intro i hi
  simp only [wordByte, BitVec.getLsbD_extractLsb', BitVec.getLsbD_append]
  interval_cases k <;> interval_cases i <;> simp

/-- Byte k of a buffer word is byte 4m + k of the buffer (R65). -/
theorem wordByte_bufferWord (b : Bytes) (m k : Nat) (hk : k < 4) :
    wordByte (bufferWord b m) k = byteAt b (4 * m + k) := by
  rw [bufferWord, wordByte_append _ _ _ _ k hk]
  interval_cases k <;> rfl

/-- A word is its four bytes side by side (R65). -/
theorem append_wordByte (x : Word) : (wordByte x 0 ++ wordByte x 1 ++ wordByte x 2 ++ wordByte x 3 : Word) = x := by
  apply BitVec.eq_of_getLsbD_eq
  intro i hi
  simp only [wordByte, BitVec.getLsbD_extractLsb', BitVec.getLsbD_append]
  interval_cases i <;> simp

/-- A written buffer word, byte by byte: the four bytes of the value where the buffer has them, else as before. -/
theorem byteAt_setBufferWord (b : Bytes) (m a : Nat) (val : Word) :
    byteAt (setBufferWord b m val) a =
      if a / 4 = m ∧ a < b.length then wordByte val (a % 4) else byteAt b a := by
  unfold byteAt setBufferWord
  simp only [List.getD_eq_getElem?_getD, List.getElem?_set, List.length_set]
  by_cases ha : a < b.length
  · by_cases hm : a / 4 = m
    · have hk : a % 4 = 0 ∨ a % 4 = 1 ∨ a % 4 = 2 ∨ a % 4 = 3 := by omega
      simp only [hm, ha, true_and, if_true]
      rcases hk with hk | hk | hk | hk <;> rw [hk]
      · rw [if_neg (by omega), if_neg (by omega), if_neg (by omega), if_pos (by omega), if_pos (by omega)]; rfl
      · rw [if_neg (by omega), if_neg (by omega), if_pos (by omega), if_pos (by omega)]; rfl
      · rw [if_neg (by omega), if_pos (by omega), if_pos (by omega)]; rfl
      · rw [if_pos (by omega), if_pos (by omega)]; rfl
    · rw [if_neg (by omega), if_neg (by omega), if_neg (by omega), if_neg (by omega), if_neg (by omega)]
  · rw [if_neg (by omega : ¬(a / 4 = m ∧ a < b.length))]
    simp [ha]
    split_ifs <;> first | rfl | omega

end Machine

end Sys2Proof
end

