-- ==== Sys2Proof/Laws/Functions.lean ====
section
/-! SUPPORT. The spec functions on plain data: lengths of byte strings, the range of a digit, a walk taken from its
last step, and what a write of a buffer word leaves. -/

set_option autoImplicit false

namespace Sys2Proof.Machine

open Sys2Proof

@[simp] theorem be32_length (x : Word) : (be32 x).length = 4 := rfl

@[simp] theorem be16_length (x : Half) : (be16 x).length = 2 := rfl

@[simp] theorem hashBytes_length (n : Nat) (x : Bytes) : (hashBytes n x).length = n := by
  simp [hashBytes]

@[simp] theorem stepInput_length (value ident : Bytes) (q : Word) (i : Half) (j : Byte) :
    (stepInput value ident q i j).length = ident.length + 7 + value.length := by
  simp only [stepInput, List.length_append, be32_length, be16_length, List.length_cons, List.length_nil]

@[simp] theorem encodeDigest_length (w u ls : Nat) (q : Bytes) : (encodeDigest w u ls q).length = q.length + 2 := by
  simp [encodeDigest]

@[simp] theorem setBufferWord_length (b : Bytes) (m : Nat) (val : Word) : (setBufferWord b m val).length = b.length := by
  simp [setBufferWord]

@[simp] theorem drawnBytes_length (draw : Nat) (site : FreeByteSite) (len : Nat) :
    (State.drawnBytes draw site len).length = len := by
  simp [State.drawnBytes]

/-- The four values CFG takes, as the cases of a proof. -/
theorem supportedW_cases {w : Nat} (h : supportedW w = true) : w = 1 ∨ w = 2 ∨ w = 4 ∨ w = 8 := by
  simpa [supportedW, or_assoc] using h

/-- A digit is at most 2^w − 1 (41_codec.md R120). -/
theorem coef_le_maxDigit (w : Nat) (s : Bytes) (i : Nat) : coef w s i ≤ maxDigit w := by
  unfold coef
  split
  · rename_i h8
    have := (byteAt s i).isLt
    simp only [h8, maxDigit]
    omega
  · exact Nat.and_le_right

/-- `2^w − 1` fits a byte for every supported w. -/
theorem maxDigit_le {w : Nat} (h : supportedW w = true) : maxDigit w ≤ 255 := by
  rcases supportedW_cases h with rfl | rfl | rfl | rfl <;> decide

theorem maxDigit_pos {w : Nat} (h : supportedW w = true) : 1 ≤ maxDigit w := by
  rcases supportedW_cases h with rfl | rfl | rfl | rfl <;> decide

/-- The last step of a walk of k + 1 steps is the chain step with counter j0 + k (42_chain_walk.md R142). -/
theorem walk_succ_last (hash : Bytes → Bytes) (ident : Bytes) (q : Word) (i : Half) (x : Bytes) (j0 k : Nat) :
    walk hash ident q i x j0 (k + 1) = chainStep hash (walk hash ident q i x j0 k) ident q i (j0 + k) := by
  induction k generalizing x j0 with
  | zero => rfl
  | succ k ih =>
    rw [walk, ih]
    simp only [walk]
    congr 1
    omega

/-- A walk from an N-byte value reaches an N-byte value when H gives N bytes. -/
theorem walk_length {hash : Bytes → Bytes} {n : Nat} (hh : ∀ y, (hash y).length = n) (ident : Bytes) (q : Word)
    (i : Half) (x : Bytes) (j0 k : Nat) (hx : x.length = n) : (walk hash ident q i x j0 k).length = n := by
  induction k generalizing x j0 with
  | zero => exact hx
  | succ k ih => exact ih _ _ (hh _)

end Sys2Proof.Machine
end

