-- ==== Sys2Proof/Laws/State.lean ====
section
/-! SUPPORT. What each shared update of the state leaves in each field. All are true by unfolding the update once, so
that later proofs need not unfold it again. -/

set_option autoImplicit false

namespace Sys2Proof.Machine

open Sys2Proof

@[simp] theorem code_ok : ErrCode.ok.code = 0x00 := rfl
@[simp] theorem code_illegalCommand : ErrCode.illegalCommand.code = 0x01 := rfl
@[simp] theorem code_unsupportedParameter : ErrCode.unsupportedParameter.code = 0x02 := rfl
@[simp] theorem code_notConfigured : ErrCode.notConfigured.code = 0x03 := rfl
@[simp] theorem code_range : ErrCode.range.code = 0x04 := rfl
@[simp] theorem code_noEncoding : ErrCode.noEncoding.code = 0x05 := rfl

@[simp] theorem issue_par (val : Word) (s : State) : (issue val s).par = s.par := rfl
@[simp] theorem issue_cmdLast (val : Word) (s : State) : (issue val s).cmdLast = val := rfl
@[simp] theorem issue_busy (val : Word) (s : State) : (issue val s).busy = true := rfl
@[simp] theorem issue_done (val : Word) (s : State) : (issue val s).done = false := rfl
@[simp] theorem issue_cfgd (val : Word) (s : State) : (issue val s).cfgd = s.cfgd := rfl
@[simp] theorem issue_evalid (val : Word) (s : State) : (issue val s).evalid = s.evalid := rfl
@[simp] theorem issue_overrun (val : Word) (s : State) : (issue val s).overrun = s.overrun := rfl
@[simp] theorem issue_err (val : Word) (s : State) : (issue val s).err = 0 := rfl
@[simp] theorem issue_result (val : Word) (s : State) : (issue val s).result = s.result := rfl
@[simp] theorem issue_hcount (val : Word) (s : State) : (issue val s).hcount = s.hcount := rfl
@[simp] theorem issue_leafQ (val : Word) (s : State) : (issue val s).leafQ = s.leafQ := rfl
@[simp] theorem issue_chainI (val : Word) (s : State) : (issue val s).chainI = s.chainI := rfl
@[simp] theorem issue_cfgW (val : Word) (s : State) : (issue val s).cfgW = s.cfgW := rfl
@[simp] theorem issue_cfgU (val : Word) (s : State) : (issue val s).cfgU = s.cfgU := rfl
@[simp] theorem issue_cfgV (val : Word) (s : State) : (issue val s).cfgV = s.cfgV := rfl
@[simp] theorem issue_cfgLs (val : Word) (s : State) : (issue val s).cfgLs = s.cfgLs := rfl
@[simp] theorem issue_cfgP (val : Word) (s : State) : (issue val s).cfgP = s.cfgP := rfl
@[simp] theorem issue_iBuf (val : Word) (s : State) : (issue val s).iBuf = s.iBuf := rfl
@[simp] theorem issue_vBuf (val : Word) (s : State) : (issue val s).vBuf = s.vBuf := rfl
@[simp] theorem issue_qdBuf (val : Word) (s : State) : (issue val s).qdBuf = s.qdBuf := rfl
@[simp] theorem issue_eBuf (val : Word) (s : State) : (issue val s).eBuf = s.eBuf := rfl
@[simp] theorem issue_phase (val : Word) (s : State) : (issue val s).phase = .issued := rfl
@[simp] theorem issue_seqJ0 (val : Word) (s : State) : (issue val s).seqJ0 = s.seqJ0 := rfl
@[simp] theorem issue_seqK (val : Word) (s : State) : (issue val s).seqK = s.seqK := rfl
@[simp] theorem issue_seqJ (val : Word) (s : State) : (issue val s).seqJ = s.seqJ := rfl
@[simp] theorem issue_seqLeft (val : Word) (s : State) : (issue val s).seqLeft = s.seqLeft := rfl
@[simp] theorem issue_seqTmp (val : Word) (s : State) : (issue val s).seqTmp = s.seqTmp := rfl
@[simp] theorem issue_draws (val : Word) (s : State) : (issue val s).draws = s.draws := rfl
@[simp] theorem issue_agenda (val : Word) (s : State) : (issue val s).agenda = s.agenda := rfl
@[simp] theorem issue_readLog (val : Word) (s : State) : (issue val s).readLog = s.readLog := rfl

@[simp] theorem complete_par (e : ErrCode) (s : State) : (complete e s).par = s.par := rfl
@[simp] theorem complete_cmdLast (e : ErrCode) (s : State) : (complete e s).cmdLast = s.cmdLast := rfl
@[simp] theorem complete_busy (e : ErrCode) (s : State) : (complete e s).busy = false := rfl
@[simp] theorem complete_done (e : ErrCode) (s : State) : (complete e s).done = true := rfl
@[simp] theorem complete_cfgd (e : ErrCode) (s : State) : (complete e s).cfgd = s.cfgd := rfl
@[simp] theorem complete_evalid (e : ErrCode) (s : State) : (complete e s).evalid = s.evalid := rfl
@[simp] theorem complete_overrun (e : ErrCode) (s : State) : (complete e s).overrun = s.overrun := rfl
@[simp] theorem complete_err (e : ErrCode) (s : State) : (complete e s).err = e.code := rfl
@[simp] theorem complete_result (e : ErrCode) (s : State) : (complete e s).result = s.result := rfl
@[simp] theorem complete_hcount (e : ErrCode) (s : State) : (complete e s).hcount = s.hcount := rfl
@[simp] theorem complete_leafQ (e : ErrCode) (s : State) : (complete e s).leafQ = s.leafQ := rfl
@[simp] theorem complete_chainI (e : ErrCode) (s : State) : (complete e s).chainI = s.chainI := rfl
@[simp] theorem complete_cfgW (e : ErrCode) (s : State) : (complete e s).cfgW = s.cfgW := rfl
@[simp] theorem complete_cfgU (e : ErrCode) (s : State) : (complete e s).cfgU = s.cfgU := rfl
@[simp] theorem complete_cfgV (e : ErrCode) (s : State) : (complete e s).cfgV = s.cfgV := rfl
@[simp] theorem complete_cfgLs (e : ErrCode) (s : State) : (complete e s).cfgLs = s.cfgLs := rfl
@[simp] theorem complete_cfgP (e : ErrCode) (s : State) : (complete e s).cfgP = s.cfgP := rfl
@[simp] theorem complete_iBuf (e : ErrCode) (s : State) : (complete e s).iBuf = s.iBuf := rfl
@[simp] theorem complete_vBuf (e : ErrCode) (s : State) : (complete e s).vBuf = s.vBuf := rfl
@[simp] theorem complete_qdBuf (e : ErrCode) (s : State) : (complete e s).qdBuf = s.qdBuf := rfl
@[simp] theorem complete_eBuf (e : ErrCode) (s : State) : (complete e s).eBuf = s.eBuf := rfl
@[simp] theorem complete_phase (e : ErrCode) (s : State) : (complete e s).phase = .idle := rfl
@[simp] theorem complete_seqJ0 (e : ErrCode) (s : State) : (complete e s).seqJ0 = s.seqJ0 := rfl
@[simp] theorem complete_seqK (e : ErrCode) (s : State) : (complete e s).seqK = s.seqK := rfl
@[simp] theorem complete_seqJ (e : ErrCode) (s : State) : (complete e s).seqJ = s.seqJ := rfl
@[simp] theorem complete_seqLeft (e : ErrCode) (s : State) : (complete e s).seqLeft = s.seqLeft := rfl
@[simp] theorem complete_seqTmp (e : ErrCode) (s : State) : (complete e s).seqTmp = s.seqTmp := rfl
@[simp] theorem complete_draws (e : ErrCode) (s : State) : (complete e s).draws = s.draws := rfl
@[simp] theorem complete_agenda (e : ErrCode) (s : State) : (complete e s).agenda = s.agenda := rfl
@[simp] theorem complete_readLog (e : ErrCode) (s : State) : (complete e s).readLog = s.readLog := rfl

@[simp] theorem deliver_par (val : Word) (s : State) : (deliver val s).par = s.par := rfl
@[simp] theorem deliver_cmdLast (val : Word) (s : State) : (deliver val s).cmdLast = s.cmdLast := rfl
@[simp] theorem deliver_busy (val : Word) (s : State) : (deliver val s).busy = s.busy := rfl
@[simp] theorem deliver_done (val : Word) (s : State) : (deliver val s).done = s.done := rfl
@[simp] theorem deliver_cfgd (val : Word) (s : State) : (deliver val s).cfgd = s.cfgd := rfl
@[simp] theorem deliver_evalid (val : Word) (s : State) : (deliver val s).evalid = s.evalid := rfl
@[simp] theorem deliver_overrun (val : Word) (s : State) : (deliver val s).overrun = s.overrun := rfl
@[simp] theorem deliver_err (val : Word) (s : State) : (deliver val s).err = s.err := rfl
@[simp] theorem deliver_result (val : Word) (s : State) : (deliver val s).result = s.result := rfl
@[simp] theorem deliver_hcount (val : Word) (s : State) : (deliver val s).hcount = s.hcount := rfl
@[simp] theorem deliver_leafQ (val : Word) (s : State) : (deliver val s).leafQ = s.leafQ := rfl
@[simp] theorem deliver_chainI (val : Word) (s : State) : (deliver val s).chainI = s.chainI := rfl
@[simp] theorem deliver_cfgW (val : Word) (s : State) : (deliver val s).cfgW = s.cfgW := rfl
@[simp] theorem deliver_cfgU (val : Word) (s : State) : (deliver val s).cfgU = s.cfgU := rfl
@[simp] theorem deliver_cfgV (val : Word) (s : State) : (deliver val s).cfgV = s.cfgV := rfl
@[simp] theorem deliver_cfgLs (val : Word) (s : State) : (deliver val s).cfgLs = s.cfgLs := rfl
@[simp] theorem deliver_cfgP (val : Word) (s : State) : (deliver val s).cfgP = s.cfgP := rfl
@[simp] theorem deliver_iBuf (val : Word) (s : State) : (deliver val s).iBuf = s.iBuf := rfl
@[simp] theorem deliver_vBuf (val : Word) (s : State) : (deliver val s).vBuf = s.vBuf := rfl
@[simp] theorem deliver_qdBuf (val : Word) (s : State) : (deliver val s).qdBuf = s.qdBuf := rfl
@[simp] theorem deliver_eBuf (val : Word) (s : State) : (deliver val s).eBuf = s.eBuf := rfl
@[simp] theorem deliver_phase (val : Word) (s : State) : (deliver val s).phase = s.phase := rfl
@[simp] theorem deliver_seqJ0 (val : Word) (s : State) : (deliver val s).seqJ0 = s.seqJ0 := rfl
@[simp] theorem deliver_seqK (val : Word) (s : State) : (deliver val s).seqK = s.seqK := rfl
@[simp] theorem deliver_seqJ (val : Word) (s : State) : (deliver val s).seqJ = s.seqJ := rfl
@[simp] theorem deliver_seqLeft (val : Word) (s : State) : (deliver val s).seqLeft = s.seqLeft := rfl
@[simp] theorem deliver_seqTmp (val : Word) (s : State) : (deliver val s).seqTmp = s.seqTmp := rfl
@[simp] theorem deliver_draws (val : Word) (s : State) : (deliver val s).draws = s.draws := rfl
@[simp] theorem deliver_agenda (val : Word) (s : State) : (deliver val s).agenda = s.agenda := rfl
@[simp] theorem deliver_readLog (val : Word) (s : State) : (deliver val s).readLog = val :: s.readLog := rfl

@[simp] theorem loadWalk_par (j0 k : Nat) (s : State) : (loadWalk j0 k s).par = s.par := rfl
@[simp] theorem loadWalk_cmdLast (j0 k : Nat) (s : State) : (loadWalk j0 k s).cmdLast = s.cmdLast := rfl
@[simp] theorem loadWalk_busy (j0 k : Nat) (s : State) : (loadWalk j0 k s).busy = s.busy := rfl
@[simp] theorem loadWalk_done (j0 k : Nat) (s : State) : (loadWalk j0 k s).done = s.done := rfl
@[simp] theorem loadWalk_cfgd (j0 k : Nat) (s : State) : (loadWalk j0 k s).cfgd = s.cfgd := rfl
@[simp] theorem loadWalk_evalid (j0 k : Nat) (s : State) : (loadWalk j0 k s).evalid = s.evalid := rfl
@[simp] theorem loadWalk_overrun (j0 k : Nat) (s : State) : (loadWalk j0 k s).overrun = s.overrun := rfl
@[simp] theorem loadWalk_err (j0 k : Nat) (s : State) : (loadWalk j0 k s).err = s.err := rfl
@[simp] theorem loadWalk_result (j0 k : Nat) (s : State) : (loadWalk j0 k s).result = s.result := rfl
@[simp] theorem loadWalk_hcount (j0 k : Nat) (s : State) : (loadWalk j0 k s).hcount = s.hcount := rfl
@[simp] theorem loadWalk_leafQ (j0 k : Nat) (s : State) : (loadWalk j0 k s).leafQ = s.leafQ := rfl
@[simp] theorem loadWalk_chainI (j0 k : Nat) (s : State) : (loadWalk j0 k s).chainI = s.chainI := rfl
@[simp] theorem loadWalk_cfgW (j0 k : Nat) (s : State) : (loadWalk j0 k s).cfgW = s.cfgW := rfl
@[simp] theorem loadWalk_cfgU (j0 k : Nat) (s : State) : (loadWalk j0 k s).cfgU = s.cfgU := rfl
@[simp] theorem loadWalk_cfgV (j0 k : Nat) (s : State) : (loadWalk j0 k s).cfgV = s.cfgV := rfl
@[simp] theorem loadWalk_cfgLs (j0 k : Nat) (s : State) : (loadWalk j0 k s).cfgLs = s.cfgLs := rfl
@[simp] theorem loadWalk_cfgP (j0 k : Nat) (s : State) : (loadWalk j0 k s).cfgP = s.cfgP := rfl
@[simp] theorem loadWalk_iBuf (j0 k : Nat) (s : State) : (loadWalk j0 k s).iBuf = s.iBuf := rfl
@[simp] theorem loadWalk_vBuf (j0 k : Nat) (s : State) : (loadWalk j0 k s).vBuf = s.vBuf := rfl
@[simp] theorem loadWalk_qdBuf (j0 k : Nat) (s : State) : (loadWalk j0 k s).qdBuf = s.qdBuf := rfl
@[simp] theorem loadWalk_eBuf (j0 k : Nat) (s : State) : (loadWalk j0 k s).eBuf = s.eBuf := rfl
@[simp] theorem loadWalk_phase (j0 k : Nat) (s : State) : (loadWalk j0 k s).phase = s.phase := rfl
@[simp] theorem loadWalk_seqJ0 (j0 k : Nat) (s : State) : (loadWalk j0 k s).seqJ0 = BitVec.ofNat 8 j0 := rfl
@[simp] theorem loadWalk_seqK (j0 k : Nat) (s : State) : (loadWalk j0 k s).seqK = BitVec.ofNat 8 k := rfl
@[simp] theorem loadWalk_seqJ (j0 k : Nat) (s : State) : (loadWalk j0 k s).seqJ = BitVec.ofNat 8 j0 := rfl
@[simp] theorem loadWalk_seqLeft (j0 k : Nat) (s : State) : (loadWalk j0 k s).seqLeft = BitVec.ofNat 8 k := rfl
@[simp] theorem loadWalk_seqTmp (j0 k : Nat) (s : State) : (loadWalk j0 k s).seqTmp = s.vBuf := rfl
@[simp] theorem loadWalk_draws (j0 k : Nat) (s : State) : (loadWalk j0 k s).draws = s.draws := rfl
@[simp] theorem loadWalk_agenda (j0 k : Nat) (s : State) : (loadWalk j0 k s).agenda = s.agenda := rfl
@[simp] theorem loadWalk_readLog (j0 k : Nat) (s : State) : (loadWalk j0 k s).readLog = s.readLog := rfl

@[simp] theorem hashOnce_par (s : State) : (hashOnce s).par = s.par := rfl
@[simp] theorem hashOnce_cmdLast (s : State) : (hashOnce s).cmdLast = s.cmdLast := rfl
@[simp] theorem hashOnce_busy (s : State) : (hashOnce s).busy = s.busy := rfl
@[simp] theorem hashOnce_done (s : State) : (hashOnce s).done = s.done := rfl
@[simp] theorem hashOnce_cfgd (s : State) : (hashOnce s).cfgd = s.cfgd := rfl
@[simp] theorem hashOnce_evalid (s : State) : (hashOnce s).evalid = s.evalid := rfl
@[simp] theorem hashOnce_overrun (s : State) : (hashOnce s).overrun = s.overrun := rfl
@[simp] theorem hashOnce_err (s : State) : (hashOnce s).err = s.err := rfl
@[simp] theorem hashOnce_result (s : State) : (hashOnce s).result = s.result := rfl
@[simp] theorem hashOnce_hcount (s : State) : (hashOnce s).hcount = s.hcount + 1 := rfl
@[simp] theorem hashOnce_leafQ (s : State) : (hashOnce s).leafQ = s.leafQ := rfl
@[simp] theorem hashOnce_chainI (s : State) : (hashOnce s).chainI = s.chainI := rfl
@[simp] theorem hashOnce_cfgW (s : State) : (hashOnce s).cfgW = s.cfgW := rfl
@[simp] theorem hashOnce_cfgU (s : State) : (hashOnce s).cfgU = s.cfgU := rfl
@[simp] theorem hashOnce_cfgV (s : State) : (hashOnce s).cfgV = s.cfgV := rfl
@[simp] theorem hashOnce_cfgLs (s : State) : (hashOnce s).cfgLs = s.cfgLs := rfl
@[simp] theorem hashOnce_cfgP (s : State) : (hashOnce s).cfgP = s.cfgP := rfl
@[simp] theorem hashOnce_iBuf (s : State) : (hashOnce s).iBuf = s.iBuf := rfl
@[simp] theorem hashOnce_vBuf (s : State) : (hashOnce s).vBuf = s.vBuf := rfl
@[simp] theorem hashOnce_qdBuf (s : State) : (hashOnce s).qdBuf = s.qdBuf := rfl
@[simp] theorem hashOnce_eBuf (s : State) : (hashOnce s).eBuf = s.eBuf := rfl
@[simp] theorem hashOnce_phase (s : State) : (hashOnce s).phase = s.phase := rfl
@[simp] theorem hashOnce_seqJ0 (s : State) : (hashOnce s).seqJ0 = s.seqJ0 := rfl
@[simp] theorem hashOnce_seqK (s : State) : (hashOnce s).seqK = s.seqK := rfl
@[simp] theorem hashOnce_seqJ (s : State) : (hashOnce s).seqJ = s.seqJ + 1 := rfl
@[simp] theorem hashOnce_seqLeft (s : State) : (hashOnce s).seqLeft = s.seqLeft - 1 := rfl
@[simp] theorem hashOnce_seqTmp (s : State) : (hashOnce s).seqTmp = chainStep s.hash s.seqTmp s.iBuf s.leafQ s.chainI s.seqJ.toNat := rfl
@[simp] theorem hashOnce_draws (s : State) : (hashOnce s).draws = s.draws := rfl
@[simp] theorem hashOnce_agenda (s : State) : (hashOnce s).agenda = s.agenda := rfl
@[simp] theorem hashOnce_readLog (s : State) : (hashOnce s).readLog = s.readLog := rfl

@[simp] theorem finishWalk_par (s : State) : (finishWalk s).par = s.par := rfl
@[simp] theorem finishWalk_cmdLast (s : State) : (finishWalk s).cmdLast = s.cmdLast := rfl
@[simp] theorem finishWalk_busy (s : State) : (finishWalk s).busy = false := rfl
@[simp] theorem finishWalk_done (s : State) : (finishWalk s).done = true := rfl
@[simp] theorem finishWalk_cfgd (s : State) : (finishWalk s).cfgd = s.cfgd := rfl
@[simp] theorem finishWalk_evalid (s : State) : (finishWalk s).evalid = s.evalid := rfl
@[simp] theorem finishWalk_overrun (s : State) : (finishWalk s).overrun = s.overrun := rfl
@[simp] theorem finishWalk_err (s : State) : (finishWalk s).err = 0 := rfl
@[simp] theorem finishWalk_result (s : State) : (finishWalk s).result = walkResult s.seqJ0 s.seqK := rfl
@[simp] theorem finishWalk_hcount (s : State) : (finishWalk s).hcount = s.hcount := rfl
@[simp] theorem finishWalk_leafQ (s : State) : (finishWalk s).leafQ = s.leafQ := rfl
@[simp] theorem finishWalk_chainI (s : State) : (finishWalk s).chainI = s.chainI := rfl
@[simp] theorem finishWalk_cfgW (s : State) : (finishWalk s).cfgW = s.cfgW := rfl
@[simp] theorem finishWalk_cfgU (s : State) : (finishWalk s).cfgU = s.cfgU := rfl
@[simp] theorem finishWalk_cfgV (s : State) : (finishWalk s).cfgV = s.cfgV := rfl
@[simp] theorem finishWalk_cfgLs (s : State) : (finishWalk s).cfgLs = s.cfgLs := rfl
@[simp] theorem finishWalk_cfgP (s : State) : (finishWalk s).cfgP = s.cfgP := rfl
@[simp] theorem finishWalk_iBuf (s : State) : (finishWalk s).iBuf = s.iBuf := rfl
@[simp] theorem finishWalk_vBuf (s : State) : (finishWalk s).vBuf = s.seqTmp := rfl
@[simp] theorem finishWalk_qdBuf (s : State) : (finishWalk s).qdBuf = s.qdBuf := rfl
@[simp] theorem finishWalk_eBuf (s : State) : (finishWalk s).eBuf = s.eBuf := rfl
@[simp] theorem finishWalk_phase (s : State) : (finishWalk s).phase = .idle := rfl
@[simp] theorem finishWalk_seqJ0 (s : State) : (finishWalk s).seqJ0 = s.seqJ0 := rfl
@[simp] theorem finishWalk_seqK (s : State) : (finishWalk s).seqK = s.seqK := rfl
@[simp] theorem finishWalk_seqJ (s : State) : (finishWalk s).seqJ = s.seqJ := rfl
@[simp] theorem finishWalk_seqLeft (s : State) : (finishWalk s).seqLeft = s.seqLeft := rfl
@[simp] theorem finishWalk_seqTmp (s : State) : (finishWalk s).seqTmp = s.seqTmp := rfl
@[simp] theorem finishWalk_draws (s : State) : (finishWalk s).draws = s.draws := rfl
@[simp] theorem finishWalk_agenda (s : State) : (finishWalk s).agenda = s.agenda := rfl
@[simp] theorem finishWalk_readLog (s : State) : (finishWalk s).readLog = s.readLog := rfl

end Sys2Proof.Machine
end

