-- ==== Sys2Proof/Laws/Step.lean ====
section
/-! SUPPORT. Once for each shared operation, everything it can do: the checks, the dispatch, the bus, the step. Proofs
cite these instead of unfolding the operations. -/

set_option autoImplicit false

namespace Sys2Proof.Machine

open Sys2Proof

/-- The effect of each command once its checks have passed (10_state.md R47). -/
def effectOf (i : Instr) (s : State) : State :=
  match i with
  | .cfg w => cfgEffect w s
  | .walk j0 k => startWalk j0 k s
  | .walkFull => startWalk 0 (maxDigit s.cfgW) s
  | .walkSign => startWalk 0 s.chainDigit s
  | .walkVerify => startWalk s.chainDigit (maxDigit s.cfgW - s.chainDigit) s
  | .coefQ => coefEffect s.qdBuf s
  | .coefE => coefEffect s.eBuf s
  | .cksum => cksumEffect s
  | .encode => encodeEffect s

/-- What a dispatch of a command does, whole: its effect when the checks pass, else the completion with the code. -/
theorem exec_eq_checked (i : Instr) (s : State) : exec i s = .next (checked i (effectOf i) s) := by
  cases i <;> rfl

theorem checked_of_ok {i : Instr} {s : State} (effect : State → State) (h : check i s = .ok) :
    checked i effect s = effect s := by
  simp [checked, h]

theorem checked_of_not_ok {i : Instr} {s : State} (effect : State → State) (h : check i s ≠ .ok) :
    checked i effect s = complete (check i s) s := by
  simp [checked, h]

/-- When the checks of a command pass (60_exceptions.md R192). -/
theorem check_eq_ok_iff (i : Instr) (s : State) :
    check i s = .ok ↔
      (needsConfig i = true → s.cfgd = true) ∧ unsupportedConfig i = false ∧
      (isWalk i = true → s.chainI.toNat < s.cfgP) ∧ (needsEncoding i = true → s.evalid = true) ∧
      operandRangeError i s = false := by
  unfold check
  cases needsConfig i <;> cases s.cfgd <;> cases unsupportedConfig i <;> cases isWalk i <;>
    cases needsEncoding i <;> cases s.evalid <;> cases operandRangeError i s <;>
    by_cases hp : s.cfgP ≤ s.chainI.toNat <;> simp [hp] <;> omega

/-- Completion codes are those of 60_exceptions.md R191. -/
theorem code_toNat_le (e : ErrCode) : e.code.toNat ≤ 5 := by cases e <;> decide

theorem step_of_agenda_nil {s : State} (h : s.agenda = []) : step s = sequencerStep s := by simp [step, h]

theorem step_of_agenda_cons {s : State} {e : Event} {rest : List Event} (h : s.agenda = e :: rest) :
    step s = handle e { s with agenda := rest } := by simp [step, h]

@[simp] theorem runSteps_zero (s : State) : runSteps 0 s = .next s := rfl

/-- A run of k + 1 steps is its first step, then k steps from where that leads. -/
theorem runSteps_eq (k : Nat) (s : State) :
    runSteps (k + 1) s =
      match step s with
      | .next t => runSteps k t
      | .fault f => .fault f
      | .refused r => .refused r := by
  have first : ∀ (machine : Host.Core) (s : machine.State),
      (∀ t, machine.step s = .next t → machine.run (k + 1) s = machine.run k t) ∧
      (∀ f, machine.step s = .fault f → machine.run (k + 1) s = .fault f) ∧
      (∀ r, machine.step s = .refused r → machine.run (k + 1) s = .refused r) :=
    fun _ _ => ⟨fun _ h => by simp [Host.Core.run, h], fun _ h => by simp [Host.Core.run, h],
      fun _ h => by simp [Host.Core.run, h]⟩
  obtain ⟨next, fault, refused⟩ := first Sys2Proof.core s
  cases h : step s with
  | next t => exact next t h
  | fault f => exact fault f h
  | refused r => exact refused r h

theorem runSteps_succ {s t : State} {k : Nat} (h : step s = .next t) : runSteps (k + 1) s = runSteps k t := by
  rw [runSteps_eq, h]

theorem runSteps_one (s : State) : runSteps 1 s = step s := by
  rw [runSteps_eq]
  cases step s <;> rfl

/-- A run of j + k steps is the run of k steps from where j steps lead. -/
theorem runSteps_add {s t : State} {j : Nat} (k : Nat) (h : runSteps j s = .next t) :
    runSteps (j + k) s = runSteps k t := by
  induction j generalizing s with
  | zero =>
    cases h
    rw [Nat.zero_add]
  | succ j ih =>
    rw [runSteps_eq] at h
    cases hs : step s with
    | next u =>
      rw [hs] at h
      rw [Nat.succ_add, Nat.succ_eq_add_one, runSteps_succ hs, ih h]
    | fault f =>
      rw [hs] at h
      cases h
    | refused r =>
      rw [hs] at h
      cases h

/-- What one step can do: a sequencer turn, an admitted access, or a reset; `r` is the state with the event used up. -/
theorem step_cases {s t : State} (h : step s = .next t) :
    (s.agenda = [] ∧ sequencerStep s = .next t) ∨
    ∃ e rest, s.agenda = e :: rest ∧
      ((e = .sequencer ∧ sequencerStep { s with agenda := rest } = .next t) ∨
       (∃ addr width target, e = .read addr width ∧ accessTarget s.par addr width = .ok target ∧
          t = hostRead target { s with agenda := rest }) ∨
       (∃ addr width val target, e = .write addr width val ∧ accessTarget s.par addr width = .ok target ∧
          t = hostWrite target val { s with agenda := rest }) ∨
       (e = .reset ∧ t = resetEvent { s with agenda := rest })) := by
  cases ha : s.agenda with
  | nil => exact .inl ⟨rfl, by rw [← step_of_agenda_nil ha]; exact h⟩
  | cons e rest =>
    rw [step_of_agenda_cons ha] at h
    refine .inr ⟨e, rest, rfl, ?_⟩
    cases e with
    | sequencer => exact .inl ⟨rfl, h⟩
    | reset => exact .inr (.inr (.inr ⟨rfl, by simpa [handle] using h.symm⟩))
    | read addr width =>
      simp only [handle, busRead] at h
      split at h
      · cases h
      · rename_i target ht
        exact .inr (.inl ⟨addr, width, target, rfl, ht, by simpa using h.symm⟩)
    | write addr width val =>
      simp only [handle, busWrite] at h
      split at h
      · cases h
      · rename_i target ht
        exact .inr (.inr (.inl ⟨addr, width, val, target, rfl, ht, by simpa using h.symm⟩))

/-- What a sequencer turn can do: nothing while idle, an illegal word's completion, a dispatch, or a walking step. -/
theorem sequencerStep_cases {s t : State} (h : sequencerStep s = .next t) :
    (s.phase = .idle ∧ t = s) ∨
    (s.phase = .issued ∧ decode s.cmdLast = .error .illegalCommand ∧ t = complete .illegalCommand s) ∨
    (∃ i, s.phase = .issued ∧ decode s.cmdLast = .ok i ∧ t = checked i (effectOf i) s) ∨
    (s.phase = .walking ∧ t = walkStep s) := by
  unfold sequencerStep at h
  split at h
  · rename_i hp
    exact .inl ⟨hp, by simpa using h.symm⟩
  · rename_i hp
    unfold dispatch fetch at h
    split at h
    · rename_i i hd
      rw [exec_eq_checked] at h
      exact .inr (.inr (.inl ⟨i, hp, hd, by simpa using h.symm⟩))
    · rename_i hd
      exact .inr (.inl ⟨hp, hd, by simpa using h.symm⟩)
  · rename_i hp
    exact .inr (.inr (.inr ⟨hp, by simpa using h.symm⟩))

/-- What a walking step leaves (42_chain_walk.md R145). -/
theorem walkStep_cases (s : State) :
    (s.seqLeft - 1 = 0 ∧ walkStep s = finishWalk (hashOnce s)) ∨ (s.seqLeft - 1 ≠ 0 ∧ walkStep s = hashOnce s) := by
  unfold walkStep
  split
  · rename_i h
    exact .inl ⟨h, rfl⟩
  · rename_i h
    exact .inr ⟨h, rfl⟩

/-- What a host write can do: set OVERRUN while BUSY = 1, else the write of 20_memory.md R61. -/
theorem hostWrite_cases (t : Target) (val : Word) (s : State) :
    (s.busy = true ∧ hostWrite t val s = { s with overrun := true }) ∨
    (s.busy = false ∧ hostWrite t val s = writeTarget t val s) := by
  unfold hostWrite
  cases s.busy <;> simp

/-- What a host read can change: the host's log, and the number of draws while BUSY = 1. -/
theorem hostRead_cases (t : Target) (s : State) :
    ∃ val draws, hostRead t s = { s with readLog := val :: s.readLog, draws := draws } ∧
      (s.busy = false → val = s.readTarget t ∧ draws = s.draws) ∧
      (s.busy = true → val = s.readBusy (Config.freeWord s.draws) t ∧ draws = s.draws + 1) := by
  unfold hostRead deliver
  cases h : s.busy
  · exact ⟨_, s.draws, rfl, by simp, by simp⟩
  · exact ⟨_, _, rfl, by simp, by simp [State.readBusy]⟩

end Sys2Proof.Machine
end

