-- ==== Sys2Proof/Laws/HostProgram.lean ====
section
/-! SUPPORT. Runs of host programs: one equation for each statement of a program, and what an access does to a block
between two commands, where the sequencer's turns change nothing. -/

set_option autoImplicit false

namespace Sys2Proof.Machine

open Sys2Proof

section Statements

variable {α : Type} (turns : Nat → Nat) (patience : Nat) (b : Bench)

@[simp] theorem run_done (result : α) : (HostProgram.done result).run turns patience b = .finished result b := rfl

@[simp] theorem run_write (target : Target) (val : Word) (next : HostProgram α) :
    (HostProgram.write target val next).run turns patience b =
      b.access turns (wr b.block.par target val) (next.run turns patience) := rfl

@[simp] theorem run_read (target : Target) (next : Word → HostProgram α) :
    (HostProgram.read target next).run turns patience b =
      b.access turns (rd b.block.par target) fun b' => (next b'.word).run turns patience b' := rfl

@[simp] theorem run_poll (next : HostProgram α) :
    (HostProgram.poll next).run turns patience b = b.pollStatus turns (next.run turns patience) patience := rfl

@[simp] theorem run_hash (input : Bytes) (next : Bytes → HostProgram α) :
    (HostProgram.hash input next).run turns patience b =
      (next (b.block.hash input)).run turns patience { b with hashes := b.hashes + 1 } := rfl

@[simp] theorem storeBuffer_nil (target : Nat → Target) (next : HostProgram α) :
    storeBuffer target [] next = next := rfl

@[simp] theorem loadWords_zero (target : Nat → Target) (m : Nat) (next : List Word → HostProgram α) :
    loadWords target m 0 next = next [] := rfl

@[simp] theorem loadWords_succ (target : Nat → Target) (m count : Nat) (next : List Word → HostProgram α) :
    loadWords target m (count + 1) next =
      .read (target m) fun x => loadWords target (m + 1) count fun xs => next (x :: xs) := rfl

@[simp] theorem forChains_nil (body : Nat → Bytes → (Bytes → HostProgram α) → HostProgram α) (first : Nat)
    (next : List Bytes → HostProgram α) : forChains body first [] next = next [] := rfl

@[simp] theorem forChains_cons (body : Nat → Bytes → (Bytes → HostProgram α) → HostProgram α) (first : Nat) (x : Bytes)
    (xs : List Bytes) (next : List Bytes → HostProgram α) :
    forChains body first (x :: xs) next =
      body first x fun y => forChains body (first + 1) xs fun ys => next (y :: ys) := rfl

end Statements

section Ends

variable {α : Type} (post : α → Bench → Prop)

@[simp] theorem endsOnlyIn_finished (result : α) (b : Bench) :
    (HostRun.finished result b).endsOnlyIn post ↔ post result b := Iff.rfl

@[simp] theorem endsOnlyIn_polling (b : Bench) : (HostRun.polling b).endsOnlyIn post ↔ True := Iff.rfl

@[simp] theorem endsOnlyIn_stuck (f : Fault) : (HostRun.stuck f).endsOnlyIn post ↔ False := Iff.rfl

@[simp] theorem endsOnlyIn_refused (r : Refusal) : (HostRun.refused r).endsOnlyIn post ↔ False := Iff.rfl

@[simp] theorem finishesIn_finished (result : α) (b : Bench) :
    (HostRun.finished result b).finishesIn post ↔ post result b :=
  ⟨fun ⟨_, _, heq, hpost⟩ => by cases heq; exact hpost, fun h => ⟨result, b, rfl, h⟩⟩

/-- A run that finishes so ends only so: a run has one end. -/
theorem endsOnlyIn_of_finishesIn {post : α → Bench → Prop} {r : HostRun α} (h : r.finishesIn post) :
    r.endsOnlyIn post := by
  obtain ⟨_, _, rfl, hpost⟩ := h
  exact hpost

end Ends

/-- A poll goes on while BUSY = 1: bit 0 of what it reads is exact (20_memory.md R79). -/
@[simp] theorem busyStatusWord_busy (overrun : Bool) (drawn : Word) :
    (busyStatusWord overrun drawn).getLsbD 0 = true := by
  simp [busyStatusWord, packStatus, flagAt]

/-- A poll ends at BUSY = 0 (10_state.md R26). -/
@[simp] theorem statusWord_busy (s : State) : s.statusWord.getLsbD 0 = s.busy := by
  cases h : s.busy <;> simp [State.statusWord, packStatus, flagAt, h]

/-- Of the turns given to an idle sequencer nothing is left but the events after them. -/
theorem runSteps_idle_turns (s : State) (k : Nat) (rest : List Event) (idle : s.phase = .idle) :
    runSteps (k + rest.length) { s with agenda := List.replicate k .sequencer ++ rest } =
      runSteps rest.length { s with agenda := rest } := by
  induction k with
  | zero => simp
  | succ k ih =>
    have turn : step { s with agenda := List.replicate (k + 1) .sequencer ++ rest } =
        .next { s with agenda := List.replicate k .sequencer ++ rest } := by
      rw [step_of_agenda_cons (e := .sequencer) (rest := List.replicate k .sequencer ++ rest) rfl]
      simp [handle, sequencerStep, idle]
    rw [Nat.succ_add, Nat.succ_eq_add_one, runSteps_succ turn, ih]

/-- An access to a block between two commands is the event itself: the turns before it change nothing. -/
theorem access_of_idle {α : Type} (turns : Nat → Nat) (e : Event) (b : Bench) (next : Bench → HostRun α)
    (idle : b.block.phase = .idle) :
    b.access turns e next =
      match handle e { b.block with agenda := [] } with
      | .next t => next { b with block := t, accesses := b.accesses + 1 }
      | .fault f => .stuck f
      | .refused r => .refused r := by
  have skip := runSteps_idle_turns b.block (turns b.accesses) [e] idle
  simp only [Bench.access, List.length_append, List.length_replicate]
  rw [skip, show [e].length = 1 from rfl, runSteps_one,
    step_of_agenda_cons (s := { b.block with agenda := [e] }) rfl] <;> rfl

theorem offset_mod_four (target : Target) : target.offset % 4 = 0 := by
  cases target <;> simp [Target.offset, Nat.add_mod]

/-- Where the register map has a target at its own offset, a 32-bit access there is admitted (20_memory.md R62, R63). -/
theorem accessTarget_of_targetAt {par : Params} {target : Target} (h : targetAt par target.offset = some target) :
    accessTarget par (par.base + target.offset) 32 = .ok target := by
  have aligned : (par.base + target.offset) % 4 = 0 := by
    have base := par.baseAligned
    have offset := offset_mod_four target
    omega
  simp [accessTarget, aligned, h]

/-- A write to an idle block, at a target of the window: the write of 20_memory.md R61, and one more access. -/
theorem access_write_of_idle {α : Type} (turns : Nat → Nat) (target : Target) (val : Word) (b : Bench)
    (next : Bench → HostRun α) (idle : b.block.phase = .idle) (free : b.block.busy = false)
    (window : accessTarget b.block.par (b.block.par.base + target.offset) 32 = .ok target) :
    b.access turns (wr b.block.par target val) next =
      next ⟨writeTarget target val { b.block with agenda := [] }, b.accesses + 1, b.hashes⟩ := by
  simp [access_of_idle turns _ b next idle, wr, handle, busWrite, window, hostWrite, free]

/-- What a read returns does not depend on what is to come. -/
@[simp] theorem readTarget_agenda (s : State) (agenda : List Event) (target : Target) :
    State.readTarget { s with agenda := agenda } target = s.readTarget target := by cases target <;> rfl

/-- A read of an idle block: the word of 20_memory.md R60 is the word the program gets, and nothing else changes. -/
theorem access_read_of_idle {α : Type} (turns : Nat → Nat) (target : Target) (b : Bench) (next : Bench → HostRun α)
    (idle : b.block.phase = .idle) (free : b.block.busy = false)
    (window : accessTarget b.block.par (b.block.par.base + target.offset) 32 = .ok target) :
    b.access turns (rd b.block.par target) next =
      next ⟨deliver (b.block.readTarget target) { b.block with agenda := [] }, b.accesses + 1, b.hashes⟩ := by
  have given : handle (rd b.block.par target) { b.block with agenda := [] } =
      .next (deliver (b.block.readTarget target) { b.block with agenda := [] }) := by
    have shown := readTarget_agenda b.block [] target
    simp only [rd, handle, busRead, window, hostRead, shown]
    rw [if_neg (by simp [free])]
  rw [access_of_idle turns _ b next idle, given]

end Sys2Proof.Machine
end

