-- ==== Sys2Proof/Laws/PerInstr.lean ====
section
/-! SUPPORT. Statements about every command as syntax, one lemma a constructor. -/

set_option autoImplicit false

namespace Sys2Proof

theorem fieldRsv_commandWord {op a b : Nat} (ho : op < 256) (ha : a < 256) (hb : b < 256) :
    fieldRsv (commandWord op a b) = 0 := by
  rw [commandWord_eq_append ho ha hb]
  exact fieldRsv_append _ _ _ _

namespace Laws.ReservedZero

/-- The word of a well-formed command has RSV = 0: "RSV must be 0 in every command" (30_encoding.md R82). -/
def Statement (i : Instr) : Prop := i.wf = true → fieldRsv (encode i) = 0

theorem cfg (w : Nat) : Statement (.cfg w) := fun h =>
  fieldRsv_commandWord (by decide) (by simpa [Instr.wf] using h) (by decide)

theorem walk (j0 k : Nat) : Statement (.walk j0 k) := fun h =>
  fieldRsv_commandWord (by decide) (by simp [Instr.wf] at h; exact h.1) (by simp [Instr.wf] at h; exact h.2)

theorem walkFull : Statement .walkFull := fun _ => by decide

theorem walkSign : Statement .walkSign := fun _ => by decide

theorem walkVerify : Statement .walkVerify := fun _ => by decide

theorem coefQ : Statement .coefQ := fun _ => by decide

theorem coefE : Statement .coefE := fun _ => by decide

theorem cksum : Statement .cksum := fun _ => by decide

theorem encode : Statement .encode := fun _ => by decide

end Laws.ReservedZero

end Sys2Proof
end

