-- ==== Sys2Proof/Tests/Slice0.lean ====
section
/-! SUPPORT. Tests of single operations against the spec's worked examples and vectors (95_test_vectors.md, the rule
named at each), and for every statement a concrete state that meets its hypotheses. -/

set_option autoImplicit false

namespace Sys2Proof.Tests

open Sys2Proof Sys2Proof.Machine

/-! ## Helpers -/

/-- len bytes first, first + 1, … -/
def ramp (len first : Nat) : Bytes := (List.range len).map fun k => BitVec.ofNat 8 (first + k)

/-- The next state of an outcome, if it has one. -/
def after (o : Host.Outcome State Fault Refusal) : Option State :=
  match o with
  | .next s => some s
  | .fault _ => none
  | .refused _ => none

/-- A small block: N = 2, I_LEN = 3, BASE = 0x1800. -/
def smallPar : Params := ⟨2, 3, 0x1800, by decide, by decide, by decide⟩

/-- A configured idle block (w = 4) with the digest AB CD encoded; chain 1, whose digit is 0x0B. The encoding by hand:
sum = 5 + 4 + 3 + 2 = 14, ls = 16 − 2·4 = 8, so the checksum is 0x0E00. -/
def small : State where
  par := smallPar
  cmdLast := 0x00000008
  busy := false
  done := true
  cfgd := true
  evalid := true
  overrun := false
  err := 0
  result := 0x00000E00
  hcount := 0xFFFFFFFF
  leafQ := 0x01020304
  chainI := 1
  cfgW := 4
  cfgU := 4
  cfgV := 2
  cfgLs := 8
  cfgP := 6
  iBuf := [1, 2, 3]
  vBuf := [0x20, 0x21]
  qdBuf := [0xAB, 0xCD]
  eBuf := [0xAB, 0xCD, 0x0E, 0x00]
  phase := .idle
  seqJ0 := 0
  seqK := 0
  seqJ := 0
  seqLeft := 0
  seqTmp := [0, 0]
  draws := 1
  agenda := []
  readLog := []

/-- `small` right after the issue of a command. -/
def issued (i : Instr) : State := issue (encode i) small

/-- `small` in the middle of WALK.FULL, at its dispatch: 15 steps to go. -/
def walkingState : State :=
  { issued .walkFull with phase := .walking, seqK := 15, seqLeft := 15, seqTmp := [0x20, 0x21] }

/-- The last step of a walk of one step. -/
def lastStep : State := { issued (.walk 0 1) with phase := .walking, seqK := 1, seqLeft := 1, seqTmp := [0x20, 0x21] }

/-- The reference block (N = 32) configured for w, as `CFG w` leaves it by the table of R105. -/
def reference (w u v ls p : Nat) (digest : Bytes) (i : Half) : State :=
  { small with
    par := Params.reference, cfgW := w, cfgU := u, cfgV := v, cfgLs := ls, cfgP := p, chainI := i, evalid := false
    result := 0, hcount := 0, iBuf := ramp 16 0, vBuf := ramp 32 0x20, qdBuf := digest, eBuf := List.replicate 34 0
    seqTmp := List.replicate 32 0 }

/-- The reference block at w = 4 with Q = 80 81 … 9F encoded (41_codec.md R129). -/
def encoded4 (i : Half) : State :=
  { reference 4 64 3 4 67 (ramp 32 0x80) i with evalid := true, eBuf := ramp 32 0x80 ++ [0x1C, 0x00], result := 0x1C00 }

/-! ## WellFormed refuses operands outside 0..255 (30_encoding.md R94) -/

theorem test_wf_refuses_cfg : (Instr.cfg 256).wf = false := by decide
theorem test_wf_refuses_walk_start : (Instr.walk 256 0).wf = false := by decide
theorem test_wf_refuses_walk_count : (Instr.walk 0 256).wf = false := by decide
theorem test_wf_admits_unsupported_w : (Instr.cfg 255).wf = true := by decide

/-! ## Decoding, words written out from R81 and R83 -/

theorem test_decode_cfg : decode 0b00000000000000000000010000000001#32 = .ok (.cfg 4) := by decide
theorem test_decode_walk : decode 0b00000000000010100000010100000010#32 = .ok (.walk 5 10) := by decide
theorem test_decode_walkFull : decode 0b00000000000000000000000000000011#32 = .ok .walkFull := by decide
theorem test_decode_walkSign : decode 0b00000000000000000000000000000100#32 = .ok .walkSign := by decide
theorem test_decode_walkVerify : decode 0b00000000000000000000000000000101#32 = .ok .walkVerify := by decide
theorem test_decode_coefQ : decode 0b00000000000000000000000000000110#32 = .ok .coefQ := by decide
theorem test_decode_coefE : decode 0b00000000000000000000000100000110#32 = .ok .coefE := by decide
theorem test_decode_cksum : decode 0b00000000000000000000000000000111#32 = .ok .cksum := by decide
theorem test_decode_encode : decode 0b00000000000000000000000000001000#32 = .ok .encode := by decide

/-- Illegal words of 95_test_vectors.md section 2.5. -/
theorem test_decode_illegal :
    [0x00000000#32, 0x01000003#32, 0x00000206#32, 0x00000009#32, 0x00010003#32, 0x00010001#32].map decode =
      List.replicate 6 (.error .illegalCommand) := by decide

theorem test_decodeTableWord : decodeTableWord 32 0x00000106 = some .coefE := by decide

/-- The table of 40_control.md R105: (u, v, ls, p, 2^w − 1) for N = 32 and w = 1, 2, 4, 8. -/
theorem test_parameter_table :
    [1, 2, 4, 8].map (fun w => (deriveU 32 w, deriveV 32 w, deriveLs 32 w, deriveP 32 w, maxDigit w)) =
      [(256, 9, 7, 265, 1), (128, 5, 6, 133, 3), (64, 3, 4, 67, 15), (32, 2, 0, 34, 255)] := by decide

/-! ## The commands, one dispatch each -/

/-- 95_test_vectors.md section 2.1: `CFG 8` after `CFG 4` and ENCODE. -/
theorem test_cfg_8 :
    (after (exec (.cfg 8) (encoded4 0))).map (fun t => (t.cfgW, t.cfgU, t.cfgV, t.cfgLs, t.cfgP, t.statusWord)) =
      some (8, 32, 2, 0, 34, 0x00000006) := by decide

/-- The same section: `CFG 16` fails and keeps configuration and EVALID. -/
theorem test_cfg_16 :
    (after (exec (.cfg 16) (encoded4 0))).map (fun t => (t.cfgW, t.cfgP, t.statusWord)) =
      some (4, 67, 0x0000020E) := by decide

/-- Section 2.4: `WALK 15, 0` makes no hash. -/
theorem test_walk_15_0 :
    (after (exec (.walk 15 0) (encoded4 5))).map (fun t => (t.result, t.vBuf, t.hcount, t.busy)) =
      some (0x00000F00, ramp 32 0x20, 0, false) := by decide

/-- Section 2.4: `WALK 14, 2` is RANGE. -/
theorem test_walk_14_2 :
    (after (exec (.walk 14 2) (encoded4 5))).map (fun t => t.statusWord) = some 0x0000040E := by decide

/-- Section 2.4: WALK.FULL at w = 4 takes 15 steps from counter 0. -/
theorem test_walkFull :
    (after (exec .walkFull (encoded4 5))).map (fun t => (t.phase, t.seqJ, t.seqLeft)) =
      some (.walking, 0, 15) := by decide

/-- Section 2.5, step 5: WALK.FULL with CHAIN_I = 67 is RANGE. -/
theorem test_walkFull_range :
    (after (exec .walkFull (encoded4 67))).map (fun t => t.err) = some 0x04 := by decide

/-- Section 2.4, chain 0: c = 8. -/
theorem test_walkSign :
    (after (exec .walkSign (encoded4 0))).map (fun t => (t.seqJ0, t.seqK)) = some (0, 8) := by decide

/-- Section 2.4, chain 66: c = 0, V_BUF unchanged, RESULT 0. -/
theorem test_walkSign_zero :
    (after (exec .walkSign (encoded4 66))).map (fun t => (t.vBuf, t.result, t.done)) =
      some (ramp 32 0x20, 0x00000000, true) := by decide

/-- Section 2.4, chain 64: c = 1, so 14 steps from counter 1. -/
theorem test_walkVerify :
    (after (exec .walkVerify (encoded4 64))).map (fun t => (t.seqJ0, t.seqK)) = some (1, 14) := by decide

/-- Section 2.5 Priority: CHAIN_I = 67 and EVALID = 0 report RANGE. -/
theorem test_walkVerify_priority :
    (after (exec .walkVerify { encoded4 67 with evalid := false })).map (fun t => t.err) = some 0x04 := by decide

/-- Section 1.3: the digits of AB CD. -/
theorem test_coefQ :
    [0#16, 1#16, 2#16, 3#16].map (fun i =>
      (after (exec .coefQ (reference 4 64 3 4 67 ([0xAB, 0xCD] ++ List.replicate 30 0) i))).map (fun t => t.result)) =
      [some 0x0A, some 0x0B, some 0x0C, some 0x0D] := by decide

/-- Section 2.2: COEF.Q with CHAIN_I = 64 at w = 4 is RANGE. -/
theorem test_coefQ_range : (after (exec .coefQ (encoded4 64))).map (fun t => t.err) = some 0x04 := by decide

/-- Section 2.3: digits 64, 65, 66 of the encoding are 1, 12, 0, and digit 67 is padding. -/
theorem test_coefE :
    [64#16, 65#16, 66#16, 67#16].map (fun i => (after (exec .coefE (encoded4 i))).map (fun t => t.result)) =
      [some 1, some 12, some 0, some 0] := by decide

/-- Section 2.2: COEF.E with CHAIN_I = 68 at w = 4 is RANGE. -/
theorem test_coefE_range : (after (exec .coefE (encoded4 68))).map (fun t => t.err) = some 0x04 := by decide

/-- Section 2.3: the checksums of 80 81 … 9F for w = 4 and w = 8. -/
theorem test_cksum :
    (after (exec .cksum (reference 4 64 3 4 67 (ramp 32 0x80) 0))).map (fun t => t.result) = some 0x00001C00 ∧
    (after (exec .cksum (reference 8 32 2 0 34 (ramp 32 0x80) 0))).map (fun t => t.result) = some 0x00000DF0 := by
  decide

/-- Section 2.3: the checksum of 32 zero bytes for w = 1. -/
theorem test_cksum_zero :
    (after (exec .cksum (reference 1 256 9 7 265 (List.replicate 32 0) 0))).map (fun t => t.result) =
      some 0x00008000 := by decide +kernel

/-- Section 2.3: ENCODE of 80 81 … 9F at w = 4; word 8 of E_BUF is 0x1C000000. -/
theorem test_encode :
    (after (exec .encode (reference 4 64 3 4 67 (ramp 32 0x80) 0))).map
      (fun t => (t.readTarget (.eBuf 0), t.readTarget (.eBuf 8), t.statusWord)) =
      some (0x80818283, 0x1C000000, 0x0000000E) := by decide

/-! ## Steps, from reset and on the bus -/

/-- Section 2.5, step 1: WALK.FULL as the first command is NOT_CONFIGURED. -/
theorem test_step_not_configured :
    (after (step (State.reset.withFetchWord 32 0x00000003))).map (fun t => t.statusWord) = some 0x00000302 := by decide

/-- Section 2.1: CFG 4 as the first command. -/
theorem test_step_cfg :
    (after (step (State.reset.withFetchWord 32 0x00000401))).map (fun t => (t.statusWord, t.readTarget .paramP)) =
      some (0x00000006, 67) := by decide

/-- Section 2.5: an illegal word with CFGD = 0 reports ILLEGAL_COMMAND. -/
theorem test_step_illegal :
    (after (step (State.reset.withFetchWord 32 0x01000003))).map (fun t => t.statusWord) = some 0x00000102 := by decide

/-- Section 2.6: a write of 0x12345678 to CHAIN_I stores 0x5678. -/
theorem test_write_chainI :
    (after (step { small with agenda := [.write 0x1814 32 0x12345678] })).map (fun t => t.chainI) =
      some 0x5678 := by decide

/-- 20_memory.md R65: byte 0 of V_BUF is the most significant byte of the word; R66: N = 2, so two bytes are padding. -/
theorem test_write_vBuf :
    (after (step { small with agenda := [.write 0x1A00 32 0x11223344] })).map
      (fun t => (t.vBuf, t.readTarget (.vBuf 0))) = some ([0x11, 0x22], 0x11220000) := by decide

/-- Section 3, P3: a write that lands while BUSY = 1 is discarded and sets OVERRUN. -/
theorem test_write_busy :
    (after (step { walkingState with agenda := [.write 0x1814 32 9] })).map (fun t => (t.chainI, t.overrun)) =
      some (1, true) := by decide

/-- Section 2.6: offsets that are not in the map, and widths other than 32, have no step. -/
theorem test_stuck_accesses :
    [0x018, 0x03C, 0x110, 0x220, 0x624, 0x800].map (fun off => accessTarget Params.reference off 32) =
      List.replicate 6 (.error .accessUndefined) ∧
    accessTarget Params.reference 0x000 16 = .error .accessWidth ∧ accessTarget Params.reference 0x002 32 = .error .accessMisaligned := by
  decide

/-- Section 2.4: with HCOUNT = 0xFFFFFFFF a one-step walk leaves HCOUNT = 0. -/
theorem test_hcount_wraps :
    (after (step lastStep)).map (fun t => (t.hcount, t.result, t.phase)) = some (0, 0x00000001, .idle) := by decide

/-! ## Host programs, one or two statements each -/

/-- What a run gives its program's end, if it ends. -/
def result {α : Type} (r : HostRun α) : Option α :=
  match r with
  | .finished a _ => some a
  | .polling _ => none
  | .stuck _ => none
  | .refused _ => none

/-- Section 3, P3: `exec WALK.FULL ; rd STATUS` right after reset. -/
theorem test_program_exec :
    result ((execCommand .walkFull (.read .status .done)).run (fun _ => 1) 1 ⟨State.reset, 0, 0⟩) =
      some 0x00000302 := by decide

/-- 45_host_sequences.md R178, R179: on a block that is not configured the ERR of WALK.VERIFY makes the verdict false. -/
theorem test_verifyChain_error :
    result ((verifyChain 2 0 [1, 2] fun _ => .done true).run (fun _ => 1) 1
      ⟨{ small with cfgd := false, evalid := false }, 0, 0⟩) = some false := by decide

/-! ## The chain step with H = SHA-256

The vectors V1 and V2 of 95_test_vectors.md section 2.4 are chain steps with H = SHA-256 (93 G1: from general
knowledge, not in the spec). A step input of the reference block is 55 bytes (R85), so one 64-byte block is enough. The
constants are computed: the first 32 fractional bits of the cube and square roots of the first primes. -/

/-- The first 64 primes. -/
def primes : List Nat := (List.range 312).filter fun p => decide (2 ≤ p) && (List.range p).all fun d => d < 2 || p % d != 0

/-- The largest r below 2^36 with r^k ≤ v, found from its top bit down. -/
def rootFloor (k v : Nat) : Nat :=
  (List.range 36).foldr (fun b r => if (r + 2 ^ b) ^ k ≤ v then r + 2 ^ b else r) 0

/-- The first 32 fractional bits of the k-th root of p. -/
def rootBits (k p : Nat) : Nat := rootFloor k (p * 2 ^ (32 * k)) % 2 ^ 32

/-- The exclusive or of the word's rotations to the right by each of the distances. -/
def turned (distances : List Nat) (word : Nat) : Nat :=
  (distances.map fun n => (word * (2 ^ 32 + 1)) >>> n % 2 ^ 32).foldr (· ^^^ ·) 0

/-- `more` further words of the message schedule; the words so far are in order. -/
def extend : Nat → List Nat → List Nat
  | 0, ws => ws
  | more + 1, ws =>
    let back := fun k => ws.getD (ws.length - k) 0
    let small := turned [7, 18] (back 15) ^^^ back 15 / 2 ^ 3
    let large := turned [17, 19] (back 2) ^^^ back 2 / 2 ^ 10
    extend more (ws ++ [(back 16 + small + back 7 + large) % 2 ^ 32])

/-- One round on the last four values of each of the two running words, newest first. -/
def mix (upper lower : List Nat) : List Nat → List Nat × List Nat
  | [] => (upper, lower)
  | input :: inputs =>
    let u := fun k => upper.getD k 0
    let l := fun k => lower.getD k 0
    let chosen := l 2 ^^^ (l 0 &&& (l 1 ^^^ l 2))
    let common := (u 0 &&& (u 1 ||| u 2)) ||| (u 1 &&& u 2)
    let fresh := l 3 + turned [6, 11, 25] (l 0) + chosen + input
    mix ((fresh + turned [2, 13, 22] (u 0) + common) % 2 ^ 32 :: upper.take 3) ((u 3 + fresh) % 2 ^ 32 :: lower.take 3)
      inputs

/-- SHA-256 of a message of at most 55 bytes. -/
def sha256Short (msg : Bytes) : Bytes :=
  let padded := msg ++ [0x80] ++ List.replicate (61 - msg.length) 0 ++ be16 (BitVec.ofNat 16 (8 * msg.length))
  let words := extend 48 ((List.range 16).map fun m => (bufferWord padded m).toNat)
  let start := (primes.take 8).map (rootBits 2)
  let final := mix (start.take 4) (start.drop 4) (List.zipWith (· + ·) (primes.map (rootBits 3)) words)
  (List.zipWith (· + ·) start (final.1 ++ final.2)).flatMap fun x => be32 (BitVec.ofNat 32 x)

/-- A digest as the spec prints it, byte 0 leftmost (00_scope.md R7). -/
def hex (value len : Nat) : Bytes := (List.range len).map fun k => BitVec.ofNat 8 (value >>> (8 * (len - 1 - k)))

/-- V1 and V2: one and two steps from V0 = 20 21 … 3F with I = 00 … 0F, q = 0x01020304, i = 5. -/
theorem test_walk_sha256 :
    walk sha256Short (ramp 16 0) 0x01020304 5 (ramp 32 0x20) 0 1 =
      hex 0xc87fa2bf94a4d4374bdcae9413ebef4d0ec17ef4eb07deabb6cd635b666eade4 32 ∧
    walk sha256Short (ramp 16 0) 0x01020304 5 (ramp 32 0x20) 0 2 =
      hex 0xea11ab9d4034d224e6cc6f9009d39496b56ee8ff5928ba73f8891a8cac48efe8 32 := by decide +kernel

/-! ## Witnesses: states and operands that meet the hypotheses of the statements -/

theorem small_inv : small.Inv := ⟨by decide, by decide, by decide, by decide, by decide, by decide⟩

theorem issued_walk_inv : (issued (.walk 0 1)).Inv :=
  ⟨by decide, by decide, by decide, by decide, by decide, by decide⟩

theorem issued_sign_inv : (issued .walkSign).Inv :=
  ⟨by decide, by decide, by decide, by decide, by decide, by decide⟩

theorem walking_inv : walkingState.Inv :=
  ⟨by decide, by decide, by decide, by decide, by decide, fun _ => by decide⟩

theorem witness_DecodeReadsBackEncode : (Instr.walk 255 255).wf = true ∧ (Instr.cfg 0).wf = true := by decide

theorem witness_DecodedWordIsAssembledWord :
    decode 0x00FFFF02#32 = .ok (.walk 255 255) ∧ decode 0x0000FF01#32 = .ok (.cfg 255) := by decide

/-- Both ways the sequencer's turn comes next: an empty agenda, and the turn at its head. -/
theorem witness_SequencerTurnRunsDecodedCommand :
    sequencerNext (issued (.cfg 8)) (issued (.cfg 8)) ∧
    sequencerNext { issued (.cfg 8) with agenda := [.sequencer, .reset] } { issued (.cfg 8) with agenda := [.reset] } ∧
    (issued (.cfg 8)).phase = .issued ∧ decode (issued (.cfg 8)).cmdLast = .ok (.cfg 8) :=
  ⟨.inl ⟨rfl, rfl⟩, .inr ⟨[.reset], rfl, rfl⟩, by decide, by decide⟩

theorem witness_IllegalWordCompletesWithItsCode :
    sequencerNext (issue 0x01000003 small) (issue 0x01000003 small) ∧ (issue 0x01000003 small).phase = .issued ∧
    decode (issue 0x01000003 small).cmdLast = .error .illegalCommand ∧
    ∃ t, exec .coefQ small = .next t ∧ small.err = 0 :=
  ⟨.inl ⟨rfl, rfl⟩, by decide, by decide, _, rfl, rfl⟩

/-- A failing and a passing command for each code of 60_exceptions.md R191 that a command reports. -/
theorem witness_FirstFailingCheckIsReportedAlone :
    completionCode .coefQ small = 0x00 ∧ completionCode (.cfg 3) small = 0x02 ∧
    completionCode .cksum { small with cfgd := false } = 0x03 ∧ completionCode (.walk 15 1) small = 0x04 ∧
    completionCode (.walk 15 0) small = 0x00 ∧ completionCode .walkFull { small with chainI := 6 } = 0x04 ∧
    completionCode .walkFull { small with chainI := 5 } = 0x00 ∧
    completionCode .walkSign { small with evalid := false } = 0x05 ∧
    completionCode .coefQ { small with chainI := 4 } = 0x04 ∧ completionCode .coefQ { small with chainI := 3 } = 0x00 ∧
    completionCode .coefE { small with chainI := 8 } = 0x04 ∧ completionCode .coefE { small with chainI := 7 } = 0x00 := by
  decide

theorem witness_UnsupportedWidthKeepsConfiguration :
    ¬ ((3 : Nat) = 1 ∨ (3 : Nat) = 2 ∨ (3 : Nat) = 4 ∨ (3 : Nat) = 8) ∧
    ∃ t, small.err = 0 ∧ exec (.cfg 3) small = .next t ∧ t.err = 0x02 := ⟨by decide, _, rfl, rfl, by decide⟩

/-- Boundary values of N for the derivation and the codec statements, with a digest of that length. -/
theorem witness_parameter_ranges :
    (1 : Nat) ≤ 1 ∧ (1 : Nat) ≤ 257 ∧ (257 : Nat) ≤ 257 ∧ (List.replicate 257 (0 : Byte)).length = 257 ∧
    ([0x00] : Bytes).length = 1 ∧ ([0xFF] : Bytes).length = 1 ∧ ([0x00] : Bytes) ≠ [0xFF] :=
  ⟨by decide, by decide, by decide, List.length_replicate, by decide, by decide, by decide⟩

theorem witness_CoefQ :
    small.cfgd = true ∧ small.chainI.toNat < 8 * small.par.n / small.cfgW ∧
    ({ small with chainI := 3 } : State).chainI.toNat < 8 * small.par.n / small.cfgW := by decide

theorem witness_CoefE :
    small.cfgd = true ∧ small.evalid = true ∧
    ({ small with chainI := 7 } : State).chainI.toNat < 8 * (small.par.n + 2) / small.cfgW := by decide

/-- The hypotheses of the four walk statements, with every counter clause at its boundary: no step, one step, the
longest walk, a digit of 0 (chain 5 of `small`) and a digit of 2^w − 1. -/
theorem witness_walks_start :
    (Instr.walk 15 0).wf = true ∧ 15 + 0 ≤ 2 ^ small.cfgW - 1 ∧ (Instr.walk 14 1).wf = true ∧
    14 + 1 ≤ 2 ^ small.cfgW - 1 ∧ small.cfgd = true ∧ supportedW small.cfgW = true ∧ small.evalid = true ∧
    small.chainI.toNat < small.cfgP ∧
    coef small.cfgW small.eBuf 4 = 0 ∧ coef small.cfgW small.eBuf 1 = 0x0B ∧
    coef 4 [0xFB, 0xCD, 0x0A, 0x00] 0 = 2 ^ 4 - 1 := by decide

/-- Both clauses of the walking step: steps left, and the last step. -/
theorem witness_WalkingStepHashesOnce :
    sequencerNext walkingState walkingState ∧ walkingState.phase = .walking ∧ walkingState.seqLeft ≠ 1 ∧
    sequencerNext lastStep lastStep ∧ lastStep.phase = .walking ∧ lastStep.seqLeft = 1 :=
  ⟨.inl ⟨rfl, rfl⟩, by decide, by decide, .inl ⟨rfl, rfl⟩, by decide, by decide⟩

theorem witness_HashedCounterIsNeverKeyByte : walkingState.Inv ∧ walkingState.phase = .walking :=
  ⟨walking_inv, by decide⟩

theorem witness_WalkCommandReachesItsOutcome :
    (issued (.walk 0 1)).Inv ∧ (issued (.walk 0 1)).phase = .issued ∧ (issued (.walk 0 1)).agenda = [] ∧
    decode (issued (.walk 0 1)).cmdLast = .ok (.walk 0 1) ∧ check (.walk 0 1) (issued (.walk 0 1)) = .ok ∧
    walkCounters (.walk 0 1) (issued (.walk 0 1)) = some (0, 1) :=
  ⟨issued_walk_inv, by decide, by decide, by decide, by decide, by decide⟩

theorem witness_EveryCommandCompletes : walkingState.Inv ∧ walkingState.agenda = [] := ⟨walking_inv, rfl⟩

theorem witness_SignThenVerifyReachesChainTop :
    small.phase = .idle ∧ small.busy = false ∧ small.cfgd = true ∧ supportedW small.cfgW = true ∧
    small.evalid = true ∧ small.chainI.toNat < small.cfgP := by decide

/-- Two states that agree on a walk's operands and differ elsewhere (QD_BUF would change EVALID's meaning, so HCOUNT). -/
theorem witness_WalkReadsOnlyItsOperands :
    (issued .walkSign).Inv ∧ State.Inv { issued .walkSign with hcount := 7, result := 9 } ∧
    decode (issued .walkSign).cmdLast = .ok .walkSign ∧ walkCounters .walkSign (issued .walkSign) = some (0, 11) ∧
    check .walkSign (issued .walkSign) = .ok ∧ (issued .walkSign).phase = .issued ∧ (issued .walkSign).agenda = [] :=
  ⟨issued_sign_inv, ⟨by decide, by decide, by decide, by decide, by decide, by decide⟩, by decide, by decide, by decide,
    by decide, by decide⟩

theorem witness_CommandsTouchOnlyTheirOutputs :
    (∃ t, exec .walkVerify small = .next t) ∧ (∃ t, exec (.cfg 8) small = .next t) ∧
    (∀ w, Instr.walkVerify ≠ .cfg w) ∧ isWalk .encode = false := ⟨⟨_, rfl⟩, ⟨_, rfl⟩, by simp, rfl⟩

theorem witness_OtherWindowWordsReadAsBefore :
    (∃ t, exec .encode small = .next t) ∧ (∃ t, exec (.cfg 8) small = .next t) ∧ Target.vBuf 0 ≠ .status ∧
    Target.vBuf 0 ≠ .result ∧ (∀ m, Target.vBuf 0 ≠ .eBuf m) ∧
    Target.vBuf 0 ∉ [Target.paramW, .paramU, .paramV, .paramLs, .paramP] :=
  ⟨⟨_, rfl⟩, ⟨_, rfl⟩, by decide, by decide, by simp, by decide⟩

/-- An admitted access (the last word of E_BUF), and one on each side of every bound. -/
theorem witness_OnlyAdmittedAccessesHaveAStep :
    (0x1E00 % 4 = 0 ∧ small.par.base ≤ 0x1E00 ∧ definedOffset small.par (0x1E00 - small.par.base)) ∧
    ¬ definedOffset small.par (0x1E04 - small.par.base) ∧ ¬ definedOffset small.par 0x018 ∧
    ¬ definedOffset small.par 0x800 ∧ ¬ small.par.base ≤ 0x17FC := by
  simp [definedOffset, small, smallPar]

/-- The premises of the bus statements while BUSY = 0; every buffer of `small` has exactly the word m = 0. -/
theorem witness_idle_bus :
    small.busy = false ∧ 0 < (small.par.iLen + 3) / 4 ∧ 0 < (small.par.n + 3) / 4 ∧ 0 < (small.par.n + 2 + 3) / 4 := by
  decide

/-- The premises of the bus statements while BUSY = 1: STATUS, and another offset. -/
theorem witness_busy_bus :
    walkingState.busy = true ∧ definedOffset walkingState.par 0x004 ∧ definedOffset walkingState.par 0x200 := by
  simp [definedOffset, walkingState, issued, issue, small, smallPar]

theorem witness_ReadsHaveNoSideEffect :
    ∃ t, step { walkingState with agenda := [.read 0x1804 32] } = .next t := ⟨_, rfl⟩

theorem witness_WrbufStoresTheString :
    small.Inv ∧ small.busy = false ∧ ([0xC0, 0xC1] : Bytes).length = small.par.n ∧
    ([0xA0, 0xA1, 0xA2] : Bytes).length = small.par.iLen := ⟨small_inv, by decide, by decide, by decide⟩

theorem witness_RdbufReturnsTheBytes : small.Inv ∧ small.busy = false ∧ small.readLog = [] :=
  ⟨small_inv, by decide, by decide⟩

theorem witness_StaleEncodingIsRefused :
    small.busy = false ∧ 0 < (small.par.n + 3) / 4 ∧
    afterWrite small (0x400 + 4 * 0) 5 { small with qdBuf := [0, 0], evalid := false } ∧
    ({ small with evalid := false } : State).evalid = false ∧ small.cfgd = true ∧ small.chainI.toNat < small.cfgP :=
  have admitted : accessTarget small.par (small.par.base + (0x400 + 4 * 0)) 32 = .ok (.qdBuf 0) := by decide
  have stored : setBufferWord small.qdBuf 0 5 = [0, 0] := by decide
  ⟨rfl, by decide, fun rest => by
    simp only [step, handle, busWrite, admitted, hostWrite, writeTarget, stored]
    rfl, rfl, rfl, by decide⟩

theorem witness_ResetEventClearsTheBlock :
    ({ walkingState with agenda := [.reset, .sequencer] } : State).agenda = .reset :: [.sequencer] := rfl

/-- A step of each kind from a state with the invariant. -/
theorem witness_steps :
    walkingState.Inv ∧ (∃ t, step walkingState = .next t) ∧ walkingState.agenda.head? ≠ some .reset ∧
    (walkingState.busy = true ↔ walkingState.phase ≠ .idle) ∧
    (∃ t, step { small with agenda := [.reset] } = .next t ∧ t.cfgd = false) ∧
    (∃ t, step { small with agenda := [.write 0x1C00 32 5] } = .next t ∧ t.evalid = false) ∧
    (∃ t, step { walkingState with agenda := [.write 0x1C00 32 5] } = .next t ∧ t.overrun = true) ∧
    (∃ t, step { issued (.cfg 8) with cfgd := false } = .next t ∧ t.cfgd = true) ∧
    (∃ t, step { issued .encode with evalid := false } = .next t ∧ t.evalid = true) ∧
    (∃ t, exec .encode small = .next t ∧ small.cfgd = true) :=
  ⟨walking_inv, ⟨_, rfl⟩, by decide, by decide, ⟨_, rfl, rfl⟩, ⟨_, rfl, rfl⟩, ⟨_, rfl, rfl⟩, ⟨_, rfl, by decide⟩,
    ⟨_, rfl, by decide⟩, ⟨_, rfl, rfl⟩⟩

/-- The changes the ownership statements speak of do happen: a host write, the end of a walk, ENCODE. -/
theorem witness_changes :
    (∃ t, step { small with agenda := [.write 0x1810 32 5] } = .next t ∧ t.leafQ ≠ small.leafQ) ∧
    (∃ t, step { small with agenda := [.write 0x1A00 32 5] } = .next t ∧ t.vBuf ≠ small.vBuf) ∧
    (∃ t, step { issued .encode with eBuf := [0, 0, 0, 0], result := 0 } = .next t ∧ t.eBuf ≠ [0, 0, 0, 0] ∧
      t.result ≠ 0) :=
  ⟨⟨_, rfl, by decide⟩, ⟨_, rfl, by decide⟩, ⟨_, rfl, by decide, by decide⟩⟩

/-- A walk with 15 steps to go, interleaved with a read of STATUS, a lost write and two turns. -/
theorem witness_HostAccessesDoNotDisturbAWalk :
    walkingState.Inv ∧ walkingState.phase = .walking ∧
    (∀ e ∈ [Event.read 0x1804 32, .sequencer, .write 0x1814 32 9, .sequencer],
      e = .sequencer ∨ e.isAdmittedAccess walkingState.par = true) ∧
    [Event.read 0x1804 32, .sequencer, .write 0x1814 32 9, .sequencer].count .sequencer < walkingState.seqLeft.toNat :=
  ⟨walking_inv, by decide, by decide, by decide⟩

/-- Walks of no step and of 2^w − 1 steps, as WalkCommandReachesItsOutcome has them. -/
theorem witness_WalkCommandReachesItsOutcome_bounds :
    (issued (.walk 15 0)).Inv ∧ decode (issued (.walk 15 0)).cmdLast = .ok (.walk 15 0) ∧
    check (.walk 15 0) (issued (.walk 15 0)) = .ok ∧ walkCounters (.walk 15 0) (issued (.walk 15 0)) = some (15, 0) ∧
    (issued .walkFull).Inv ∧ decode (issued .walkFull).cmdLast = .ok .walkFull ∧
    check .walkFull (issued .walkFull) = .ok ∧ walkCounters .walkFull (issued .walkFull) = some (0, 15) :=
  ⟨⟨by decide, by decide, by decide, by decide, by decide, by decide⟩, by decide, by decide, by decide,
    ⟨by decide, by decide, by decide, by decide, by decide, by decide⟩, by decide, by decide, by decide⟩

/-- The bounds of N with a randomizer of that length. -/
theorem witness_SignatureVerifies :
    ([0xC0] : Bytes).length = 1 ∧ (List.replicate 257 (0xC0 : Byte)).length = 257 := ⟨rfl, List.length_replicate⟩

/-- The least schedule that is fair: one turn before each access, and 256 reads a poll. -/
theorem witness_fairSchedule : fairSchedule (fun _ => 1) 256 := fun _ => by
  rw [List.map_const', List.length_range, List.sum_replicate]
  decide

/-- The small block before an operation, with operands of the right lengths: p = 6 values of N = 2 bytes, I of 3 bytes. -/
theorem witness_host_operations :
    small.ready 4 ∧ (List.replicate 6 ([1, 2] : Bytes)).length = deriveP small.par.n 4 ∧
    (∀ x ∈ List.replicate 6 ([1, 2] : Bytes), x.length = small.par.n) ∧ ([1, 2, 3] : Bytes).length = small.par.iLen ∧
    ([0xC0, 0xC1] : Bytes).length = small.par.n ∧ ([0xC0] : Bytes).length ≠ small.par.n :=
  ⟨⟨small_inv, by decide, by decide, by decide⟩, by decide, by decide, by decide, by decide, by decide⟩

/-- The clauses of VerifyProgramVerifies on a block that cannot walk: not configured; and configured, chain 6 = p. -/
theorem witness_VerifyProgramVerifies :
    State.Inv { small with cfgd := false, evalid := false } ∧
    completionCode .walkVerify { small with cfgd := false, evalid := false } = 0x03 ∧
    completionCode .walkVerify { small with chainI := BitVec.ofNat 16 6 } = 0x04 ∧
    completionCode .walkVerify { small with chainI := BitVec.ofNat 16 5 } = 0x00 :=
  ⟨⟨by decide, by decide, by decide, by decide, by decide, by decide⟩, by decide, by decide, by decide⟩

end Sys2Proof.Tests
end

section
/-! SUPPORT. The register window: which target lies at which offset, and what a host write at it leaves
(10_state.md R24, 20_memory.md R61 to R66, R78). -/

set_option autoImplicit false

namespace Sys2Proof.Machine

open Sys2Proof

/-- The block has the register or buffer word: every register, and the words of each buffer (10_state.md R24). -/
def Target.inWindow (par : Params) : Target → Prop
  | .iBuf m => m < wordCount par.iLen
  | .vBuf m => m < wordCount par.n
  | .qdBuf m => m < wordCount par.n
  | .eBuf m => m < wordCount (par.n + 2)
  | .cmd | .status | .result | .hcount | .leafQ | .chainI => True
  | .paramN | .paramW | .paramU | .paramV | .paramLs | .paramP | .paramIlen => True

theorem bufferIndex_eq_some_iff {start len off m : Nat} :
    bufferIndex start len off = some m ↔ off = start + 4 * m ∧ m < wordCount len := by
  unfold bufferIndex
  split <;> simp <;> omega

theorem bufferIndex_word {start len m : Nat} (h : m < wordCount len) :
    bufferIndex start len (start + 4 * m) = some m :=
  bufferIndex_eq_some_iff.mpr ⟨rfl, h⟩

/-- The registers below the buffer windows are there on every block (10_state.md R24). -/
theorem inWindow_of_mem_controlTargets (par : Params) : ∀ target ∈ controlTargets, target.inWindow par := by
  simp [controlTargets, Target.inWindow]

/-- The register map is one to one: a target the block has lies at its own offset only (10_state.md R24). -/
theorem targetAt_eq_some_iff {par : Params} {off : Nat} {target : Target} :
    targetAt par off = some target ↔ target.inWindow par ∧ target.offset = off := by
  have hn := par.nRange
  have hi := par.iLenRange
  constructor
  · intro h
    unfold targetAt at h
    split at h
    · have here := List.find?_some h
      exact ⟨inWindow_of_mem_controlTargets par target (List.mem_of_find?_eq_some h), by simpa using here⟩
    · split_ifs at h <;>
        · obtain ⟨m, index, rfl⟩ := Option.map_eq_some_iff.mp h
          obtain ⟨at_, bound⟩ := bufferIndex_eq_some_iff.mp index
          exact ⟨bound, at_.symm⟩
  · rintro ⟨window, rfl⟩
    cases target with
    | iBuf m | vBuf m | qdBuf m | eBuf m =>
      simp only [Target.inWindow] at window
      have bound := window
      unfold wordCount at bound
      simp (disch := omega) only [targetAt, Target.offset, if_neg, if_pos, bufferIndex_word, Option.map_some]
    | _ => rfl

/-- The written-out offsets of the register map are those where a target lies (20_memory.md R63). -/
theorem definedOffset_iff {par : Params} {off : Nat} :
    definedOffset par off ↔ ∃ target : Target, target.inWindow par ∧ target.offset = off := by
  constructor
  · rintro (register | ⟨aligned, buffer⟩)
    · have : off ∈ controlTargets.map Target.offset := register
      obtain ⟨target, member, rfl⟩ := List.mem_map.mp this
      exact ⟨target, inWindow_of_mem_controlTargets par target member, rfl⟩
    · rcases buffer with ⟨lo, hi⟩ | ⟨lo, hi⟩ | ⟨lo, hi⟩ | ⟨lo, hi⟩
      · exact ⟨.iBuf ((off - 0x100) / 4), by simp only [Target.inWindow, wordCount]; omega,
          by simp only [Target.offset]; omega⟩
      · exact ⟨.vBuf ((off - 0x200) / 4), by simp only [Target.inWindow, wordCount]; omega,
          by simp only [Target.offset]; omega⟩
      · exact ⟨.qdBuf ((off - 0x400) / 4), by simp only [Target.inWindow, wordCount]; omega,
          by simp only [Target.offset]; omega⟩
      · exact ⟨.eBuf ((off - 0x600) / 4), by simp only [Target.inWindow, wordCount]; omega,
          by simp only [Target.offset]; omega⟩
  · rintro ⟨target, window, rfl⟩
    cases target with
    | iBuf m | vBuf m | qdBuf m | eBuf m =>
      simp only [Target.inWindow, wordCount] at window
      simp only [definedOffset, Target.offset]
      omega
    | _ => exact .inl (by simp [Target.offset])

/-- An admitted access is 32 bits wide, at the address of a target the block has (20_memory.md R62, R63). -/
theorem accessTarget_eq_ok {par : Params} {addr width : Nat} {target : Target}
    (h : accessTarget par addr width = .ok target) :
    width = 32 ∧ addr = par.base + target.offset ∧ target.inWindow par := by
  unfold accessTarget at h
  split_ifs at h with hwidth haligned hbase
  split at h
  · rename_i found heq
    cases h
    obtain ⟨window, offset⟩ := targetAt_eq_some_iff.mp heq
    exact ⟨not_not.mp hwidth, by omega, window⟩
  · cases h

theorem accessTarget_of_inWindow {par : Params} {target : Target} (window : target.inWindow par) :
    accessTarget par (par.base + target.offset) 32 = .ok target :=
  accessTarget_of_targetAt (targetAt_eq_some_iff.mpr ⟨window, rfl⟩)

/-- What a write does while BUSY = 0 does not depend on what is to come. -/
theorem writeTarget_agenda (target : Target) (val : Word) (s : State) (agenda : List Event) :
    writeTarget target val { s with agenda := agenda } = { writeTarget target val s with agenda := agenda } := by
  cases target <;> rfl

/-- A host write next on the agenda is the write of its target (20_memory.md R61, R78). -/
theorem step_write {s : State} {target : Target} (window : target.inWindow s.par) (val : Word) (rest : List Event) :
    step { s with agenda := .write (s.par.base + target.offset) 32 val :: rest } =
      .next (hostWrite target val { s with agenda := rest }) := by
  simp [step, handle, busWrite, accessTarget_of_inWindow window]

/-- A host write while BUSY = 0, at its target's offset, is the write of 20_memory.md R61. -/
theorem afterWrite_of_idle {s : State} {target : Target} (window : target.inWindow s.par) (val : Word)
    (free : s.busy = false) : afterWrite s target.offset val (writeTarget target val s) := by
  intro rest
  rw [step_write window, ← writeTarget_agenda]
  simp [hostWrite, free]

/-- A host write while BUSY = 1 sets OVERRUN and does nothing else (20_memory.md R78). -/
theorem afterWrite_of_busy {s : State} {target : Target} (window : target.inWindow s.par) (val : Word)
    (busy : s.busy = true) : afterWrite s target.offset val { s with overrun := true } := by
  intro rest
  rw [step_write window]
  simp [hostWrite, busy]

/-- The bytes of a buffer after a write of one of its words (20_memory.md R65, R66). -/
theorem wordStored_setBufferWord (b : Bytes) (m : Nat) (val : Word) : wordStored b (setBufferWord b m val) m val :=
  ⟨setBufferWord_length b m val, fun a => byteAt_setBufferWord b m a val⟩

end Sys2Proof.Machine
end

section
/-! SUPPORT. Once for a whole step, everything it can do, with each agent's premises and the state it leaves
(00_scope.md R13, 10_state.md R47). -/

set_option autoImplicit false

namespace Sys2Proof.Machine

open Sys2Proof

/-- The steps of the machine from s, by agent (00_scope.md R13); `rest` is the agenda once the event is used up. -/
inductive StepCase (s : State) : State → Prop where
  /-- A turn of the sequencer while SEQ_PHASE = IDLE. -/
  | idleTurn (rest : List Event) (turn : sequencerNext s { s with agenda := rest }) (phase : s.phase = .idle) :
      StepCase s { s with agenda := rest }
  /-- The dispatch of a word that decodes to no command (60_exceptions.md R193). -/
  | illegalWord (rest : List Event) (turn : sequencerNext s { s with agenda := rest }) (phase : s.phase = .issued)
      (word : decode s.cmdLast = .error .illegalCommand) :
      StepCase s (complete .illegalCommand { s with agenda := rest })
  /-- The dispatch of a command one of whose checks fails (60_exceptions.md R198). -/
  | failedCheck (rest : List Event) (i : Instr) (turn : sequencerNext s { s with agenda := rest })
      (phase : s.phase = .issued) (word : decode s.cmdLast = .ok i) (fails : check i s ≠ .ok) :
      StepCase s (complete (check i s) { s with agenda := rest })
  /-- The dispatch of a command whose checks pass (10_state.md R47). -/
  | command (rest : List Event) (i : Instr) (turn : sequencerNext s { s with agenda := rest })
      (phase : s.phase = .issued) (word : decode s.cmdLast = .ok i) (passes : check i s = .ok) :
      StepCase s (effectOf i { s with agenda := rest })
  /-- A walking step (42_chain_walk.md R145). -/
  | walking (rest : List Event) (turn : sequencerNext s { s with agenda := rest }) (phase : s.phase = .walking) :
      StepCase s (walkStep { s with agenda := rest })
  /-- A host read: only the host's log and the number of draws change (20_memory.md R69). -/
  | read (rest : List Event) (target : Target) (log : List Word) (draws : Nat) (window : target.inWindow s.par)
      (head : s.agenda = .read (s.par.base + target.offset) 32 :: rest) :
      StepCase s { s with agenda := rest, readLog := log, draws := draws }
  /-- A host write while BUSY = 1 (20_memory.md R78). -/
  | lostWrite (rest : List Event) (target : Target) (val : Word) (window : target.inWindow s.par)
      (head : s.agenda = .write (s.par.base + target.offset) 32 val :: rest) (busy : s.busy = true) :
      StepCase s { s with agenda := rest, overrun := true }
  /-- A host write while BUSY = 0 (20_memory.md R61). -/
  | write (rest : List Event) (target : Target) (val : Word) (window : target.inWindow s.par)
      (head : s.agenda = .write (s.par.base + target.offset) 32 val :: rest) (free : s.busy = false) :
      StepCase s (writeTarget target val { s with agenda := rest })
  /-- The reset event (70_reset_and_hazards.md R210). -/
  | reset (rest : List Event) (head : s.agenda = .reset :: rest) : StepCase s (resetEvent { s with agenda := rest })

/-- The checks do not depend on what is to come. -/
theorem check_agenda (i : Instr) (s : State) (agenda : List Event) : check i { s with agenda := agenda } = check i s := by
  cases i <;> rfl

/-- The steps of a turn of the sequencer. -/
theorem stepCase_of_sequencerStep {s t : State} {rest : List Event} (turn : sequencerNext s { s with agenda := rest })
    (h : sequencerStep { s with agenda := rest } = .next t) : StepCase s t := by
  obtain ⟨phase, rfl⟩ | ⟨phase, word, rfl⟩ | ⟨i, phase, word, rfl⟩ | ⟨phase, rfl⟩ := sequencerStep_cases h
  · exact .idleTurn rest turn phase
  · exact .illegalWord rest turn phase word
  · have same := check_agenda i s rest
    by_cases passes : check i s = .ok
    · rw [checked_of_ok _ (same.trans passes)]
      exact .command rest i turn phase word passes
    · rw [checked_of_not_ok _ (by rwa [same]), same]
      exact .failedCheck rest i turn phase word passes
  · exact .walking rest turn phase

/-- Every step is one of these. -/
theorem stepCase_of_step {s t : State} (h : step s = .next t) : StepCase s t := by
  obtain ⟨empty, turn⟩ | ⟨e, rest, head, event⟩ := step_cases h
  · exact stepCase_of_sequencerStep (rest := s.agenda) (.inl ⟨empty, rfl⟩) turn
  · obtain ⟨rfl, turn⟩ | ⟨addr, width, target, rfl, admitted, rfl⟩ | ⟨addr, width, val, target, rfl, admitted, rfl⟩ |
      ⟨rfl, rfl⟩ := event
    · exact stepCase_of_sequencerStep (.inr ⟨rest, head, rfl⟩) turn
    · obtain ⟨rfl, rfl, window⟩ := accessTarget_eq_ok admitted
      obtain ⟨val, draws, read, -, -⟩ := hostRead_cases target { s with agenda := rest }
      rw [read]
      exact .read rest target _ draws window head
    · obtain ⟨rfl, rfl, window⟩ := accessTarget_eq_ok admitted
      obtain ⟨busy, write⟩ | ⟨free, write⟩ := hostWrite_cases target val { s with agenda := rest }
      · rw [write]
        exact .lostWrite rest target val window head busy
      · rw [write]
        exact .write rest target val window head free
    · exact .reset rest head

/-- While a host access or a reset comes next, the sequencer has no turn. -/
theorem not_sequencerNext {s r : State} {e : Event} {rest : List Event} (head : s.agenda = e :: rest)
    (he : e ≠ .sequencer) : ¬ sequencerNext s r := by
  rintro (⟨empty, -⟩ | ⟨_, turn, -⟩)
  · simp [head] at empty
  · rw [head] at turn
    exact he (List.cons.inj turn).1

/-- A dispatch of a command: its effect, or the completion with the code of the check that failed. -/
theorem exec_cases {i : Instr} {s t : State} (h : exec i s = .next t) :
    (check i s = .ok ∧ t = effectOf i s) ∨ (check i s ≠ .ok ∧ t = complete (check i s) s) := by
  rw [exec_eq_checked] at h
  cases h
  by_cases passes : check i s = .ok
  · exact .inl ⟨passes, checked_of_ok _ passes⟩
  · exact .inr ⟨passes, checked_of_not_ok _ passes⟩

theorem supportedW_iff {w : Nat} : supportedW w = true ↔ w = 1 ∨ w = 2 ∨ w = 4 ∨ w = 8 := by
  simp [supportedW, or_assoc]

/-- CFG has one check, its w (60_exceptions.md R194). -/
theorem check_cfg_eq_ok_iff {w : Nat} {s : State} : check (.cfg w) s = .ok ↔ w = 1 ∨ w = 2 ∨ w = 4 ∨ w = 8 := by
  simp [check_eq_ok_iff, needsConfig, unsupportedConfig, isWalk, needsEncoding, operandRangeError, supportedW_iff]

/-- ENCODE has one check, CFGD (60_exceptions.md R195). -/
theorem check_encode_eq_ok_iff {s : State} : check .encode s = .ok ↔ s.cfgd = true := by
  simp [check_eq_ok_iff, needsConfig, unsupportedConfig, isWalk, needsEncoding, operandRangeError]

end Sys2Proof.Machine
end

section
/-! SUPPORT. What StartWalk, a walking step, a command's effect and an idle write leave of the STATUS flags and of
HCOUNT, and from that what a whole step can do to each of them (10_state.md R29 to R31, R34). -/

set_option autoImplicit false

namespace Sys2Proof.Machine

open Sys2Proof

/-- StartWalk either finishes the walk or leaves it running (42_chain_walk.md R144). -/
theorem startWalk_cases (j0 k : Nat) (s : State) :
    (k = 0 ∧ startWalk j0 k s = finishWalk (loadWalk j0 k s)) ∨
    (k ≠ 0 ∧ startWalk j0 k s = { loadWalk j0 k s with phase := .walking }) := by
  unfold startWalk
  split
  · exact .inl ⟨‹_›, rfl⟩
  · exact .inr ⟨‹_›, rfl⟩

@[simp] theorem startWalk_cfgd (j0 k : Nat) (s : State) : (startWalk j0 k s).cfgd = s.cfgd := by
  obtain ⟨-, h⟩ | ⟨-, h⟩ := startWalk_cases j0 k s <;> simp [h]

@[simp] theorem startWalk_evalid (j0 k : Nat) (s : State) : (startWalk j0 k s).evalid = s.evalid := by
  obtain ⟨-, h⟩ | ⟨-, h⟩ := startWalk_cases j0 k s <;> simp [h]

@[simp] theorem startWalk_overrun (j0 k : Nat) (s : State) : (startWalk j0 k s).overrun = s.overrun := by
  obtain ⟨-, h⟩ | ⟨-, h⟩ := startWalk_cases j0 k s <;> simp [h]

@[simp] theorem startWalk_hcount (j0 k : Nat) (s : State) : (startWalk j0 k s).hcount = s.hcount := by
  obtain ⟨-, h⟩ | ⟨-, h⟩ := startWalk_cases j0 k s <;> simp [h]

@[simp] theorem walkStep_cfgd (s : State) : (walkStep s).cfgd = s.cfgd := by
  obtain ⟨-, h⟩ | ⟨-, h⟩ := walkStep_cases s <;> simp [h]

@[simp] theorem walkStep_evalid (s : State) : (walkStep s).evalid = s.evalid := by
  obtain ⟨-, h⟩ | ⟨-, h⟩ := walkStep_cases s <;> simp [h]

@[simp] theorem walkStep_overrun (s : State) : (walkStep s).overrun = s.overrun := by
  obtain ⟨-, h⟩ | ⟨-, h⟩ := walkStep_cases s <;> simp [h]

@[simp] theorem walkStep_hcount (s : State) : (walkStep s).hcount = s.hcount + 1 := by
  obtain ⟨-, h⟩ | ⟨-, h⟩ := walkStep_cases s <;> simp [h]

@[simp] theorem effectOf_overrun (i : Instr) (s : State) : (effectOf i s).overrun = s.overrun := by
  cases i <;> simp [effectOf, cfgEffect, coefEffect, cksumEffect, encodeEffect]

@[simp] theorem effectOf_hcount (i : Instr) (s : State) : (effectOf i s).hcount = s.hcount := by
  cases i <;> simp [effectOf, cfgEffect, coefEffect, cksumEffect, encodeEffect]

/-- The effect of CFG sets CFGD, that of any other command leaves it (10_state.md R29). -/
theorem effectOf_cfgd (i : Instr) (s : State) :
    ((∃ w, i = .cfg w) ∧ (effectOf i s).cfgd = true) ∨ (effectOf i s).cfgd = s.cfgd := by
  cases i with
  | cfg w => exact .inl ⟨⟨w, rfl⟩, rfl⟩
  | _ => exact .inr (by simp [effectOf, coefEffect, cksumEffect, encodeEffect])

/-- The effect of CFG clears EVALID, that of ENCODE sets it, that of any other command leaves it (10_state.md R30). -/
theorem effectOf_evalid (i : Instr) (s : State) :
    ((∃ w, i = .cfg w) ∧ (effectOf i s).evalid = false) ∨ (i = .encode ∧ (effectOf i s).evalid = true) ∨
    (effectOf i s).evalid = s.evalid := by
  cases i with
  | cfg w => exact .inl ⟨⟨w, rfl⟩, rfl⟩
  | encode => exact .inr (.inl ⟨rfl, rfl⟩)
  | _ => exact .inr (.inr (by simp [effectOf, coefEffect, cksumEffect]))

/-- A dispatched command has completed, or has started a walk with BUSY as it was. -/
theorem effectOf_busy_phase (i : Instr) (s : State) :
    ((effectOf i s).busy = false ∧ (effectOf i s).phase = .idle) ∨
    ((effectOf i s).busy = s.busy ∧ (effectOf i s).phase = .walking) := by
  have started : ∀ j0 k, ((startWalk j0 k s).busy = false ∧ (startWalk j0 k s).phase = .idle) ∨
      ((startWalk j0 k s).busy = s.busy ∧ (startWalk j0 k s).phase = .walking) := fun j0 k => by
    obtain ⟨-, h⟩ | ⟨-, h⟩ := startWalk_cases j0 k s <;> simp [h]
  cases i with
  | walk | walkFull | walkSign | walkVerify => exact started _ _
  | cfg | coefQ | coefE | cksum | encode => exact .inl ⟨rfl, rfl⟩

@[simp] theorem writeTarget_cfgd (target : Target) (val : Word) (s : State) :
    (writeTarget target val s).cfgd = s.cfgd := by cases target <;> rfl

@[simp] theorem writeTarget_overrun (target : Target) (val : Word) (s : State) :
    (writeTarget target val s).overrun = s.overrun := by cases target <;> rfl

@[simp] theorem writeTarget_hcount (target : Target) (val : Word) (s : State) :
    (writeTarget target val s).hcount = s.hcount := by cases target <;> rfl

/-- A write while BUSY = 0 leaves EVALID unless it is a write to QD_BUF, which clears it (20_memory.md R61). -/
theorem writeTarget_evalid (target : Target) (val : Word) (s : State) :
    ((∃ m, target = .qdBuf m) ∧ (writeTarget target val s).evalid = false) ∨
    (writeTarget target val s).evalid = s.evalid := by
  cases target with
  | qdBuf m => exact .inl ⟨⟨m, rfl⟩, rfl⟩
  | _ => exact .inr rfl

/-- A write while BUSY = 0 issues a command or leaves BUSY and SEQ_PHASE (20_memory.md R61, 10_state.md R46). -/
theorem writeTarget_busy_phase (target : Target) (val : Word) (s : State) :
    ((writeTarget target val s).busy = true ∧ (writeTarget target val s).phase = .issued) ∨
    ((writeTarget target val s).busy = s.busy ∧ (writeTarget target val s).phase = s.phase) := by
  cases target with
  | cmd => exact .inl ⟨rfl, rfl⟩
  | _ => exact .inr ⟨rfl, rfl⟩

/-- What a step can do to CFGD (10_state.md R29). -/
theorem step_cfgd_cases {s t : State} (h : step s = .next t) :
    t.cfgd = s.cfgd ∨ (s.agenda.head? = some .reset ∧ t.cfgd = false) ∨
    ((∃ r w, sequencerNext s r ∧ s.phase = .issued ∧ decode s.cmdLast = .ok (.cfg w) ∧
      (w = 1 ∨ w = 2 ∨ w = 4 ∨ w = 8)) ∧ t.cfgd = true) := by
  cases stepCase_of_step h with
  | reset rest head => exact .inr (.inl ⟨by simp [head], rfl⟩)
  | command rest i turn phase word passes =>
    obtain ⟨⟨w, rfl⟩, set⟩ | kept := effectOf_cfgd i { s with agenda := rest }
    · exact .inr (.inr ⟨⟨_, w, turn, phase, word, check_cfg_eq_ok_iff.mp passes⟩, set⟩)
    · exact .inl kept
  | _ => exact .inl (by simp)

/-- What a step can do to EVALID (10_state.md R30). -/
theorem step_evalid_cases {s t : State} (h : step s = .next t) :
    t.evalid = s.evalid ∨
    ((∃ r, sequencerNext s r ∧ s.phase = .issued ∧ decode s.cmdLast = .ok .encode ∧ s.cfgd = true) ∧
      t.evalid = true) ∨
    ((s.agenda.head? = some .reset ∨
      (∃ r w, sequencerNext s r ∧ s.phase = .issued ∧ decode s.cmdLast = .ok (.cfg w) ∧
        (w = 1 ∨ w = 2 ∨ w = 4 ∨ w = 8)) ∨
      (s.busy = false ∧ ∃ m val, m < (s.par.n + 3) / 4 ∧
        s.agenda.head? = some (.write (s.par.base + (0x400 + 4 * m)) 32 val))) ∧ t.evalid = false) := by
  cases stepCase_of_step h with
  | reset rest head => exact .inr (.inr ⟨.inl (by simp [head]), rfl⟩)
  | command rest i turn phase word passes =>
    obtain ⟨⟨w, rfl⟩, cleared⟩ | ⟨rfl, set⟩ | kept := effectOf_evalid i { s with agenda := rest }
    · exact .inr (.inr ⟨.inr (.inl ⟨_, w, turn, phase, word, check_cfg_eq_ok_iff.mp passes⟩), cleared⟩)
    · exact .inr (.inl ⟨⟨_, turn, phase, word, check_encode_eq_ok_iff.mp passes⟩, set⟩)
    · exact .inl kept
  | write rest target val window head free =>
    obtain ⟨⟨m, rfl⟩, cleared⟩ | kept := writeTarget_evalid target val { s with agenda := rest }
    · exact .inr (.inr ⟨.inr (.inr ⟨free, m, val, window, by rw [head]; rfl⟩), cleared⟩)
    · exact .inl kept
  | _ => exact .inl (by simp)

/-- What a step can do to OVERRUN (10_state.md R31). -/
theorem step_overrun_cases {s t : State} (h : step s = .next t) :
    t.overrun = s.overrun ∨ (s.agenda.head? = some .reset ∧ t.overrun = false) ∨
    (s.busy = true ∧ ∃ off val, definedOffset s.par off ∧ s.agenda.head? = some (.write (s.par.base + off) 32 val)) ∧
      t.overrun = true := by
  cases stepCase_of_step h with
  | reset rest head => exact .inr (.inl ⟨by simp [head], rfl⟩)
  | lostWrite rest target val window head busy =>
    exact .inr (.inr ⟨⟨busy, target.offset, val, definedOffset_iff.mpr ⟨target, window, rfl⟩, by simp [head]⟩, rfl⟩)
  | _ => exact .inl (by simp)

/-- HCOUNT after a step: cleared, one more, or as before (10_state.md R34). -/
theorem step_hcount_cases {s t : State} (h : step s = .next t) :
    s.agenda.head? = some .reset ∨
    ((s.phase = .walking ∧ ∃ r, sequencerNext s r) ∧ t.hcount = s.hcount + 1) ∨
    (¬ (s.phase = .walking ∧ ∃ r, sequencerNext s r) ∧ t.hcount = s.hcount) := by
  cases stepCase_of_step h with
  | reset rest head => exact .inl (by simp [head])
  | walking rest turn phase => exact .inr (.inl ⟨⟨phase, _, turn⟩, by simp⟩)
  | idleTurn rest turn phase | illegalWord rest turn phase | failedCheck rest i turn phase | command rest i turn phase =>
    exact .inr (.inr ⟨by simp [phase], by simp⟩)
  | read rest target log draws window head | lostWrite rest target val window head
  | write rest target val window head =>
    exact .inr (.inr ⟨fun ⟨_, _, turn⟩ => not_sequencerNext head (by simp) turn, by simp⟩)

end Sys2Proof.Machine
end

section
/-! SUPPORT. The bits of a STATUS word (10_state.md R26). -/

set_option autoImplicit false

namespace Sys2Proof.Machine

open Sys2Proof

theorem flagAt_getLsbD {pos i : Nat} (b : Bool) (hi : i < 32) : (flagAt b pos).getLsbD i = (decide (i = pos) && b) := by
  simp only [flagAt, BitVec.getLsbD_shiftLeft, BitVec.getLsbD_setWidth, BitVec.getLsbD_ofBool]
  grind

/-- Bit i of a STATUS word: each flag at its own bit, ERR from bit 8 on, and no other bit set. -/
theorem packStatus_getLsbD {i : Nat} (err : Byte) (overrun evalid cfgd done busy : Bool) (hi : i < 32) :
    (packStatus err overrun evalid cfgd done busy).getLsbD i =
      (decide (8 ≤ i) && err.getLsbD (i - 8) || decide (i = 4) && overrun || decide (i = 3) && evalid ||
        decide (i = 2) && cfgd || decide (i = 1) && done || decide (i = 0) && busy) := by
  have code : (err.setWidth 32 <<< 8).getLsbD i = (decide (8 ≤ i) && err.getLsbD (i - 8)) := by
    simp only [BitVec.getLsbD_shiftLeft, BitVec.getLsbD_setWidth]
    grind
  simp only [packStatus, BitVec.getLsbD_or, code, flagAt_getLsbD _ hi]

end Sys2Proof.Machine
end

section
/-! The statements about STATUS, idle writes, and the flags and HCOUNT (10_state.md). -/

set_option autoImplicit false

namespace Sys2Proof.Machine

open Sys2Proof

/-- Settles O37: the bits of a packed STATUS word, one by one. -/
theorem statusFields : Obligations.StatusFields := by
  unfold Obligations.StatusFields
  refine ⟨fun s => ?_, fun s val free => afterWrite_of_idle (target := .status) trivial val free, rfl⟩
  have bits : ∀ i < 32, s.statusWord.getLsbD i = _ := fun i hi =>
    packStatus_getLsbD s.err s.overrun s.evalid s.cfgd s.done s.busy hi
  refine ⟨?busy, ?done, ?cfgd, ?evalid, ?overrun, ?low, ?code, ?high⟩
  case busy | done | cfgd | evalid | overrun =>
    rw [bits _ (by decide)]
    simp
  case low | code | high =>
    refine BitVec.eq_of_getLsbD_eq fun i hi => ?_
    rw [BitVec.getLsbD_extractLsb', bits _ (by omega)]
    grind

/-- Settles O39: each write is the write of its target, and a buffer word is stored byte by byte. -/
theorem idleWriteStoresItsOperand : Obligations.IdleWriteStoresItsOperand := by
  unfold Obligations.IdleWriteStoresItsOperand
  refine ⟨fun s val free => ?_, fun s val busy => afterWrite_of_busy (target := .cmd) trivial val busy⟩
  have idle : ∀ target : Target, target.inWindow s.par → afterWrite s target.offset val (writeTarget target val s) :=
    fun target window => afterWrite_of_idle window val free
  refine ⟨idle .cmd trivial, idle .leafQ trivial, idle .chainI trivial,
    fun m hm => ⟨_, wordStored_setBufferWord s.iBuf m val, idle (.iBuf m) hm⟩,
    fun m hm => ⟨_, wordStored_setBufferWord s.vBuf m val, idle (.vBuf m) hm⟩,
    fun m hm => ⟨_, wordStored_setBufferWord s.qdBuf m val, idle (.qdBuf m) hm⟩, ?_,
    fun m hm => idle (.eBuf m) hm⟩
  simp only [List.forall_mem_cons]
  exact ⟨idle .status trivial, idle .result trivial, idle .hcount trivial, idle .paramN trivial, idle .paramW trivial,
    idle .paramU trivial, idle .paramV trivial, idle .paramLs trivial, idle .paramP trivial, idle .paramIlen trivial,
    by simp⟩

/-- Settles O50: only an issue, a completion, a walk's start and reset touch BUSY or SEQ_PHASE, and each sets both. -/
theorem busyExactlyWhileNotIdle : Obligations.BusyExactlyWhileNotIdle := by
  unfold Obligations.BusyExactlyWhileNotIdle
  intro s t inv h
  cases stepCase_of_step h with
  | idleTurn | read | lostWrite => exact inv
  | illegalWord | failedCheck | reset => simp [resetEvent, State.afterReset]
  | command rest i turn phase word passes =>
    have busy : s.busy = true := inv.mpr (by simp [phase])
    obtain ⟨hb, hp⟩ | ⟨hb, hp⟩ := effectOf_busy_phase i { s with agenda := rest } <;> rw [hb, hp] <;> simp [busy]
  | walking rest turn phase =>
    have busy : s.busy = true := inv.mpr (by simp [phase])
    obtain ⟨-, walk⟩ | ⟨-, walk⟩ := walkStep_cases { s with agenda := rest } <;> rw [walk] <;> simp [phase, busy]
  | write rest target val window head free =>
    obtain ⟨hb, hp⟩ | ⟨hb, hp⟩ := writeTarget_busy_phase target val { s with agenda := rest }
    · simp [hb, hp]
    · rw [hb, hp]
      exact inv

/-- Settles O52: of all steps only a dispatched CFG and reset write CFGD. -/
theorem cfgdIsClearedOnlyByReset : Obligations.CfgdIsClearedOnlyByReset := by
  unfold Obligations.CfgdIsClearedOnlyByReset
  refine ⟨fun s t h => ?_, fun s t w h => ?_, fun s => rfl, rfl⟩
  · obtain kept | ⟨reset, cleared⟩ | ⟨cfg, set⟩ := step_cfgd_cases h
    · rw [kept]
      exact ⟨fun on off => (nomatch on.symm.trans off), fun off on => (nomatch off.symm.trans on)⟩
    · exact ⟨fun _ _ => reset, fun _ on => (nomatch cleared.symm.trans on)⟩
    · exact ⟨fun _ off => (nomatch set.symm.trans off), fun _ _ => cfg⟩
  · obtain ⟨passes, rfl⟩ | ⟨fails, rfl⟩ := exec_cases h
    · rw [if_pos (check_cfg_eq_ok_iff.mp passes)]
      rfl
    · rw [if_neg (mt check_cfg_eq_ok_iff.mpr fails), complete_cfgd]

/-- Settles O53: of all steps only a dispatched ENCODE or CFG, a write to QD_BUF and reset write EVALID. -/
theorem evalidIsSetOnlyByEncode : Obligations.EvalidIsSetOnlyByEncode := by
  unfold Obligations.EvalidIsSetOnlyByEncode
  refine ⟨fun s t h => ?_, fun s t configured h => ?_, fun s t w hw h => ?_, fun s m val free hm =>
    ⟨_, afterWrite_of_idle (target := .qdBuf m) hm val free, rfl⟩, fun s => rfl, rfl⟩
  · obtain kept | ⟨encode, set⟩ | ⟨cause, cleared⟩ := step_evalid_cases h
    · rw [kept]
      exact ⟨fun off on => (nomatch off.symm.trans on), fun on off => (nomatch on.symm.trans off)⟩
    · exact ⟨fun _ _ => encode, fun _ off => (nomatch set.symm.trans off)⟩
    · exact ⟨fun _ on => (nomatch cleared.symm.trans on), fun _ _ => cause⟩
  · obtain ⟨-, rfl⟩ | ⟨fails, -⟩ := exec_cases h
    · rfl
    · exact absurd (check_encode_eq_ok_iff.mpr configured) fails
  · obtain ⟨-, rfl⟩ | ⟨fails, -⟩ := exec_cases h
    · rfl
    · exact absurd (check_cfg_eq_ok_iff.mpr hw) fails

/-- Settles O54: of all steps only a host write while BUSY = 1 and reset write OVERRUN. -/
theorem overrunIsStickyUntilReset : Obligations.OverrunIsStickyUntilReset := by
  unfold Obligations.OverrunIsStickyUntilReset
  refine ⟨fun s off val busy defined => ?_, fun s => rfl, fun s t h => ?_⟩
  · obtain ⟨target, window, rfl⟩ := definedOffset_iff.mp defined
    exact ⟨_, afterWrite_of_busy window val busy, rfl⟩
  · obtain kept | ⟨reset, cleared⟩ | ⟨lost, set⟩ := step_overrun_cases h
    · rw [kept]
      exact ⟨fun on off => (nomatch on.symm.trans off), fun off on => (nomatch off.symm.trans on)⟩
    · exact ⟨fun _ _ => reset, fun _ on => (nomatch cleared.symm.trans on)⟩
    · exact ⟨fun _ off => (nomatch set.symm.trans off), fun _ _ => lost⟩

/-- Settles O55: of all steps only the walking step and reset write HCOUNT. -/
theorem hcountCountsHashInvocations : Obligations.HcountCountsHashInvocations := by
  unfold Obligations.HcountCountsHashInvocations
  refine ⟨rfl, fun s => rfl, fun s t h noReset => ?_⟩
  obtain reset | ⟨walking, one⟩ | ⟨other, kept⟩ := step_hcount_cases h
  · exact absurd reset noReset
  · exact ⟨fun _ _ => one, fun other => absurd walking other⟩
  · exact ⟨fun phase turn => absurd ⟨phase, turn⟩ other, fun _ => kept⟩

end Sys2Proof.Machine
end

section
/-! SUPPORT. What a host read does to the state, busy or not (20_memory.md R69), and what a read while BUSY = 1 returns
(20_memory.md R79). -/

set_option autoImplicit false

namespace Sys2Proof.Machine

open Sys2Proof

/-- A block has one register or buffer word at an offset (10_state.md R24). -/
theorem eq_of_offset_eq {par : Params} {target target' : Target} (window : target.inWindow par)
    (window' : target'.inWindow par) (same : target.offset = target'.offset) : target = target' := by
  have at_ := targetAt_eq_some_iff.mpr ⟨window, same⟩
  have at_' := targetAt_eq_some_iff.mpr ⟨window', rfl⟩
  exact Option.some.inj (at_.symm.trans at_')

/-- A host read next on the agenda is the read of its target (20_memory.md R60, R79). -/
theorem step_read {s : State} {target : Target} (window : target.inWindow s.par) (rest : List Event) :
    step { s with agenda := .read (s.par.base + target.offset) 32 :: rest } =
      .next (hostRead target { s with agenda := rest }) := by
  simp [step, handle, busRead, accessTarget_of_inWindow window]

/-- A host read while BUSY = 1 logs the word of 20_memory.md R79 and uses up one draw. -/
theorem afterRead_of_busy {s : State} {target : Target} (window : target.inWindow s.par) (busy : s.busy = true) :
    afterRead s target.offset
      { s with readLog := s.readBusy (Config.freeWord s.draws) target :: s.readLog, draws := s.draws + 1 } := by
  intro rest
  obtain ⟨val, draws, read, -, while_busy⟩ := hostRead_cases target { s with agenda := rest }
  obtain ⟨rfl, rfl⟩ := while_busy busy
  rw [step_read window, read]
  cases target <;> rfl

/-- The exact bits of STATUS while BUSY = 1 (20_memory.md R79). -/
theorem busyStatusWord_fields (overrun : Bool) (drawn : Word) :
    (busyStatusWord overrun drawn).getLsbD 0 = true ∧ (busyStatusWord overrun drawn).getLsbD 1 = false ∧
    (busyStatusWord overrun drawn).getLsbD 4 = overrun ∧ (busyStatusWord overrun drawn).extractLsb' 5 3 = 0 ∧
    (busyStatusWord overrun drawn).extractLsb' 8 8 = 0 ∧ (busyStatusWord overrun drawn).extractLsb' 16 16 = 0 := by
  have bits : ∀ i < 32, (busyStatusWord overrun drawn).getLsbD i = _ := fun i hi =>
    packStatus_getLsbD 0 overrun (drawn.getLsbD 3) (drawn.getLsbD 2) false true hi
  refine ⟨busyStatusWord_busy overrun drawn, ?done, ?overrun, ?low, ?code, ?high⟩
  case done | overrun =>
    rw [bits _ (by decide)]
    simp
  case low | code | high =>
    refine BitVec.eq_of_getLsbD_eq fun i hi => ?_
    rw [BitVec.getLsbD_extractLsb', bits _ (by omega)]
    grind

/-- A host read that has a step changes the host's log and the number of draws, and nothing else (20_memory.md R69). -/
theorem busRead_frame {addr width : Nat} {s t : State} (h : busRead addr width s = .next t) :
    ∃ log draws, t = { s with readLog := log, draws := draws } := by
  unfold busRead at h
  split at h
  · cases h
  · rename_i target _
    cases h
    obtain ⟨val, draws, read, -, -⟩ := hostRead_cases target s
    exact ⟨_, draws, read⟩

end Sys2Proof.Machine
end

section
/-! The statements about writes and reads while BUSY = 1, and about the side effects of a read (20_memory.md). -/

set_option autoImplicit false

namespace Sys2Proof.Machine

open Sys2Proof

/-- Settles O40: a defined offset is that of a target, and while BUSY = 1 no write reaches its target. -/
theorem busyWriteIsDiscarded : Obligations.BusyWriteIsDiscarded := by
  unfold Obligations.BusyWriteIsDiscarded
  intro s off val busy defined
  obtain ⟨target, window, rfl⟩ := definedOffset_iff.mp defined
  exact afterWrite_of_busy window val busy

/-- Settles O41: the word read is the drawn one, at offset 0x004 with the exact bits of STATUS in it. -/
theorem busyReadIsUnspecified : Obligations.BusyReadIsUnspecified := by
  unfold Obligations.BusyReadIsUnspecified
  intro s off busy defined
  obtain ⟨target, window, rfl⟩ := definedOffset_iff.mp defined
  refine ⟨_, afterRead_of_busy window busy, fun here => ?_⟩
  obtain rfl : target = .status := eq_of_offset_eq window trivial here
  exact busyStatusWord_fields s.overrun _

/-- Settles O42: the fields a read can change are the host's log and the number of draws. -/
theorem readsHaveNoSideEffect : Obligations.ReadsHaveNoSideEffect := by
  unfold Obligations.ReadsHaveNoSideEffect
  intro s t addr width rest head h
  rw [step_of_agenda_cons head] at h
  obtain ⟨log, draws, rfl⟩ := busRead_frame h
  exact ⟨rfl, rfl, rfl⟩

end Sys2Proof.Machine
end

section
/-! SUPPORT. Which words match no row of the opcode map, as conditions on their fields (30_encoding.md R82, R83). -/

set_option autoImplicit false

namespace Sys2Proof

theorem ite_ok_eq_error_iff {p : Prop} [Decidable p] {i : Instr} {d : Except Reject Instr} {e : Reject} :
    (if p then .ok i else d) = .error e ↔ ¬ p ∧ d = .error e := by
  split <;> simp [*]

/-- A word is illegal exactly when it is no row's word: one condition a row, in the spec's order (R83, R86). -/
theorem decode_append_eq_illegal_iff (r b a o : Byte) :
    decode (r ++ b ++ a ++ o) = .error .illegalCommand ↔
      ¬ (r = 0 ∧ b = 0 ∧ o = 1) ∧ ¬ (r = 0 ∧ o = 2) ∧ ¬ (r = 0 ∧ b = 0 ∧ a = 0 ∧ o = 3) ∧
      ¬ (r = 0 ∧ b = 0 ∧ a = 0 ∧ o = 4) ∧ ¬ (r = 0 ∧ b = 0 ∧ a = 0 ∧ o = 5) ∧
      ¬ (r = 0 ∧ b = 0 ∧ a = 0 ∧ o = 6) ∧ ¬ (r = 0 ∧ b = 0 ∧ a = 1 ∧ o = 6) ∧
      ¬ (r = 0 ∧ b = 0 ∧ a = 0 ∧ o = 7) ∧ ¬ (r = 0 ∧ b = 0 ∧ a = 0 ∧ o = 8) := by
  simp only [decode_append, ite_ok_eq_error_iff, and_true]

/-- A word with a non-zero reserved field matches no row (R82). -/
theorem decode_append_of_rsv_ne_zero {r : Byte} (b a o : Byte) (hr : r ≠ 0) :
    decode (r ++ b ++ a ++ o) = .error .illegalCommand := by
  simp only [decode_append_eq_illegal_iff, hr, false_and, not_false_eq_true, and_self]

/-- An OP by what its rows use: none (0x00), A (CFG), A and B (WALK), neither, A = 0 or 1 (COEF), or none again
(0x09 and up) (R83, R87). -/
theorem op_cases (o : Byte) :
    o = 0 ∨ o = 1 ∨ o = 2 ∨ (o = 3 ∨ o = 4 ∨ o = 5 ∨ o = 7 ∨ o = 8) ∨ o = 6 ∨ 9 ≤ o.toNat := by
  bv_omega

/-- A word with an OP past the last one of the map matches no row (R87). -/
theorem decode_append_of_nine_le_op (r b a : Byte) {o : Byte} (ho : 9 ≤ o.toNat) :
    decode (r ++ b ++ a ++ o) = .error .illegalCommand := by
  rw [decode_append_eq_illegal_iff]
  bv_omega

/-- The values of A other than those of COEF.Q and COEF.E (R83). -/
theorem two_le_toNat_iff (a : Byte) : 2 ≤ a.toNat ↔ a ≠ 0 ∧ a ≠ 1 := by
  bv_omega

end Sys2Proof
end

section
/-! The statement about the illegal command words (30_encoding.md R82). -/

set_option autoImplicit false

namespace Sys2Proof

/-- Settles O3: by RSV, then by OP, where the rows with that OP tell which of A and B must be zero. -/
theorem illegalWordsByField : Obligations.IllegalWordsByField := by
  unfold Obligations.IllegalWordsByField
  intro x
  rw [← append_fields x]
  generalize fieldRsv x = r, fieldB x = b, fieldA x = a, fieldOp x = o
  rw [fieldRsv_append, fieldOp_append, fieldA_append, fieldB_append]
  by_cases rsv : r = 0
  case neg => exact iff_of_true (decode_append_of_rsv_ne_zero b a o rsv) (.inl rsv)
  subst rsv
  obtain rfl | rfl | rfl | unused | rfl | past := op_cases o
  · simp [decode_append_eq_illegal_iff]
  · simp [decode_append_eq_illegal_iff]
  · simp [decode_append_eq_illegal_iff]
  · obtain rfl | rfl | rfl | rfl | rfl := unused <;> simp [decode_append_eq_illegal_iff, imp_iff_or_not]
  · rw [decode_append_eq_illegal_iff]
    by_cases hb : b = 0#8 <;> simp [two_le_toNat_iff, hb]
  · exact iff_of_true (decode_append_of_nine_le_op 0 b a past) (.inr (.inr (.inl past)))

end Sys2Proof
end

section
/-! SUPPORT. One law for each derivation function (40_control.md R101 to R104): what it is characterised by, and the
bounds on the largest checksum sum (2^w − 1)·u that decide v. -/

set_option autoImplicit false

namespace Sys2Proof.Machine

open Sys2Proof

/-- `ceil(a / b)` (R11) is Mathlib's, the least k with a ≤ b·k. -/
theorem ceilDiv_le_iff {a b k : Nat} (hb : 0 < b) : ceilDiv a b ≤ k ↔ a ≤ b * k :=
  ceilDiv_le_iff_le_mul hb

section
variable {n w : Nat} (hw : supportedW w = true)
include hw

theorem supportedW_pos : 0 < w := by
  rcases supportedW_cases hw with rfl | rfl | rfl | rfl <;> decide

/-- w divides 8, so u is 8N/w exactly (R101). -/
theorem deriveU_mul : deriveU n w * w = 8 * n := by
  rcases supportedW_cases hw with rfl | rfl | rfl | rfl <;> simp only [deriveU, ceilDiv] <;> omega

theorem deriveU_le : deriveU n w ≤ 8 * n :=
  deriveU_mul hw ▸ Nat.le_mul_of_pos_right _ (supportedW_pos hw)

/-- The largest checksum sum is at least 8N, as w ≤ 2^w − 1. -/
theorem le_maxDigit_mul_deriveU : 8 * n ≤ maxDigit w * deriveU n w :=
  calc 8 * n = w * deriveU n w := by rw [Nat.mul_comm w, deriveU_mul hw]
    _ ≤ maxDigit w * deriveU n w := Nat.mul_le_mul_right _ (Nat.le_sub_one_of_lt Nat.lt_two_pow_self)

theorem maxDigit_mul_deriveU_pos (hn : 1 ≤ n) : 1 ≤ maxDigit w * deriveU n w := by
  have := le_maxDigit_mul_deriveU (n := n) hw
  omega

/-- The largest checksum sum of an admitted N fits the checksum's 16 bits; N = 257 with w = 8 meets 2^16 − 1. -/
theorem maxDigit_mul_deriveU_lt (hn : n ≤ 257) : maxDigit w * deriveU n w < 2 ^ 16 := by
  have hu := deriveU_mul (n := n) hw
  rcases supportedW_cases hw with rfl | rfl | rfl | rfl <;> simp only [maxDigit] <;> omega

/-- v is the least number of w-bit digits that hold the largest checksum sum (R102). -/
theorem deriveV_le_iff (hn : 1 ≤ n) {k : Nat} : deriveV n w ≤ k ↔ maxDigit w * deriveU n w < 2 ^ (k * w) := by
  have hsum := maxDigit_mul_deriveU_pos hw hn
  rw [deriveV, ceilDiv_le_iff (supportedW_pos hw), Nat.succ_le_iff, Nat.log2_lt (by omega), Nat.mul_comm w k]

theorem maxDigit_mul_deriveU_lt_two_pow (hn : 1 ≤ n) : maxDigit w * deriveU n w < 2 ^ (deriveV n w * w) :=
  (deriveV_le_iff hw hn).mp le_rfl

theorem deriveV_pos (hn : 1 ≤ n) : 1 ≤ deriveV n w := by
  have hsum := maxDigit_mul_deriveU_pos hw hn
  rw [Nat.one_le_iff_ne_zero, ne_eq, ← Nat.le_zero, deriveV_le_iff hw hn, Nat.zero_mul, Nat.pow_zero]
  omega

/-- One digit fewer does not hold the largest checksum sum. -/
theorem two_pow_le_maxDigit_mul_deriveU (hn : 1 ≤ n) :
    2 ^ ((deriveV n w - 1) * w) ≤ maxDigit w * deriveU n w := by
  have hv := deriveV_pos hw hn
  rw [← not_lt, ← deriveV_le_iff hw hn]
  omega

/-- The checksum's digits fit its 16 bits (R106): w divides 16, and 16/w digits hold the largest sum. -/
theorem deriveV_mul_le (hn : 1 ≤ n) (hmax : n ≤ 257) : deriveV n w * w ≤ 16 := by
  have h16 : 16 / w * w = 16 := by
    rcases supportedW_cases hw with rfl | rfl | rfl | rfl <;> decide
  calc deriveV n w * w ≤ 16 / w * w :=
        Nat.mul_le_mul_right w ((deriveV_le_iff hw hn).mpr (h16.symm ▸ maxDigit_mul_deriveU_lt hw hmax))
    _ = 16 := h16

/-- The checksum has at least four bits (R106), as the largest sum is at least 8. -/
theorem four_le_deriveV_mul (hn : 1 ≤ n) : 4 ≤ deriveV n w * w := by
  have hsum : 2 ^ 3 ≤ maxDigit w * deriveU n w := by
    have := le_maxDigit_mul_deriveU (n := n) hw
    omega
  exact (Nat.pow_lt_pow_iff_right (by decide)).mp (hsum.trans_lt (maxDigit_mul_deriveU_lt_two_pow hw hn))

/-- The shift left of the checksum fills its 16 bits (R103): the subtraction does not truncate. -/
theorem deriveLs_add_deriveV_mul (hn : 1 ≤ n) (hmax : n ≤ 257) : deriveLs n w + deriveV n w * w = 16 :=
  Nat.sub_add_cancel (deriveV_mul_le hw hn hmax)

/-- v ≤ 12 (R106): at w = 1 the largest sum is u ≤ 2056 < 2^12, and at w ≥ 2 at most 8 digits fit 16 bits. -/
theorem deriveV_le (hn : 1 ≤ n) (hmax : n ≤ 257) : deriveV n w ≤ 12 := by
  by_cases one : w = 1
  · subst one
    have hu := deriveU_le (n := n) hw
    rw [deriveV_le_iff hw hn, maxDigit]
    omega
  · have two : 2 ≤ w := by
      have := supportedW_pos hw
      omega
    have := (Nat.mul_le_mul_left (deriveV n w) two).trans (deriveV_mul_le hw hn hmax)
    omega

/-- E has a digit for every chain (R106): p·w = 8N + v·w, of which E's two checksum bytes hold v·w ≤ 16. -/
theorem deriveP_le_digits (hn : 1 ≤ n) (hmax : n ≤ 257) : deriveP n w ≤ 8 * (n + 2) / w := by
  have hv := deriveV_mul_le hw hn hmax
  rw [Nat.le_div_iff_mul_le (supportedW_pos hw), deriveP, Nat.add_mul, deriveU_mul hw]
  omega

end

end Sys2Proof.Machine
end

section
/-! The statements about the derived parameters (40_control.md R101 to R106). -/

set_option autoImplicit false

namespace Sys2Proof

open Machine

/-- Settles O11: u is exact as w divides 8, and v is the least number of digits because the ceiling and the logarithm
are least bounds. -/
theorem derivedParametersMeetTheirFormulas : Obligations.DerivedParametersMeetTheirFormulas := by
  unfold Obligations.DerivedParametersMeetTheirFormulas
  intro n w hn hmax width
  have hw := supportedW_iff.mpr width
  exact ⟨deriveU_mul hw, maxDigit_mul_deriveU_pos hw hn, rfl, maxDigit_mul_deriveU_lt_two_pow hw hn,
    two_pow_le_maxDigit_mul_deriveU hw hn, deriveLs_add_deriveV_mul hw hn hmax, rfl⟩

/-- Settles O12: every range follows from 4 ≤ v·w ≤ 16, v ≤ 12 and u ≤ 8N, and the ranges fit the registers. -/
theorem derivedParametersStayInRange : Obligations.DerivedParametersStayInRange := by
  unfold Obligations.DerivedParametersStayInRange
  refine ⟨fun n w hn hmax width => ?_, by decide, by decide⟩
  have hw := supportedW_iff.mpr width
  have hu : deriveU n w ≤ 2056 := (deriveU_le hw).trans (by omega)
  have hv : deriveV n w ≤ 12 := deriveV_le hw hn hmax
  have hls : deriveLs n w ≤ 12 := by
    have := deriveLs_add_deriveV_mul hw hn hmax
    have := four_le_deriveV_mul hw hn
    omega
  have hp : deriveP n w ≤ 2068 := Nat.add_le_add hu hv
  refine ⟨deriveV_pos hw hn, hv, deriveV_mul_le hw hn hmax, hls, hu, hp, deriveP_le_digits hw hn hmax, ?_⟩
  intro x hx
  have small : x ≤ 2068 := by
    simp only [List.mem_cons, List.not_mem_nil, or_false] at hx
    omega
  rw [BitVec.toNat_ofNat, Nat.mod_eq_of_lt (by omega)]

end Sys2Proof
end

section
/-! SUPPORT. Laws of the checksum (41_codec.md R123, R124) and of the digits of a byte string (R120, R121): a digit as a
field of its byte, the digits of a concatenation, and those of a big-endian half word. -/

set_option autoImplicit false

namespace Sys2Proof.Machine

open Sys2Proof

/-- Each term of the sum is at most 2^w − 1 (R123). -/
theorem digitSum_le (w : Nat) (q : Bytes) (count : Nat) : digitSum w q count ≤ maxDigit w * count := by
  induction count with
  | zero => exact Nat.zero_le _
  | succ count ih => exact Nat.add_le_add ih (Nat.sub_le _ _)

@[simp] theorem byteAt_append_left {q : Bytes} {k : Nat} (tail : Bytes) (hk : k < q.length) :
    byteAt (q ++ tail) k = byteAt q k :=
  List.getD_append q tail 0 k hk

@[simp] theorem byteAt_length_add_append (q tail : Bytes) (k : Nat) :
    byteAt (q ++ tail) (q.length + k) = byteAt tail k := by
  rw [byteAt, List.getD_append_right _ _ _ _ (Nat.le_add_right _ _), Nat.add_sub_cancel_left, byteAt]

/-- The bytes of a half word, high first (R10). -/
theorem byteAt_be16_toNat (x : Half) {k : Nat} (hk : k < 2) :
    (byteAt (be16 x) k).toNat = x.toNat >>> (8 * (1 - k)) % 2 ^ 8 := by
  obtain rfl | rfl : k = 0 ∨ k = 1 := by omega
  · exact BitVec.extractLsb'_toNat ..
  · exact BitVec.extractLsb'_toNat ..

/-- Cutting a number to m bits leaves a field of w bits within them as it is. -/
theorem field_mod_two_pow (a : Nat) {k w m : Nat} (h : k + w ≤ m) :
    (a % 2 ^ m) >>> k % 2 ^ w = a >>> k % 2 ^ w := by
  obtain ⟨c, rfl⟩ := Nat.exists_eq_add_of_le h
  rw [Nat.shiftRight_eq_div_pow, Nat.shiftRight_eq_div_pow, Nat.add_assoc, Nat.pow_add, Nat.mod_mul_right_div_self,
    Nat.mod_mod_of_dvd _ (Nat.pow_dvd_pow 2 (Nat.le_add_right w c))]

section
variable {n w : Nat} (hw : supportedW w = true)
include hw

/-- A digit is a field of w bits of its byte; for w = 8 the shift of R120 is 0. -/
theorem coef_eq (s : Bytes) (i : Nat) :
    coef w s i = (byteAt s (i * w / 8)).toNat >>> (8 - w * (i % (8 / w) + 1)) % 2 ^ w := by
  by_cases whole : w = 8
  · subst whole
    have byte := (byteAt s i).isLt
    simp [coef, Nat.mod_one, Nat.mod_eq_of_lt byte]
  · rw [coef, if_neg whole, maxDigit, Nat.and_two_pow_sub_one_eq_mod]

/-- 8/w digits to a byte (R121): every digit before u lies in the first N bytes. -/
theorem digit_byte_lt {i : Nat} (hi : i < deriveU n w) : i * w / 8 < n := by
  have hu := deriveU_mul (n := n) hw
  have := Nat.mul_lt_mul_of_pos_right hi (supportedW_pos hw)
  omega

theorem coef_append_left (q tail : Bytes) {i : Nat} (hi : i < deriveU q.length w) :
    coef w (q ++ tail) i = coef w q i := by
  rw [coef_eq hw, coef_eq hw, byteAt_append_left tail (digit_byte_lt hw hi)]

/-- u is a whole number of bytes of digits, so digit u + t of a concatenation is digit t of its second part. -/
theorem coef_append_right (q tail : Bytes) (t : Nat) :
    coef w (q ++ tail) (deriveU q.length w + t) = coef w tail t := by
  have digitByte : (deriveU q.length w + t) * w / 8 = q.length + t * w / 8 := by
    rw [Nat.add_mul, deriveU_mul hw, Nat.mul_add_div (by decide)]
  have offset : (deriveU q.length w + t) % (8 / w) = t % (8 / w) := by
    have hu := deriveU_mul (n := q.length) hw
    rcases supportedW_cases hw with rfl | rfl | rfl | rfl <;> omega
  rw [coef_eq hw, coef_eq hw, digitByte, offset, byteAt_length_add_append]

/-- Digit t of a half word as two bytes is its t-th field of w bits from the top: no digit straddles the bytes. -/
theorem coef_be16 (x : Half) {t : Nat} (ht : w * (t + 1) ≤ 16) :
    coef w (be16 x) t = x.toNat >>> (16 - w * (t + 1)) % 2 ^ w := by
  have hbyte : t * w / 8 < 2 := by
    rcases supportedW_cases hw with rfl | rfl | rfl | rfl <;> omega
  have inByte : 8 - w * (t % (8 / w) + 1) + w ≤ 8 := by
    rcases supportedW_cases hw with rfl | rfl | rfl | rfl <;> omega
  have shift : 8 * (1 - t * w / 8) + (8 - w * (t % (8 / w) + 1)) = 16 - w * (t + 1) := by
    rcases supportedW_cases hw with rfl | rfl | rfl | rfl <;> omega
  rw [coef_eq hw, byteAt_be16_toNat x hbyte, field_mod_two_pow _ inByte, ← Nat.shiftRight_add, shift]

/-- The largest sum fills v digits, which with the shift fill 16 bits, so the cut clears nothing (R124). -/
theorem checksum_toNat (hn : 1 ≤ n) (hmax : n ≤ 257) (q : Bytes) :
    (checksum w (deriveU n w) (deriveLs n w) q).toNat = digitSum w q (deriveU n w) * 2 ^ deriveLs n w := by
  have hsum : digitSum w q (deriveU n w) < 2 ^ (deriveV n w * w) :=
    (digitSum_le w q _).trans_lt (maxDigit_mul_deriveU_lt_two_pow hw hn)
  have fits : digitSum w q (deriveU n w) * 2 ^ deriveLs n w < 2 ^ 16 :=
    calc _ < 2 ^ (deriveV n w * w) * 2 ^ deriveLs n w := Nat.mul_lt_mul_of_pos_right hsum (Nat.two_pow_pos _)
      _ = 2 ^ 16 := by rw [← Nat.pow_add, Nat.add_comm, deriveLs_add_deriveV_mul hw hn hmax]
  rw [checksum, BitVec.toNat_ofNat, Nat.shiftLeft_eq, Nat.and_two_pow_sub_one_eq_mod _ 16, Nat.mod_mod,
    Nat.mod_eq_of_lt fits]

/-- Digit t of the encoded checksum is the t-th of the v digits of the unshifted sum, most significant first (R130). -/
theorem coef_be16_of_lt_deriveV (hn : 1 ≤ n) (hmax : n ≤ 257) (x : Half) {t : Nat} (ht : t < deriveV n w) :
    coef w (be16 x) t = (x.toNat >>> deriveLs n w) >>> (w * (deriveV n w - 1 - t)) &&& (2 ^ w - 1) := by
  have bits := deriveLs_add_deriveV_mul hw hn hmax
  have split : deriveV n w * w = w * (deriveV n w - 1 - t) + w * (t + 1) := by
    rw [← Nat.mul_add, Nat.mul_comm]
    congr 1
    omega
  rw [coef_be16 hw x (by omega), Nat.and_two_pow_sub_one_eq_mod, ← Nat.shiftRight_add]
  congr 2
  omega

/-- The digits of a half word below its v digits lie in its low ls bits, which the shift of the checksum leaves 0. -/
theorem coef_be16_eq_zero (hn : 1 ≤ n) (hmax : n ≤ 257) {x : Half} {sum t : Nat}
    (hx : x.toNat = sum * 2 ^ deriveLs n w) (ht : deriveV n w ≤ t) (ht16 : w * (t + 1) ≤ 16) : coef w (be16 x) t = 0 := by
  have bits := deriveLs_add_deriveV_mul hw hn hmax
  have below : deriveV n w * w ≤ w * t := Nat.mul_comm w t ▸ Nat.mul_le_mul_right w ht
  have split : deriveLs n w = 16 - w * (t + 1) + (w + (w * t - deriveV n w * w)) := by
    rw [Nat.mul_add] at *
    omega
  rw [coef_be16 hw x ht16, hx, split, Nat.pow_add, Nat.shiftRight_eq_div_pow, Nat.mul_left_comm,
    Nat.mul_div_cancel_left _ (Nat.two_pow_pos _), Nat.pow_add, Nat.mul_left_comm, Nat.mul_mod_right]

/-- E has 16 bits past those of its digest, so w·(t + 1) ≤ 16 for every digit u + t of it. -/
theorem digit_past_digest_fits {t : Nat} (ht : deriveU n w + t < 8 * (n + 2) / w) : w * (t + 1) ≤ 16 := by
  have hu := deriveU_mul (n := n) hw
  have last := (Nat.le_div_iff_mul_le (supportedW_pos hw)).mp (Nat.succ_le_of_lt ht)
  rw [Nat.succ_eq_add_one, Nat.add_assoc, Nat.add_mul, Nat.mul_comm (t + 1)] at last
  omega

end

end Sys2Proof.Machine
end

section
/-! The statements about the checksum and the digits of an encoding (41_codec.md R124, R130). -/

set_option autoImplicit false

namespace Sys2Proof

open Machine

/-- Settles O19: the largest sum u·(2^w − 1) fits v digits, and v·w + ls = 16. -/
theorem checksumLosesNoBit : Obligations.ChecksumLosesNoBit := by
  unfold Obligations.ChecksumLosesNoBit
  intro n w q hn hmax width
  have hw := supportedW_iff.mpr width
  have hsum : digitSum w q (deriveU n w) ≤ maxDigit w * deriveU n w := digitSum_le w q _
  have fits := maxDigit_mul_deriveU_lt hw hmax
  rw [Nat.mul_comm (deriveU n w)]
  exact ⟨hsum, maxDigit_mul_deriveU_lt_two_pow hw hn,
    Nat.add_comm (deriveLs n w) _ ▸ deriveLs_add_deriveV_mul hw hn hmax, checksum_toNat hw hn hmax q, by omega⟩

/-- Settles O20: no digit straddles the digest and the checksum, so the digits of E are the digest's, then the
checksum's, whose first v are the sum's and whose others lie in the ls bits that are 0. -/
theorem digitsOfAnEncoding : Obligations.DigitsOfAnEncoding := by
  unfold Obligations.DigitsOfAnEncoding
  intro n w q hn hmax width hlen
  have hw := supportedW_iff.mpr width
  subst hlen
  refine ⟨fun i hi => coef_append_left hw q _ hi, fun t ht => ?_, fun i hi hend => ?_⟩
  · rw [encodeDigest, coef_append_right hw, coef_be16_of_lt_deriveV hw hn hmax _ ht]
  · obtain ⟨t, rfl⟩ := Nat.exists_eq_add_of_le ((Nat.le_add_right _ _).trans hi)
    rw [encodeDigest, coef_append_right hw]
    exact coef_be16_eq_zero hw hn hmax (checksum_toNat hw hn hmax q) (Nat.le_of_add_le_add_left hi)
      (digit_past_digest_fits hw hend)

end Sys2Proof
end

section
/-! SUPPORT. A walk as a whole: how it splits (42_chain_walk.md R143), the states it passes through (R144 to R146), and
the turns of the sequencer that take it from an issued command to its outcome. -/

set_option autoImplicit false

namespace Sys2Proof.Machine

open Sys2Proof

/-- The steps of a walk of a + b are those of a walk of a and then of b from the counter reached (R143). -/
theorem walk_add (hash : Bytes → Bytes) (ident : Bytes) (q : Word) (i : Half) (x : Bytes) (j0 a b : Nat) :
    walk hash ident q i x j0 (a + b) = walk hash ident q i (walk hash ident q i x j0 a) (j0 + a) b := by
  induction b with
  | zero => rfl
  | succ b ih => rw [← Nat.add_assoc a b 1, walk_succ_last, walk_succ_last, ih, Nat.add_assoc]

/-- The counter of a chain step is a byte (30_encoding.md R85). -/
theorem chainStep_ofNat_toNat (hash : Bytes → Bytes) (value ident : Bytes) (q : Word) (i : Half) (j : Nat) :
    chainStep hash value ident q i (BitVec.ofNat 8 j).toNat = chainStep hash value ident q i j := by
  simp only [chainStep, BitVec.ofNat_toNat, BitVec.setWidth_eq]

/-! ## The states of a walk -/

/-- A walk of k steps from counter j0 that began in s, with m of its steps taken (R144, R145). -/
def walkProgress (j0 k m : Nat) (s : State) : State :=
  { s with
    phase := .walking
    hcount := s.hcount + BitVec.ofNat 32 m
    seqJ0 := BitVec.ofNat 8 j0
    seqK := BitVec.ofNat 8 k
    seqJ := BitVec.ofNat 8 (j0 + m)
    seqLeft := BitVec.ofNat 8 (k - m)
    seqTmp := walk s.hash s.iBuf s.leafQ s.chainI s.vBuf j0 m }

@[simp] theorem walkProgress_phase (j0 k m : Nat) (s : State) : (walkProgress j0 k m s).phase = .walking := rfl
@[simp] theorem walkProgress_busy (j0 k m : Nat) (s : State) : (walkProgress j0 k m s).busy = s.busy := rfl
@[simp] theorem walkProgress_agenda (j0 k m : Nat) (s : State) : (walkProgress j0 k m s).agenda = s.agenda := rfl
@[simp] theorem walkProgress_seqLeft (j0 k m : Nat) (s : State) :
    (walkProgress j0 k m s).seqLeft = BitVec.ofNat 8 (k - m) := rfl

theorem loadWalk_eq_walkProgress (j0 k : Nat) (s : State) :
    { loadWalk j0 k s with phase := .walking } = walkProgress j0 k 0 s := by
  simp [loadWalk, walkProgress, walk]

/-- A walk of no step finishes in the dispatch step, any other starts with none of its steps taken (R144). -/
theorem startWalk_eq (j0 k : Nat) (s : State) :
    startWalk j0 k s = if k = 0 then finishWalk (walkProgress j0 k 0 s) else walkProgress j0 k 0 s := by
  obtain ⟨hk, h⟩ | ⟨hk, h⟩ := startWalk_cases j0 k s
  · rw [h, if_pos hk, ← loadWalk_eq_walkProgress]
    rfl
  · rw [h, if_neg hk, loadWalk_eq_walkProgress]

/-- One invocation of H is one step further (R145). -/
theorem hashOnce_walkProgress {j0 k m : Nat} (s : State) (hm : m < k) :
    hashOnce (walkProgress j0 k m s) = walkProgress j0 k (m + 1) s := by
  have count : s.hcount + BitVec.ofNat 32 m + 1 = s.hcount + BitVec.ofNat 32 (m + 1) := by
    rw [BitVec.ofNat_add, BitVec.add_assoc]
    rfl
  have counter : BitVec.ofNat 8 (j0 + m) + 1 = BitVec.ofNat 8 (j0 + (m + 1)) := by
    rw [← Nat.add_assoc, BitVec.ofNat_add (j0 + m) 1]
    rfl
  have left : BitVec.ofNat 8 (k - m) - 1 = BitVec.ofNat 8 (k - (m + 1)) := by
    rw [show k - m = k - (m + 1) + 1 by omega, BitVec.ofNat_add]
    exact BitVec.add_sub_cancel _ _
  have value := chainStep_ofNat_toNat s.hash (walk s.hash s.iBuf s.leafQ s.chainI s.vBuf j0 m) s.iBuf s.leafQ s.chainI
    (j0 + m)
  rw [← walk_succ_last] at value
  simp only [hashOnce, walkProgress, count, counter, left]
  congr 1

/-- A walk all of whose steps are taken finishes in its outcome (R146). -/
theorem finishWalk_walkProgress {j0 k : Nat} (s : State) (hj : j0 < 256) (hk : k < 256) :
    finishWalk (walkProgress j0 k k s) = walkOutcome j0 k s := by
  have word : ∀ x < 256, (BitVec.ofNat 8 x).setWidth 32 = BitVec.ofNat 32 x := fun x hx => by
    apply BitVec.eq_of_toNat_eq
    simp only [BitVec.toNat_setWidth, BitVec.toNat_ofNat]
    omega
  have result : walkResult (BitVec.ofNat 8 j0) (BitVec.ofNat 8 k) = BitVec.ofNat 32 j0 <<< 8 ||| BitVec.ofNat 32 k := by
    rw [walkResult, word j0 hj, word k hk]
  simp [finishWalk, walkProgress, walkOutcome, complete, result]

/-- A walking step takes the walk one step further, and finishes it when that was the last (R145). -/
theorem walkStep_walkProgress {j0 k m : Nat} (s : State) (hm : m < k) (hk : k < 256) :
    walkStep (walkProgress j0 k m s) =
      if m + 1 = k then finishWalk (walkProgress j0 k k s) else walkProgress j0 k (m + 1) s := by
  have last : BitVec.ofNat 8 (k - (m + 1)) = 0 ↔ m + 1 = k := by
    simp only [← BitVec.toNat_inj, BitVec.ofNat_eq_ofNat, BitVec.toNat_ofNat]
    omega
  rw [walkStep, hashOnce_walkProgress s hm, walkProgress_seqLeft, if_congr last rfl rfl]
  split
  · rename_i done
    rw [done]
  · rfl

/-! ## The walk commands -/

/-- What the four walks do once their checks have passed: StartWalk with their counters (R147 to R150). -/
theorem effectOf_of_walkCounters {i : Instr} {s : State} {j0 k : Nat} (counters : walkCounters i s = some (j0, k)) :
    effectOf i s = startWalk j0 k s := by
  cases i with
  | walk | walkFull | walkSign | walkVerify => cases counters; rfl
  | cfg | coefQ | coefE | cksum | encode => cases counters

/-- The digit of a chain is at most 2^w − 1. -/
theorem chainDigit_le (s : State) : s.chainDigit ≤ maxDigit s.cfgW := coef_le_maxDigit _ _ _

/-- A walk whose checks pass ends inside its chain (R147 to R150). -/
theorem walkCounters_le {i : Instr} {s : State} {j0 k : Nat} (passes : check i s = .ok)
    (counters : walkCounters i s = some (j0, k)) : j0 + k ≤ maxDigit s.cfgW := by
  have digit := chainDigit_le s
  obtain ⟨-, -, -, -, range⟩ := (check_eq_ok_iff i s).mp passes
  cases i with
  | walk =>
    cases counters
    simpa [operandRangeError] using range
  | walkFull | walkSign | walkVerify =>
    cases counters
    omega
  | cfg | coefQ | coefE | cksum | encode => cases counters

/-- The counters of a walk whose checks pass fit the bytes of SEQ_J0 and SEQ_K (10_state.md R43). -/
theorem walkCounters_lt {i : Instr} {s : State} {j0 k : Nat} (hw : supportedW s.cfgW = true) (passes : check i s = .ok)
    (counters : walkCounters i s = some (j0, k)) : j0 < 256 ∧ k < 256 := by
  have inside := walkCounters_le passes counters
  have byte := maxDigit_le hw
  omega

/-- Every walk is a command that needs CFGD = 1 (60_exceptions.md R195). -/
theorem needsConfig_of_walkCounters {i : Instr} {s : State} {j0 k : Nat} (counters : walkCounters i s = some (j0, k)) :
    needsConfig i = true := by
  cases i with
  | walk | walkFull | walkSign | walkVerify => rfl
  | cfg | coefQ | coefE | cksum | encode => cases counters

/-- The checks of WALK.SIGN and WALK.VERIFY (R149, R150). -/
theorem check_digit_walk {s : State} (cfgd : s.cfgd = true) (evalid : s.evalid = true)
    (chain : s.chainI.toNat < s.cfgP) : check .walkSign s = .ok ∧ check .walkVerify s = .ok := by
  simp [check_eq_ok_iff, unsupportedConfig, operandRangeError, cfgd, evalid, chain]

theorem check_issue (i : Instr) (val : Word) (s : State) : check i (issue val s) = check i s := by
  cases i <;> rfl

theorem walkCounters_issue (i : Instr) (val : Word) (s : State) : walkCounters i (issue val s) = walkCounters i s := by
  cases i <;> rfl

/-! ## Turns of the sequencer -/

theorem sequencerStep_of_idle {s : State} (phase : s.phase = .idle) : sequencerStep s = .next s := by
  simp only [sequencerStep, phase]

theorem sequencerStep_of_illegal {s : State} (phase : s.phase = .issued)
    (word : decode s.cmdLast = .error .illegalCommand) : sequencerStep s = .next (complete .illegalCommand s) := by
  simp only [sequencerStep, phase, dispatch, fetch, word]

theorem sequencerStep_of_command {s : State} {i : Instr} (phase : s.phase = .issued) (word : decode s.cmdLast = .ok i) :
    sequencerStep s = .next (checked i (effectOf i) s) := by
  simp only [sequencerStep, phase, dispatch, fetch, word, exec_eq_checked]

theorem sequencerStep_of_walking {s : State} (phase : s.phase = .walking) : sequencerStep s = .next (walkStep s) := by
  simp only [sequencerStep, phase]

theorem effectOf_agenda (i : Instr) (s : State) (agenda : List Event) :
    effectOf i { s with agenda := agenda } = { effectOf i s with agenda := agenda } := by
  have start : ∀ j0 k, startWalk j0 k { s with agenda := agenda } = { startWalk j0 k s with agenda := agenda } :=
    fun j0 k => by
      rw [startWalk_eq, startWalk_eq]
      split <;> rfl
  cases i with
  | walk | walkFull | walkSign | walkVerify => exact start _ _
  | cfg | coefQ | coefE | cksum | encode => rfl

theorem checked_effectOf_agenda (i : Instr) (s : State) (agenda : List Event) :
    checked i (effectOf i) { s with agenda := agenda } = { checked i (effectOf i) s with agenda := agenda } := by
  have same := check_agenda i s agenda
  by_cases passes : check i s = .ok
  · rw [checked_of_ok _ passes, checked_of_ok _ (same.trans passes), effectOf_agenda]
  · rw [checked_of_not_ok _ passes, checked_of_not_ok _ (by rwa [same]), same]
    rfl

theorem walkStep_agenda (s : State) (agenda : List Event) :
    walkStep { s with agenda := agenda } = { walkStep s with agenda := agenda } := by
  obtain ⟨last, h⟩ | ⟨more, h⟩ := walkStep_cases s
  · rw [h]
    exact if_pos last
  · rw [h]
    exact if_neg more

/-- A turn of the sequencer neither looks at what is to come nor changes it (00_scope.md R13). -/
theorem sequencerStep_agenda {s t : State} (agenda : List Event) (h : sequencerStep s = .next t) :
    sequencerStep { s with agenda := agenda } = .next { t with agenda := agenda } := by
  obtain ⟨phase, rfl⟩ | ⟨phase, word, rfl⟩ | ⟨i, phase, word, rfl⟩ | ⟨phase, rfl⟩ := sequencerStep_cases h
  · exact sequencerStep_of_idle phase
  · exact sequencerStep_of_illegal phase word
  · rw [← checked_effectOf_agenda]
    exact sequencerStep_of_command phase word
  · rw [← walkStep_agenda]
    exact sequencerStep_of_walking phase

/-- A run of k + 1 steps that is not cut short has a first step. -/
theorem runSteps_succ_cases {s t : State} {k : Nat} (h : runSteps (k + 1) s = .next t) :
    ∃ u, step s = .next u ∧ runSteps k u = .next t := by
  rw [runSteps_eq] at h
  cases first : step s with
  | next u => exact ⟨u, rfl, by rwa [first] at h⟩
  | fault | refused =>
    rw [first] at h
    cases h

/-- Where the sequencer alone gets in k turns, it gets in the k turns that stand first on an agenda. -/
theorem runSteps_turns {s t : State} {k : Nat} (rest : List Event) (empty : s.agenda = [])
    (h : runSteps k s = .next t) :
    runSteps k { s with agenda := List.replicate k .sequencer ++ rest } = .next { t with agenda := rest } := by
  induction k generalizing s with
  | zero =>
    cases h
    rfl
  | succ k ih =>
    obtain ⟨u, first, run⟩ := runSteps_succ_cases h
    rw [step_of_agenda_nil empty] at first
    have turn := fun agenda => sequencerStep_agenda agenda first
    have kept := congrArg State.agenda (Host.Outcome.next.inj (first.symm.trans (turn s.agenda)))
    have listed : step { s with agenda := List.replicate (k + 1) .sequencer ++ rest } =
        .next { u with agenda := List.replicate k .sequencer ++ rest } := turn _
    rw [runSteps_succ listed, ih (kept.trans empty) run]

/-! ## The run of a walk command -/

/-- A turn on a walk with steps to go takes it one step further, and finishes it when that was the last (R145). -/
theorem step_walkProgress {s : State} {j0 k m : Nat} (empty : s.agenda = []) (hm : m < k) (hk : k < 256) :
    step (walkProgress j0 k m s) =
      .next (if m + 1 = k then finishWalk (walkProgress j0 k k s) else walkProgress j0 k (m + 1) s) := by
  rw [step_of_agenda_nil (by simpa using empty), sequencerStep_of_walking (walkProgress_phase j0 k m s),
    walkStep_walkProgress s hm hk]

section

variable {s : State} {i : Instr} {j0 k : Nat} (phase : s.phase = .issued) (empty : s.agenda = [])
  (word : decode s.cmdLast = .ok i) (passes : check i s = .ok) (counters : walkCounters i s = some (j0, k))

include phase empty word passes counters

/-- The dispatch step of a walk command whose checks pass is StartWalk (R144). -/
theorem step_issued_walk : step s = .next (startWalk j0 k s) := by
  rw [step_of_agenda_nil empty, sequencerStep_of_command phase word, checked_of_ok _ passes,
    effectOf_of_walkCounters counters]

/-- After the dispatch step and m < k turns, m steps of the walk are taken (R145). -/
theorem runSteps_issued_walk_progress {m : Nat} (hk : k < 256) (hm : m < k) :
    runSteps (m + 1) s = .next (walkProgress j0 k m s) := by
  induction m with
  | zero =>
    rw [runSteps_one, step_issued_walk phase empty word passes counters, startWalk_eq, if_neg (by omega)]
  | succ m ih =>
    rw [runSteps_add 1 (ih (by omega)), runSteps_one, step_walkProgress empty (by omega) hk, if_neg (by omega)]

/-- After the dispatch step and k turns the walk has finished (R146). -/
theorem runSteps_issued_walk (hw : supportedW s.cfgW = true) : runSteps (1 + k) s = .next (walkOutcome j0 k s) := by
  obtain ⟨hj, hk⟩ := walkCounters_lt hw passes counters
  rw [← finishWalk_walkProgress s hj hk]
  cases k with
  | zero => rw [runSteps_one, step_issued_walk phase empty word passes counters, startWalk_eq, if_pos rfl]
  | succ m =>
    rw [Nat.add_comm, runSteps_add 1 (runSteps_issued_walk_progress phase empty word passes counters hk
      m.lt_succ_self), runSteps_one, step_walkProgress empty m.lt_succ_self hk, if_pos rfl]

end

/-- A host's write of a walk command to an idle block, then the turns its k steps take, leave the walk's outcome. -/
theorem runSteps_walk_command {s : State} {i : Instr} {j0 k : Nat} {val : Word} (rest : List Event)
    (free : s.busy = false) (hw : supportedW s.cfgW = true) (word : decode val = .ok i) (passes : check i s = .ok)
    (counters : walkCounters i s = some (j0, k)) :
    runSteps (1 + (1 + k))
        { s with agenda := .write (s.par.base + 0x000) 32 val :: (List.replicate (1 + k) .sequencer ++ rest) } =
      .next { walkOutcome j0 k (issue val s) with agenda := rest } := by
  have issued : step { s with
      agenda := .write (s.par.base + 0x000) 32 val :: (List.replicate (1 + k) .sequencer ++ rest) } =
      .next { issue val s with agenda := List.replicate (1 + k) .sequencer ++ rest } :=
    afterWrite_of_idle (target := .cmd) trivial val free _
  have walked : runSteps (1 + k) { issue val s with agenda := [] } =
      .next { walkOutcome j0 k (issue val s) with agenda := [] } :=
    runSteps_issued_walk (s := { issue val s with agenda := [] }) rfl rfl word
      (by rw [check_agenda, check_issue, passes]) ((walkCounters_issue i val s).trans counters) hw
  rw [Nat.add_comm, runSteps_succ issued, runSteps_turns rest rfl walked]

end Sys2Proof.Machine
end

section
/-! The statements about whole walks (42_chain_walk.md R143, R146, R151). -/

set_option autoImplicit false

namespace Sys2Proof.Machine

open Sys2Proof

/-- Settles O28: by induction on the second walk, from its last step. -/
theorem walksCompose : Obligations.WalksCompose := by
  unfold Obligations.WalksCompose
  intro hash ident q i x j0 a b
  exact (walk_add hash ident q i x j0 a b).symm

/-- Settles O29: the dispatch step loads the walk, and each turn after it takes the walk one step further. -/
theorem walkCommandReachesItsOutcome : Obligations.WalkCommandReachesItsOutcome := by
  unfold Obligations.WalkCommandReachesItsOutcome
  intro s i j0 k inv phase empty word passes counters
  have cfgd := ((check_eq_ok_iff i s).mp passes).1 (needsConfig_of_walkCounters counters)
  have hw : supportedW s.cfgW = true := (inv.config cfgd).1
  have busy : s.busy = true := inv.busyPhase.1.mpr (by simp [phase])
  obtain ⟨-, hk⟩ := walkCounters_lt hw passes counters
  refine ⟨fun m hm => ?_, runSteps_issued_walk phase empty word passes counters hw⟩
  cases m with
  | zero => exact ⟨s, runSteps_zero s, busy⟩
  | succ m =>
    exact ⟨_, runSteps_issued_walk_progress phase empty word passes counters hk hm,
      (walkProgress_busy j0 k m s).trans busy⟩

/-- Settles O31: the second walk begins at the value and the counter c that the first one reached. -/
theorem signThenVerifyReachesChainTop : Obligations.SignThenVerifyReachesChainTop := by
  unfold Obligations.SignThenVerifyReachesChainTop
  intro s _ free cfgd hw evalid chain c m events
  have split : c + (m - c) = m := Nat.add_sub_of_le (coef_le_maxDigit _ _ _)
  have passes := check_digit_walk cfgd evalid chain
  have sign := runSteps_walk_command (s := s) (i := .walkSign) (j0 := 0) (k := c) (val := 0x00000004)
    (.write (s.par.base + 0x000) 32 0x00000005 :: List.replicate (1 + (m - c)) .sequencer)
    free hw (by decide) passes.1 rfl
  have verify := runSteps_walk_command (s := walkOutcome 0 c (issue 0x00000004 s)) (i := .walkVerify) (j0 := c)
    (k := m - c) (val := 0x00000005) [] rfl hw (by decide) passes.2 rfl
  have length : events.length = 1 + (1 + c) + (1 + (1 + (m - c))) := by
    simp only [events, List.length_append, List.length_cons, List.length_replicate]
    omega
  rw [List.append_nil] at verify
  rw [length]
  refine ⟨_, (runSteps_add _ sign).trans verify, ?_, ?_, rfl, rfl, rfl, rfl, rfl, rfl⟩
  · have whole := walk_add s.hash s.iBuf s.leafQ s.chainI s.vBuf 0 c (m - c)
    rw [split, Nat.zero_add] at whole
    exact whole.symm
  · have whole : s.hcount + BitVec.ofNat 32 c + BitVec.ofNat 32 (m - c) = s.hcount + BitVec.ofNat 32 m := by
      rw [BitVec.add_assoc, ← BitVec.ofNat_add, split]
    exact whole

end Sys2Proof.Machine
end

section
/-! SUPPORT. A whole buffer written word by word, and read word by word (20_memory.md R65, R66, 30_encoding.md R95). -/

set_option autoImplicit false

namespace Sys2Proof.Machine

open Sys2Proof

/-- A byte string is its bytes in order. -/
theorem map_byteAt_range (b : Bytes) : (List.range b.length).map (byteAt b) = b := by
  apply List.ext_getElem
  · simp
  · intro a _ ha
    simp [byteAt, ha]

/-- What a buffer holds once the words `ms` of a string have been written to it. -/
def storeWords (bytes : Bytes) (ms : List Nat) (b : Bytes) : Bytes :=
  ms.foldl (fun b m => setBufferWord b m (bufferWord bytes m)) b

@[simp] theorem storeWords_nil (bytes b : Bytes) : storeWords bytes [] b = b := rfl

@[simp] theorem storeWords_cons (bytes b : Bytes) (m : Nat) (ms : List Nat) :
    storeWords bytes (m :: ms) b = storeWords bytes ms (setBufferWord b m (bufferWord bytes m)) := rfl

@[simp] theorem storeWords_length (bytes b : Bytes) (ms : List Nat) : (storeWords bytes ms b).length = b.length := by
  induction ms generalizing b with
  | nil => rfl
  | cons m ms ih => rw [storeWords_cons, ih, setBufferWord_length]

/-- The bytes of the words written are the string's, the others are as before. -/
theorem byteAt_storeWords (bytes b : Bytes) (ms : List Nat) (a : Nat) :
    byteAt (storeWords bytes ms b) a = if a / 4 ∈ ms ∧ a < b.length then byteAt bytes a else byteAt b a := by
  induction ms generalizing b with
  | nil => simp
  | cons m ms ih =>
    have written : wordByte (bufferWord bytes (a / 4)) (a % 4) = byteAt bytes a := by
      rw [wordByte_bufferWord bytes (a / 4) (a % 4) (by omega), Nat.div_add_mod]
    rw [storeWords_cons, ih, setBufferWord_length, byteAt_setBufferWord]
    grind

/-- Every byte of a buffer lies in one of its words, so all of them written leave exactly the string. -/
theorem storeWords_range {bytes b : Bytes} (length : bytes.length = b.length) :
    storeWords bytes (List.range (wordCount bytes.length)) b = bytes := by
  rw [← map_byteAt_range (storeWords _ _ _), storeWords_length, ← length]
  conv_rhs => rw [← map_byteAt_range bytes]
  refine List.map_congr_left fun a ha => ?_
  rw [List.mem_range] at ha
  rw [byteAt_storeWords, if_pos ⟨List.mem_range.mpr (by unfold wordCount; omega), by omega⟩]

/-- The bytes of the first words of a buffer (20_memory.md R65). -/
theorem flatMap_be32_bufferWord (b : Bytes) (count : Nat) :
    ((List.range count).map (bufferWord b)).flatMap be32 = (List.range (4 * count)).map (byteAt b) := by
  induction count with
  | zero => rfl
  | succ count ih =>
    have word : be32 (bufferWord b count) =
        [byteAt b (4 * count), byteAt b (4 * count + 1), byteAt b (4 * count + 2), byteAt b (4 * count + 3)] := by
      simp only [be32, wordByte_bufferWord b count _ (by decide : 0 < 4), wordByte_bufferWord b count 1 (by decide),
        wordByte_bufferWord b count 2 (by decide), wordByte_bufferWord b count 3 (by decide), Nat.add_zero]
    rw [List.range_succ, List.map_append, List.flatMap_append, ih, Nat.mul_succ]
    simp [List.range_succ, word]

/-- The words of a whole buffer give its bytes back: the padding of the last word is cut off (R66). -/
theorem bytesOfWords_bufferWord (b : Bytes) :
    bytesOfWords ((List.range (wordCount b.length)).map (bufferWord b)) b.length = b := by
  have padded : b.length ≤ 4 * wordCount b.length := by
    unfold wordCount
    omega
  rw [bytesOfWords, flatMap_be32_bufferWord, ← List.map_take, List.take_range, Nat.min_eq_left padded,
    map_byteAt_range]

end Sys2Proof.Machine
end

section
/-! SUPPORT. The sequencer's turn as a function of the state (00_scope.md R13), which looks at nothing of the host's,
and the state a command is left in once the sequencer has had turns enough (70_reset_and_hazards.md R220). -/

set_option autoImplicit false

namespace Sys2Proof.Machine

open Sys2Proof

/-! ## The turn -/

/-- The state a turn of the sequencer leaves; there is always one. -/
def State.turn (s : State) : State :=
  match s.phase with
  | .idle => s
  | .issued =>
    match decode s.cmdLast with
    | .ok i => checked i (effectOf i) s
    | .error .illegalCommand => complete .illegalCommand s
  | .walking => walkStep s

theorem turn_of_idle {s : State} (phase : s.phase = .idle) : s.turn = s := by
  simp only [State.turn, phase]

theorem turn_of_command {s : State} {i : Instr} (phase : s.phase = .issued) (word : decode s.cmdLast = .ok i) :
    s.turn = checked i (effectOf i) s := by
  simp only [State.turn, phase, word]

theorem turn_of_illegal {s : State} (phase : s.phase = .issued) (word : decode s.cmdLast = .error .illegalCommand) :
    s.turn = complete .illegalCommand s := by
  simp only [State.turn, phase, word]

theorem turn_of_walking {s : State} (phase : s.phase = .walking) : s.turn = walkStep s := by
  simp only [State.turn, phase]

/-- The machine's turn of the sequencer is this one. -/
theorem sequencerStep_eq_turn (s : State) : sequencerStep s = .next s.turn := by
  cases phase : s.phase with
  | idle => rw [sequencerStep_of_idle phase, turn_of_idle phase]
  | walking => rw [sequencerStep_of_walking phase, turn_of_walking phase]
  | issued =>
    match word : decode s.cmdLast with
    | .ok i => rw [sequencerStep_of_command phase word, turn_of_command phase word]
    | .error .illegalCommand => rw [sequencerStep_of_illegal phase word, turn_of_illegal phase word]

theorem turn_agenda (s : State) (agenda : List Event) :
    State.turn { s with agenda := agenda } = { s.turn with agenda := agenda } :=
  Host.Outcome.next.inj
    ((sequencerStep_eq_turn _).symm.trans (sequencerStep_agenda agenda (sequencerStep_eq_turn s)))

/-- The build parameters are fixed (10_state.md R23). -/
@[simp] theorem turn_par (s : State) : s.turn.par = s.par := by
  have start (j0 k : Nat) : (startWalk j0 k s).par = s.par := by
    obtain ⟨-, h⟩ | ⟨-, h⟩ := startWalk_cases j0 k s <;> simp [h]
  obtain ⟨-, h⟩ | ⟨-, -, h⟩ | ⟨i, -, -, h⟩ | ⟨-, h⟩ := sequencerStep_cases (sequencerStep_eq_turn s)
  · rw [h]
  · rw [h, complete_par]
  · rw [h]
    by_cases passes : check i s = .ok
    · rw [checked_of_ok _ passes]
      cases i with
      | walk | walkFull | walkSign | walkVerify => exact start _ _
      | cfg | coefQ | coefE | cksum | encode => rfl
    · rw [checked_of_not_ok _ passes, complete_par]
  · obtain ⟨-, walk⟩ | ⟨-, walk⟩ := walkStep_cases s <;> simp [h, walk]

/-- BUSY = 1 exactly while SEQ_PHASE is not IDLE (10_state.md R44). -/
abbrev State.orderly (s : State) : Prop := s.busy = true ↔ s.phase ≠ .idle

theorem turn_orderly {s : State} (orderly : s.orderly) : s.turn.orderly := by
  have turn : step { s with agenda := [] } = .next { s.turn with agenda := [] } := by
    rw [step_of_agenda_nil rfl, sequencerStep_eq_turn, turn_agenda]
  exact busyExactlyWhileNotIdle { s with agenda := [] } { s.turn with agenda := [] } orderly turn

/-! ## The state without the host's part -/

/-- The state less what the host does with it: its schedule, the words it has read, the draws its reads used up. -/
def State.bare (s : State) : State := { s with draws := 0, agenda := [], readLog := [] }

theorem check_bare (i : Instr) (s : State) : check i s.bare = check i s := by
  cases i <;> rfl

theorem effectOf_bare (i : Instr) (s : State) : effectOf i s.bare = (effectOf i s).bare := by
  have start (j0 k : Nat) : startWalk j0 k s.bare = (startWalk j0 k s).bare := by
    rw [startWalk_eq, startWalk_eq]
    split <;> rfl
  cases i with
  | walk | walkFull | walkSign | walkVerify => exact start _ _
  | cfg | coefQ | coefE | cksum | encode => rfl

theorem walkStep_bare (s : State) : walkStep s.bare = (walkStep s).bare := by
  obtain ⟨last, h⟩ | ⟨more, h⟩ := walkStep_cases s
  · rw [h]
    exact if_pos last
  · rw [h]
    exact if_neg more

/-- The sequencer takes no notice of the host's part. -/
theorem turn_bare (s : State) : s.bare.turn = s.turn.bare := by
  obtain ⟨phase, h⟩ | ⟨phase, word, h⟩ | ⟨i, phase, word, h⟩ | ⟨phase, h⟩ :=
    sequencerStep_cases (sequencerStep_eq_turn s)
  · rw [h]
    exact turn_of_idle phase
  · rw [h]
    exact turn_of_illegal phase word
  · rw [h, turn_of_command (s := s.bare) phase word]
    by_cases passes : check i s = .ok
    · rw [checked_of_ok _ passes, checked_of_ok _ ((check_bare i s).trans passes), effectOf_bare]
    · rw [checked_of_not_ok _ passes, checked_of_not_ok _ (by rwa [check_bare]), check_bare]
      rfl
  · rw [h, ← walkStep_bare]
    exact turn_of_walking phase

/-! ## Turns one after another -/

theorem iterate_turn_of_idle {s : State} (phase : s.phase = .idle) (k : Nat) : State.turn^[k] s = s :=
  Function.iterate_fixed (turn_of_idle phase) k

theorem iterate_turn_agenda (s : State) (agenda : List Event) (k : Nat) :
    State.turn^[k] { s with agenda := agenda } = { State.turn^[k] s with agenda := agenda } :=
  (Function.Semiconj.iterate_right (f := fun s : State => { s with agenda := agenda })
    (fun s => (turn_agenda s agenda).symm) k s).symm

theorem iterate_turn_bare (s : State) (k : Nat) : State.turn^[k] s.bare = (State.turn^[k] s).bare :=
  (Function.Semiconj.iterate_right (f := State.bare) (fun s => (turn_bare s).symm) k s).symm

theorem iterate_turn_par (s : State) (k : Nat) : (State.turn^[k] s).par = s.par := by
  induction k with
  | zero => rfl
  | succ k ih => rw [Function.iterate_succ_apply', turn_par, ih]

theorem iterate_turn_orderly {s : State} (orderly : s.orderly) (k : Nat) : (State.turn^[k] s).orderly := by
  induction k with
  | zero => exact orderly
  | succ k ih =>
    rw [Function.iterate_succ_apply']
    exact turn_orderly ih

/-- There is one idle state that turns of the sequencer lead to. -/
theorem iterate_turn_idle_unique {s : State} {j k : Nat} (hj : (State.turn^[j] s).phase = .idle)
    (hk : (State.turn^[k] s).phase = .idle) : State.turn^[j] s = State.turn^[k] s := by
  have reached {a b : Nat} (ha : (State.turn^[a] s).phase = .idle) (hab : a ≤ b) :
      State.turn^[a] s = State.turn^[b] s := by
    rw [← Nat.sub_add_cancel hab, Function.iterate_add_apply, iterate_turn_of_idle ha]
  obtain h | h := Nat.le_total j k
  · exact reached hj h
  · exact (reached hk h).symm

/-- With an empty agenda the machine's steps are turns of the sequencer. -/
theorem runSteps_eq_iterate_turn {s : State} (empty : s.agenda = []) (k : Nat) :
    runSteps k s = .next (State.turn^[k] s) := by
  induction k generalizing s with
  | zero => rfl
  | succ k ih =>
    have kept : s.turn.agenda = [] := by
      rw [← empty, show s.turn = { s.turn with agenda := s.agenda } from turn_agenda s s.agenda]
    rw [runSteps_succ ((step_of_agenda_nil empty).trans (sequencerStep_eq_turn s)), ih kept,
      Function.iterate_succ_apply]

/-- Turns that stand first on an agenda are taken first. -/
theorem runSteps_replicate_turn (s : State) (k : Nat) (rest : List Event) :
    runSteps (k + rest.length) { s with agenda := List.replicate k .sequencer ++ rest } =
      runSteps rest.length { State.turn^[k] s with agenda := rest } := by
  have turns := runSteps_turns (s := { s with agenda := [] }) rest rfl (runSteps_eq_iterate_turn rfl k)
  rw [iterate_turn_agenda] at turns
  exact runSteps_add rest.length turns

/-! ## Commands completing -/

/-- The sequencer brings s to the idle state t in at most the 256 turns of the longest command (R219, R220). -/
def State.settlesIn (s t : State) : Prop := s.orderly ∧ t.phase = .idle ∧ ∃ k ≤ 255, State.turn^[1 + k] s = t

/-- A command that completes in its dispatch step. -/
theorem issue_settlesIn_checked {s : State} {i : Instr} (word : decode (encode i) = .ok i)
    (idle : (checked i (effectOf i) (issue (encode i) s)).phase = .idle) :
    (issue (encode i) s).settlesIn (checked i (effectOf i) (issue (encode i) s)) :=
  ⟨by simp [State.orderly], idle, 0, by decide, turn_of_command (issue_phase _ s) word⟩

/-- A command one of whose checks fails completes with its code and does nothing else (60_exceptions.md R198). -/
theorem issue_settlesIn_failed {s : State} {i : Instr} {e : ErrCode} (word : decode (encode i) = .ok i)
    (code : check i s = e) (fails : e ≠ .ok) :
    (issue (encode i) s).settlesIn (complete e (issue (encode i) s)) := by
  have failed : checked i (effectOf i) (issue (encode i) s) = complete e (issue (encode i) s) := by
    rw [← check_issue i (encode i)] at code
    rw [checked_of_not_ok _ (code ▸ fails), code]
  rw [← failed]
  exact issue_settlesIn_checked word (by rw [failed, complete_phase])

/-- ENCODE on a configured block (41_codec.md R129). -/
theorem issue_settlesIn_encode {s : State} (cfgd : s.cfgd = true) :
    (issue (encode .encode) s).settlesIn (encodeEffect (issue (encode .encode) s)) := by
  have passed : checked .encode (effectOf .encode) (issue (encode .encode) s) =
      encodeEffect (issue (encode .encode) s) :=
    checked_of_ok _ (check_encode_eq_ok_iff.mpr cfgd)
  rw [← passed]
  exact issue_settlesIn_checked (by decide) (by rw [passed]; rfl)

/-- A walk whose checks pass ends in its outcome (42_chain_walk.md R146). -/
theorem issue_settlesIn_walk {s : State} {i : Instr} {j0 k : Nat} (hw : supportedW s.cfgW = true)
    (word : decode (encode i) = .ok i) (passes : check i s = .ok) (counters : walkCounters i s = some (j0, k)) :
    (issue (encode i) s).settlesIn (walkOutcome j0 k (issue (encode i) s)) := by
  obtain ⟨-, hk⟩ := walkCounters_lt hw passes counters
  have run := runSteps_issued_walk (s := { issue (encode i) s with agenda := [] }) rfl rfl word
    (by rw [check_agenda, check_issue, passes])
    (show walkCounters i (issue (encode i) { s with agenda := [] }) = some (j0, k) by
      rw [walkCounters_issue, ← counters]; cases i <;> rfl) hw
  rw [runSteps_eq_iterate_turn rfl, iterate_turn_agenda] at run
  refine ⟨by simp [State.orderly], rfl, k, by omega, ?_⟩
  have whole := congrArg (fun t : State => { t with agenda := s.agenda }) (Host.Outcome.next.inj run)
  have turned := iterate_turn_agenda (issue (encode i) s) s.agenda (1 + k)
  exact turned.trans whole

end Sys2Proof.Machine
end

section
/-! SUPPORT. What a host program needs of an idle block to end so, said without a schedule, and why the run under any
schedule then ends so (00_scope.md R13, 30_encoding.md R95, 70_reset_and_hazards.md R220). -/

set_option autoImplicit false

namespace Sys2Proof.Machine

open Sys2Proof

/-! ## How a run ends -/

/-- The run ends only so, and where the schedule is fair it does end. -/
def HostRun.meets {α : Type} (r : HostRun α) (fair : Prop) (post : α → Bench → Prop) : Prop :=
  r.endsOnlyIn post ∧ (fair → r.finishesIn post)

theorem endsOnlyIn_mono {α : Type} {r : HostRun α} {post post' : α → Bench → Prop} (h : r.endsOnlyIn post)
    (weaker : ∀ a b, post a b → post' a b) : r.endsOnlyIn post' := by
  cases r with
  | finished a b => exact weaker a b h
  | polling b => trivial
  | stuck f => exact h
  | refused f => exact h

theorem finishesIn_mono {α : Type} {r : HostRun α} {post post' : α → Bench → Prop} (h : r.finishesIn post)
    (weaker : ∀ a b, post a b → post' a b) : r.finishesIn post' := by
  obtain ⟨a, b, rfl, hpost⟩ := h
  exact ⟨a, b, rfl, weaker a b hpost⟩

theorem meets_mono {α : Type} {r : HostRun α} {fair : Prop} {post post' : α → Bench → Prop} (h : r.meets fair post)
    (weaker : ∀ a b, post a b → post' a b) : r.meets fair post' :=
  ⟨endsOnlyIn_mono h.1 weaker, fun isFair => finishesIn_mono (h.2 isFair) weaker⟩

theorem meets_finished {α : Type} {fair : Prop} {post : α → Bench → Prop} {a : α} {b : Bench} (h : post a b) :
    (HostRun.finished a b).meets fair post :=
  ⟨h, fun _ => (finishesIn_finished post a b).mpr h⟩

/-- A run that is still polling is no end, and under a fair schedule there is none such. -/
theorem meets_polling {α : Type} {fair : Prop} {post : α → Bench → Prop} {b : Bench} (unfair : ¬ fair) :
    (HostRun.polling b).meets fair post :=
  ⟨trivial, fun isFair => absurd isFair unfair⟩

/-! ## What a program needs -/

/-- The block is between two commands. -/
abbrev State.between (s : State) : Prop := s.phase = .idle ∧ s.busy = false

/-- From a block in state s, with `hashes` hashes made by the host, the program ends only in `post`: the accesses are
made between commands, and each poll waits for the state its command leads to. -/
def HostProgram.reaches {α : Type} (post : α → State → Nat → Prop) : HostProgram α → State → Nat → Prop
  | .done result, s, hashes => post result s hashes
  | .write target val next, s, hashes =>
    s.between ∧ target.inWindow s.par ∧ next.reaches post (writeTarget target val s) hashes
  | .read target next, s, hashes =>
    s.between ∧ target.inWindow s.par ∧ (next (s.readTarget target)).reaches post s hashes
  | .poll next, s, hashes => ∃ t, s.settlesIn t ∧ next.reaches post t hashes
  | .hash input next, s, hashes => (next (s.hash input)).reaches post s (hashes + 1)

/-- A hash of the host's own gives the value of the block's H (45_host_sequences.md R170). -/
theorem reaches_hash {α : Type} {post : α → State → Nat → Prop} {s : State} {hashes : Nat} {input output : Bytes}
    {next : Bytes → HostProgram α} (value : s.hash input = output)
    (rest : (next output).reaches post s (hashes + 1)) : (HostProgram.hash input next).reaches post s hashes := by
  rwa [← value] at rest

/-! ## Accesses -/

theorem writeTarget_bare (target : Target) (val : Word) (s : State) :
    writeTarget target val s.bare = (writeTarget target val s).bare := by
  cases target <;> rfl

theorem readTarget_bare (target : Target) (s : State) : s.bare.readTarget target = s.readTarget target := by
  cases target <;> rfl

/-- A read of STATUS at any time: the turns before it are taken, and bit 0 of the word is BUSY (20_memory.md R79). -/
theorem access_status {α : Type} (turns : Nat → Nat) (b : Bench) (next : Bench → HostRun α) :
    ∃ b' : Bench, b.access turns (rd b.block.par .status) next = next b' ∧
      b'.block.bare = State.turn^[turns b.accesses] b.block.bare ∧ b'.word.getLsbD 0 = b'.block.busy ∧
      b'.accesses = b.accesses + 1 ∧ b'.hashes = b.hashes := by
  obtain ⟨s, taken⟩ : ∃ s, State.turn^[turns b.accesses] b.block = s := ⟨_, rfl⟩
  have par : b.block.par = s.par := by rw [← taken, iterate_turn_par]
  have event : step { s with agenda := [rd b.block.par .status] } =
      .next (hostRead .status { s with agenda := [] }) := by
    rw [par]
    exact step_read (target := .status) trivial []
  obtain ⟨val, draws, read, free, busy⟩ := hostRead_cases .status { s with agenda := [] }
  refine ⟨⟨hostRead .status { s with agenda := [] }, b.accesses + 1, b.hashes⟩, ?run, ?block, ?word, rfl, rfl⟩
  case run =>
    have run := runSteps_replicate_turn b.block (turns b.accesses) [rd b.block.par .status]
    rw [taken, List.length_singleton, runSteps_one, event] at run
    simp only [Bench.access, List.length_append, List.length_replicate, List.length_singleton, run]
  case block =>
    rw [iterate_turn_bare, taken, read]
    rfl
  case word =>
    rw [read]
    change val.getLsbD 0 = s.busy
    cases h : s.busy
    · rw [(free h).1]
      exact (statusWord_busy _).trans h
    · rw [(busy h).1]
      exact busyStatusWord_busy _ _

/-- A poll goes on with the state the command leads to, or has seen fewer turns than the command takes. -/
theorem pollStatus_cases {α : Type} {s t : State} {k m : Nat} {b : Bench} (turns : Nat → Nat)
    (next : Bench → HostRun α) (reads : Nat) (orderly : s.orderly) (idle : t.phase = .idle)
    (last : State.turn^[k] s = t) (more : m < k) (block : b.block.bare = State.turn^[m] s) :
    (∃ b', b.pollStatus turns next reads = next b' ∧ b'.block.bare = t ∧ b'.hashes = b.hashes) ∨
    (∃ b', b.pollStatus turns next reads = .polling b') ∧
      m + ((List.range reads).map fun i => turns (b.accesses + i)).sum < k := by
  induction reads generalizing m b with
  | zero => exact .inr ⟨⟨b, rfl⟩, more⟩
  | succ reads ih =>
    obtain ⟨b', run, block', word, accesses, hashes⟩ := access_status turns b fun b' =>
      if b'.word.getLsbD 0 then b'.pollStatus turns next reads else next b'
    rw [block, ← Function.iterate_add_apply] at block'
    rw [word] at run
    have orderly' : b'.block.bare.orderly := block' ▸ iterate_turn_orderly orderly _
    rw [Bench.pollStatus, run]
    cases busy : b'.block.busy with
    | false =>
      have done : b'.block.bare.phase = .idle := not_not.mp (mt orderly'.mpr (Bool.eq_false_iff.mp busy))
      refine .inl ⟨b', by simp, ?_, hashes⟩
      rw [block', ← last]
      exact iterate_turn_idle_unique (block' ▸ done) (last ▸ idle)
    | true =>
      have running : b'.block.bare.phase ≠ .idle := orderly'.mp busy
      have more' : turns b.accesses + m < k := by
        by_contra past
        refine running ?_
        rw [block', ← Nat.sub_add_cancel (not_lt.mp past), Function.iterate_add_apply, last,
          iterate_turn_of_idle idle, idle]
      have total : ((List.range (reads + 1)).map fun i => turns (b.accesses + i)).sum =
          turns b.accesses + ((List.range reads).map fun i => turns (b'.accesses + i)).sum := by
        simp [List.range_succ_eq_map, Function.comp_def, accesses, Nat.add_assoc, Nat.add_comm 1]
      rw [if_pos rfl, total, ← hashes, ← Nat.add_assoc, Nat.add_comm m]
      exact ih more' block'

/-! ## Runs -/

/-- Under any schedule a run ends only where its program reaches, and under a fair one it does. -/
theorem run_meets_of_reaches {α : Type} {post : α → State → Nat → Prop} (turns : Nat → Nat) (patience : Nat)
    (program : HostProgram α) {b : Bench} (reached : program.reaches post b.block.bare b.hashes) :
    (program.run turns patience b).meets (fairSchedule turns patience)
      fun result b' => post result b'.block.bare b'.hashes := by
  induction program generalizing b with
  | done result => exact meets_finished reached
  | write target val next ih =>
    obtain ⟨⟨idle, free⟩, window, rest⟩ := reached
    rw [run_write, access_write_of_idle turns target val b _ idle free (accessTarget_of_inWindow window),
      writeTarget_agenda]
    rw [writeTarget_bare] at rest
    exact ih (b := ⟨_, _, _⟩) rest
  | read target next ih =>
    obtain ⟨⟨idle, free⟩, window, rest⟩ := reached
    rw [run_read, access_read_of_idle turns target b _ idle free (accessTarget_of_inWindow window)]
    rw [readTarget_bare] at rest
    exact ih _ (b := ⟨_, _, _⟩) rest
  | poll next ih =>
    obtain ⟨t, ⟨orderly, idle, k, hk, last⟩, rest⟩ := reached
    rw [run_poll]
    obtain ⟨b', run, block, hashes⟩ | ⟨⟨b', run⟩, few⟩ := pollStatus_cases turns (next.run turns patience) patience
      orderly idle last (by omega : 0 < 1 + k) (b := b) rfl
    · rw [run]
      refine ih ?_
      rwa [block, hashes]
    · rw [run]
      refine meets_polling fun fair => ?_
      have enough := fair b.accesses
      omega
  | hash input next ih =>
    rw [run_hash]
    exact ih _ reached

/-- The same with an end that speaks of the bench. -/
theorem run_meets {α : Type} {post : α → Bench → Prop} (turns : Nat → Nat) (patience : Nat) {program : HostProgram α}
    {b : Bench} (reached : program.reaches
      (fun result t hashes => ∀ b' : Bench, b'.block.bare = t → b'.hashes = hashes → post result b')
      b.block.bare b.hashes) :
    (program.run turns patience b).meets (fairSchedule turns patience) post :=
  meets_mono (run_meets_of_reaches turns patience program reached) fun _ b' h => h b' rfl rfl

end Sys2Proof.Machine
end

section
/-! SUPPORT. What the parts of the host's programs reach: a whole buffer stored or loaded, the operands of a leaf, the
encoding of a digest, the walk of one chain (45_host_sequences.md R172, R176, R178). -/

set_option autoImplicit false

namespace Sys2Proof.Machine

open Sys2Proof

/-! ## States between commands -/

/-- The invariant of a block between two commands has no walk in it. -/
theorem inv_of_between {s : State} (between : s.between) (lengths : s.lengthsOk) (config : s.cfgOk)
    (encoding : s.evalidOk) (code : s.errOk) : s.Inv := by
  obtain ⟨idle, free⟩ := between
  exact ⟨lengths, by simp [State.busyOk, idle, free], config, encoding, code,
    fun walking => nomatch idle.symm.trans walking⟩

theorem between_of_inv {s : State} (inv : s.Inv) (idle : s.phase = .idle) : s.between :=
  ⟨idle, Bool.eq_false_iff.mpr fun busy => inv.busyPhase.1.mp busy idle⟩

@[simp] theorem writeTarget_par (target : Target) (val : Word) (s : State) :
    (writeTarget target val s).par = s.par := by cases target <;> rfl

/-- A write elsewhere than to CMD issues nothing. -/
theorem writeTarget_between {target : Target} (val : Word) {s : State} (data : target ≠ .cmd) (between : s.between) :
    (writeTarget target val s).between := by
  cases target with
  | cmd => exact absurd rfl data
  | _ => exact between

section Parts

variable {α : Type} {post : α → State → Nat → Prop} {hashes : Nat} {s : State}

/-! ## Buffers -/

/-- The writes of some words of a string, one after another. -/
theorem reaches_foldr_write {target : Nat → Target} (data : ∀ m, target m ≠ .cmd) (bytes : Bytes) (ms : List Nat)
    {next : HostProgram α} (between : s.between) (window : ∀ m ∈ ms, (target m).inWindow s.par)
    (rest : next.reaches post (ms.foldl (fun s m => writeTarget (target m) (bufferWord bytes m) s) s) hashes) :
    HostProgram.reaches post ((ms.map fun m => (target m, bufferWord bytes m)).foldr
      (fun store rest => .write store.1 store.2 rest) next) s hashes := by
  induction ms generalizing s with
  | nil => exact rest
  | cons m ms ih =>
    exact ⟨between, window m List.mem_cons_self, ih (writeTarget_between _ (data m) between)
      (fun m hm => by rw [writeTarget_par]; exact window m (List.mem_cons_of_mem _ hm)) rest⟩

theorem foldl_writeTarget_iBuf (bytes : Bytes) (ms : List Nat) (s : State) :
    ms.foldl (fun s m => writeTarget (.iBuf m) (bufferWord bytes m) s) s =
      { s with iBuf := storeWords bytes ms s.iBuf } := by
  induction ms generalizing s with
  | nil => rfl
  | cons m ms ih => exact ih _

theorem foldl_writeTarget_vBuf (bytes : Bytes) (ms : List Nat) (s : State) :
    ms.foldl (fun s m => writeTarget (.vBuf m) (bufferWord bytes m) s) s =
      { s with vBuf := storeWords bytes ms s.vBuf } := by
  induction ms generalizing s with
  | nil => rfl
  | cons m ms ih => exact ih _

/-- A write to QD_BUF makes E_BUF stale (10_state.md R30). -/
theorem foldl_writeTarget_qdBuf (bytes : Bytes) (ms : List Nat) (s : State) :
    ms.foldl (fun s m => writeTarget (.qdBuf m) (bufferWord bytes m) s) s =
      { s with qdBuf := storeWords bytes ms s.qdBuf, evalid := ms.isEmpty && s.evalid } := by
  induction ms generalizing s with
  | nil => simp
  | cons m ms ih =>
    refine (ih _).trans ?_
    simp [writeTarget]

theorem reaches_storeBuffer_iBuf {bytes : Bytes} {next : HostProgram α} (between : s.between)
    (held : s.iBuf.length = s.par.iLen) (length : bytes.length = s.par.iLen)
    (rest : next.reaches post { s with iBuf := bytes } hashes) :
    (storeBuffer .iBuf bytes next).reaches post s hashes := by
  refine reaches_foldr_write (by simp) bytes _ between (fun m hm => ?_) ?_
  · rwa [List.mem_range, length] at hm
  · rwa [foldl_writeTarget_iBuf, storeWords_range (length.trans held.symm)]

theorem reaches_storeBuffer_vBuf {bytes : Bytes} {next : HostProgram α} (between : s.between)
    (held : s.vBuf.length = s.par.n) (length : bytes.length = s.par.n)
    (rest : next.reaches post { s with vBuf := bytes } hashes) :
    (storeBuffer .vBuf bytes next).reaches post s hashes := by
  refine reaches_foldr_write (by simp) bytes _ between (fun m hm => ?_) ?_
  · rwa [List.mem_range, length] at hm
  · rwa [foldl_writeTarget_vBuf, storeWords_range (length.trans held.symm)]

theorem reaches_storeBuffer_qdBuf {bytes : Bytes} {next : HostProgram α} (between : s.between)
    (held : s.qdBuf.length = s.par.n) (length : bytes.length = s.par.n)
    (rest : next.reaches post { s with qdBuf := bytes, evalid := false } hashes) :
    (storeBuffer .qdBuf bytes next).reaches post s hashes := by
  have some : (List.range (wordCount bytes.length)).isEmpty = false := by
    have positive := s.par.nRange.1
    rw [List.isEmpty_eq_false_iff, Ne, List.range_eq_nil, length, wordCount]
    omega
  refine reaches_foldr_write (by simp) bytes _ between (fun m hm => ?_) ?_
  · rwa [List.mem_range, length] at hm
  · rwa [foldl_writeTarget_qdBuf, storeWords_range (length.trans held.symm), some, Bool.false_and]

/-- The reads of `count` words from word m on give the words as they are. -/
theorem reaches_loadWords {target : Nat → Target} {m count : Nat} {next : List Word → HostProgram α}
    (between : s.between) (window : ∀ i < m + count, (target i).inWindow s.par)
    (rest : (next ((List.range' m count).map fun i => s.readTarget (target i))).reaches post s hashes) :
    (loadWords target m count next).reaches post s hashes := by
  induction count generalizing m next with
  | zero => exact rest
  | succ count ih =>
    refine ⟨between, window m (by omega), ih (fun i hi => window i (by omega)) ?_⟩
    rwa [List.range'_succ, List.map_cons] at rest

theorem reaches_loadBuffer_vBuf {next : Bytes → HostProgram α} (between : s.between)
    (held : s.vBuf.length = s.par.n) (rest : (next s.vBuf).reaches post s hashes) :
    (loadBuffer .vBuf s.par.n next).reaches post s hashes := by
  refine reaches_loadWords between (fun i hi => by simpa [Target.inWindow] using hi) ?_
  have whole := bytesOfWords_bufferWord s.vBuf
  rw [held] at whole
  rw [← List.range_eq_range']
  exact whole.symm ▸ rest

/-! ## The operands of a leaf -/

/-- The block with I in I_BUF and q in LEAF_Q. -/
def State.identified (s : State) (ident : Bytes) (q : Word) : State := { s with iBuf := ident, leafQ := q }

theorem inv_identified {ident : Bytes} (q : Word) (inv : s.Inv) (idle : s.phase = .idle)
    (length : ident.length = s.par.iLen) : (s.identified ident q).Inv := by
  obtain ⟨-, rest⟩ := inv.lengths
  exact inv_of_between (between_of_inv (s := s) inv idle) ⟨length, rest⟩ inv.config inv.encoding inv.code

theorem reaches_loadIdentity {ident : Bytes} {q : Word} {next : HostProgram α} (inv : s.Inv) (idle : s.phase = .idle)
    (length : ident.length = s.par.iLen) (rest : next.reaches post (s.identified ident q) hashes) :
    (loadIdentity ident q next).reaches post s hashes := by
  have between := between_of_inv inv idle
  exact reaches_storeBuffer_iBuf between inv.lengths.1 length ⟨between, trivial, rest⟩

/-! ## The encoding of a digest -/

/-- The block with a digest in QD_BUF and encoded (41_codec.md R129). -/
def State.encoded (s : State) (digest : Bytes) : State :=
  encodeEffect (issue (encode .encode) { s with qdBuf := digest, evalid := false })

theorem inv_encoded {digest : Bytes} (inv : s.Inv) (cfgd : s.cfgd = true) (length : digest.length = s.par.n) :
    (s.encoded digest).Inv := by
  obtain ⟨iBuf, vBuf, -, -, seqTmp⟩ := inv.lengths
  refine inv_of_between ⟨rfl, rfl⟩ ⟨iBuf, vBuf, length, ?_, seqTmp⟩ inv.config (fun _ => ⟨cfgd, rfl⟩) (Nat.zero_le _)
  exact (encodeDigest_length _ _ _ _).trans (congrArg (· + 2) length)

/-- `wrbuf QD_BUF, Q ; exec ENCODE`, where the command leads to t. -/
theorem reaches_encode {digest : Bytes} {t : State} {next : HostProgram α} (inv : s.Inv) (idle : s.phase = .idle)
    (length : digest.length = s.par.n)
    (settles : (issue (encode .encode) { s with qdBuf := digest, evalid := false }).settlesIn t)
    (rest : next.reaches post t hashes) :
    (storeBuffer .qdBuf digest (execCommand .encode next)).reaches post s hashes := by
  have between := between_of_inv inv idle
  obtain ⟨-, -, qdBuf, -⟩ := inv.lengths
  exact reaches_storeBuffer_qdBuf between qdBuf length ⟨between, trivial, t, settles, rest⟩

/-- On a configured block ENCODE succeeds. -/
theorem reaches_encoded {digest : Bytes} {next : HostProgram α} (inv : s.Inv) (idle : s.phase = .idle)
    (cfgd : s.cfgd = true) (length : digest.length = s.par.n) (rest : next.reaches post (s.encoded digest) hashes) :
    (storeBuffer .qdBuf digest (execCommand .encode next)).reaches post s hashes :=
  reaches_encode inv idle length (issue_settlesIn_encode (s := { s with qdBuf := digest, evalid := false }) cfgd) rest

/-- The block with a digest in QD_BUF that ENCODE has refused (60_exceptions.md R195). -/
def State.unencoded (s : State) (digest : Bytes) : State :=
  complete .notConfigured (issue (encode .encode) { s with qdBuf := digest, evalid := false })

theorem check_of_not_configured {c : Instr} {s : State} (needs : needsConfig c = true) (cfgd : s.cfgd = false) :
    check c s = .notConfigured := by
  simp [check, needs, cfgd]

/-- On a block that is not configured ENCODE fails. -/
theorem reaches_unencoded {digest : Bytes} {next : HostProgram α} (inv : s.Inv) (idle : s.phase = .idle)
    (cfgd : s.cfgd = false) (length : digest.length = s.par.n)
    (rest : next.reaches post (s.unencoded digest) hashes) :
    (storeBuffer .qdBuf digest (execCommand .encode next)).reaches post s hashes := by
  have code : check .encode { s with qdBuf := digest, evalid := false } = .notConfigured :=
    check_of_not_configured rfl cfgd
  exact reaches_encode inv idle length (issue_settlesIn_failed (by decide) code nofun) rest

/-! ## The walk of one chain -/

/-- The host writes the 16 bits of a chain index (10_state.md R36). -/
theorem extractLsb'_ofNat (i : Nat) : (BitVec.ofNat 32 i).extractLsb' 0 16 = BitVec.ofNat 16 i := by
  apply BitVec.eq_of_toNat_eq
  simp only [BitVec.extractLsb'_toNat, BitVec.toNat_ofNat, Nat.shiftRight_zero]
  omega

/-- The block with the element x of chain i in its place. -/
def State.onChain (s : State) (i : Nat) (x : Bytes) : State := { s with vBuf := x, chainI := BitVec.ofNat 16 i }

/-- `wrbuf V_BUF, x ; wr CHAIN_I, i ; exec c`, where the command leads to t. -/
theorem reaches_walkOnBlock {c : Instr} {i : Nat} {x : Bytes} {t : State} {next : HostProgram α} (between : s.between)
    (held : s.vBuf.length = s.par.n) (length : x.length = s.par.n)
    (settles : (issue (encode c) (s.onChain i x)).settlesIn t) (rest : next.reaches post t hashes) :
    (walkOnBlock c i x next).reaches post s hashes := by
  refine reaches_storeBuffer_vBuf between held length ⟨between, trivial, between, trivial, t, ?_, rest⟩
  simp only [writeTarget, extractLsb'_ofNat]
  exact settles

/-- The block after a walk of k steps from counter j0 on chain i, on which x stood (42_chain_walk.md R146). -/
def State.chainEnd (s : State) (c : Instr) (i : Nat) (x : Bytes) (j0 k : Nat) : State :=
  walkOutcome j0 k (issue (encode c) (s.onChain i x))

theorem inv_chainEnd {x : Bytes} (c : Instr) (i j0 k : Nat) (inv : s.Inv) (length : x.length = s.par.n) :
    (s.chainEnd c i x j0 k).Inv := by
  obtain ⟨iBuf, -, qdBuf, eBuf, -⟩ := inv.lengths
  have walked := walk_length (hashBytes_length s.par.n) s.iBuf s.leafQ (BitVec.ofNat 16 i) x j0 k length
  exact inv_of_between ⟨rfl, rfl⟩ ⟨iBuf, walked, qdBuf, eBuf, walked⟩ inv.config inv.encoding (Nat.zero_le _)

/-- No check looks at the chain's element. -/
theorem check_onChain (c : Instr) (s : State) (i : Nat) (x : Bytes) :
    check c (s.onChain i x) = check c { s with chainI := BitVec.ofNat 16 i } := by
  cases c <;> rfl

end Parts

end Sys2Proof.Machine
end

section
/-! SUPPORT. The loops over the chains (45_host_sequences.md R172, R176, R178): what every chain's walk keeps of the
block, and what the loop collects and counts. -/

set_option autoImplicit false

namespace Sys2Proof.Machine

open Sys2Proof

/-! ## Blocks that chains were walked on -/

/-- The state less what the accesses and the walk of a chain write. -/
def State.unwalked (s : State) : State :=
  { s with
    cmdLast := 0, busy := false, done := false, err := 0, result := 0, hcount := 0, chainI := 0, vBuf := []
    phase := .idle, seqJ0 := 0, seqK := 0, seqJ := 0, seqLeft := 0, seqTmp := [] }

/-- s is the idle block s₀ after walks of `steps` steps in all. -/
structure State.WalkedTo (s₀ : State) (steps : Nat) (s : State) : Prop where
  inv : s.Inv
  idle : s.phase = .idle
  kept : s.unwalked = s₀.unwalked
  count : s.hcount = s₀.hcount + BitVec.ofNat 32 steps
  /-- No walk has failed. -/
  code : s₀.err = 0 → s.err = 0

section

variable {s₀ s : State} {steps : Nat}

section

variable (walked : s₀.WalkedTo steps s)
include walked

theorem State.WalkedTo.par : s.par = s₀.par := (congrArg State.par walked.kept :)
theorem State.WalkedTo.cfgd : s.cfgd = s₀.cfgd := (congrArg State.cfgd walked.kept :)
theorem State.WalkedTo.cfgW : s.cfgW = s₀.cfgW := (congrArg State.cfgW walked.kept :)
theorem State.WalkedTo.evalid : s.evalid = s₀.evalid := (congrArg State.evalid walked.kept :)
theorem State.WalkedTo.overrun : s.overrun = s₀.overrun := (congrArg State.overrun walked.kept :)
theorem State.WalkedTo.leafQ : s.leafQ = s₀.leafQ := (congrArg State.leafQ walked.kept :)
theorem State.WalkedTo.iBuf : s.iBuf = s₀.iBuf := (congrArg State.iBuf walked.kept :)
theorem State.WalkedTo.qdBuf : s.qdBuf = s₀.qdBuf := (congrArg State.qdBuf walked.kept :)
theorem State.WalkedTo.eBuf : s.eBuf = s₀.eBuf := (congrArg State.eBuf walked.kept :)

end

theorem walkedTo_zero (inv : s₀.Inv) (idle : s₀.phase = .idle) : s₀.WalkedTo 0 s₀ :=
  ⟨inv, idle, rfl, (BitVec.add_zero _).symm, id⟩

@[simp] theorem chainEnd_err (s : State) (c : Instr) (i : Nat) (x : Bytes) (j0 k : Nat) :
    (s.chainEnd c i x j0 k).err = 0 := rfl

/-- One more chain. -/
theorem walkedTo_chainEnd {x : Bytes} (c : Instr) (i j0 k : Nat) (walked : s₀.WalkedTo steps s)
    (length : x.length = s₀.par.n) : s₀.WalkedTo (steps + k) (s.chainEnd c i x j0 k) := by
  refine ⟨inv_chainEnd c i j0 k walked.inv (by rw [length, walked.par]), rfl, walked.kept, ?_, fun _ => rfl⟩
  rw [BitVec.ofNat_add, ← BitVec.add_assoc, ← walked.count]
  rfl

/-- The checks of a command depend on what the walks keep, and CHAIN_I. -/
theorem check_of_unwalked_eq (c : Instr) (chainI : Half) (kept : s.unwalked = s₀.unwalked) :
    check c { s with chainI := chainI } = check c { s₀ with chainI := chainI } := by
  have same (s : State) : check c { s with chainI := chainI } = check c { s.unwalked with chainI := chainI } := by
    cases c <;> rfl
  rw [same s, same s₀, kept]

/-- So do the counters of a walk. -/
theorem walkCounters_of_unwalked_eq (c : Instr) (chainI : Half) (kept : s.unwalked = s₀.unwalked) :
    walkCounters c { s with chainI := chainI } = walkCounters c { s₀ with chainI := chainI } := by
  have same (s : State) :
      walkCounters c { s with chainI := chainI } = walkCounters c { s.unwalked with chainI := chainI } := by
    cases c <;> rfl
  rw [same s, same s₀, kept]

end

/-! ## Loops -/

section Loops

variable {α : Type} {post : α → State → Nat → Prop} {hashes : Nat}

/-- The part of each of the first p chains in a loop makes `value i x` of element x of chain i, in `count i` hashes of
the block. -/
def WalksChains (post : α → State → Nat → Prop) (hashes : Nat) (s₀ : State) (p : Nat)
    (body : Nat → Bytes → (Bytes → HostProgram α) → HostProgram α) (value : Nat → Bytes → Bytes) (count : Nat → Nat) :
    Prop :=
  ∀ i < p, ∀ (x : Bytes) (next : Bytes → HostProgram α) (s : State) (steps : Nat), x.length = s₀.par.n →
    s₀.WalkedTo steps s →
    (∀ t, s₀.WalkedTo (steps + count i) t → (next (value i x)).reaches post t hashes) →
    (body i x next).reaches post s hashes

/-- A loop over the chains collects the values and adds up the counts. -/
theorem reaches_forChains {s₀ s : State} {p steps first : Nat}
    {body : Nat → Bytes → (Bytes → HostProgram α) → HostProgram α} {value : Nat → Bytes → Bytes} {count : Nat → Nat}
    {xs : List Bytes} {next : List Bytes → HostProgram α} (walks : WalksChains post hashes s₀ p body value count)
    (chains : first + xs.length ≤ p) (lengths : ∀ x ∈ xs, x.length = s₀.par.n) (walked : s₀.WalkedTo steps s)
    (rest : ∀ t, s₀.WalkedTo (steps + ((List.range' first xs.length).map count).sum) t →
      (next (xs.mapIdx fun i x => value (first + i) x)).reaches post t hashes) :
    (forChains body first xs next).reaches post s hashes := by
  induction xs generalizing s steps first next with
  | nil => exact rest s walked
  | cons x xs ih =>
    rw [List.length_cons] at chains
    refine walks first (by omega) x _ s steps (lengths x List.mem_cons_self) walked fun t walked' => ?_
    refine ih (by omega) (fun y hy => lengths y (List.mem_cons_of_mem _ hy)) walked' fun u walked'' => ?_
    have collected := rest u (by
      rwa [List.length_cons, List.range'_succ, List.map_cons, List.sum_cons, ← Nat.add_assoc])
    simpa only [List.mapIdx_cons, Nat.add_zero, Nat.add_assoc, Nat.add_comm 1] using collected

/-- A loop over all p chains, from the block it finds. -/
theorem reaches_forChains_all {s₀ : State} {p : Nat} {body : Nat → Bytes → (Bytes → HostProgram α) → HostProgram α}
    {value : Nat → Bytes → Bytes} {count : Nat → Nat} {xs : List Bytes} {next : List Bytes → HostProgram α}
    (walks : WalksChains post hashes s₀ p body value count) (inv : s₀.Inv) (idle : s₀.phase = .idle)
    (chains : xs.length = p) (lengths : ∀ x ∈ xs, x.length = s₀.par.n)
    (rest : ∀ t, s₀.WalkedTo ((List.range p).map count).sum t → (next (xs.mapIdx value)).reaches post t hashes) :
    (forChains body 0 xs next).reaches post s₀ hashes := by
  refine reaches_forChains walks (by omega) lengths (walkedTo_zero inv idle) fun t walked => ?_
  rw [Nat.zero_add, ← List.range_eq_range', chains] at walked
  simpa only [Nat.zero_add] using rest t walked

/-- What a walk from counter `start i` makes of element x of chain i in `count i` steps. -/
def State.walkedElement (s : State) (start count : Nat → Nat) (i : Nat) (x : Bytes) : Bytes :=
  walk s.hash s.iBuf s.leafQ (BitVec.ofNat 16 i) x (start i) (count i)

section

variable {s₀ s : State} {c : Instr} {p i steps : Nat} {start count : Nat → Nat} {x : Bytes}

/-- The walk of one chain, when its checks pass. -/
theorem reaches_walkOnBlock_chainEnd {next : HostProgram α} {j0 k : Nat} (word : decode (encode c) = .ok c)
    (passes : check c { s₀ with chainI := BitVec.ofNat 16 i } = .ok)
    (counters : walkCounters c { s₀ with chainI := BitVec.ofNat 16 i } = some (j0, k)) (walked : s₀.WalkedTo steps s)
    (length : x.length = s₀.par.n) (rest : next.reaches post (s.chainEnd c i x j0 k) hashes) :
    (walkOnBlock c i x next).reaches post s hashes := by
  obtain ⟨-, held, -⟩ := walked.inv.lengths
  rw [← check_of_unwalked_eq c _ walked.kept, ← check_onChain c s i x] at passes
  rw [← walkCounters_of_unwalked_eq c _ walked.kept,
    show walkCounters c _ = walkCounters c (s.onChain i x) by cases c <;> rfl] at counters
  have cfgd : s.cfgd = true := ((check_eq_ok_iff _ _).mp passes).1 (needsConfig_of_walkCounters counters)
  exact reaches_walkOnBlock (between_of_inv walked.inv walked.idle) held (by rw [length, walked.par])
    (issue_settlesIn_walk (walked.inv.config cfgd).1 word passes counters) rest

/-- The value in V_BUF after the walk of a chain is the element walked. -/
theorem vBuf_chainEnd (walked : s₀.WalkedTo steps s) :
    (s.chainEnd c i x (start i) (count i)).vBuf = s₀.walkedElement start count i x := by
  rw [State.walkedElement, State.hash, ← walked.par, ← walked.iBuf, ← walked.leafQ]
  rfl

/-- `rdbuf V_BUF` after the walk of a chain, whatever was read in between. -/
theorem reaches_loadBuffer_chainEnd {next : Bytes → HostProgram α} (walked : s₀.WalkedTo steps s)
    (length : x.length = s₀.par.n)
    (rest : ∀ t, s₀.WalkedTo (steps + count i) t → (next (s₀.walkedElement start count i x)).reaches post t hashes) :
    (loadBuffer .vBuf s₀.par.n next).reaches post (s.chainEnd c i x (start i) (count i)) hashes := by
  have ended := walkedTo_chainEnd c i (start i) (count i) walked length
  obtain ⟨-, held, -⟩ := ended.inv.lengths
  rw [← walked.par]
  refine reaches_loadBuffer_vBuf (s := s.chainEnd c i x (start i) (count i)) (between_of_inv ended.inv ended.idle)
    held ?_
  rw [vBuf_chainEnd walked]
  exact rest _ ended

/-- The loops of public-key derivation and of signing (R172, R176). -/
theorem walksChains_walkOnBlock (word : decode (encode c) = .ok c)
    (passes : ∀ i < p, check c { s₀ with chainI := BitVec.ofNat 16 i } = .ok)
    (counters : ∀ i < p, walkCounters c { s₀ with chainI := BitVec.ofNat 16 i } = some (start i, count i)) :
    WalksChains post hashes s₀ p (fun i x next => walkOnBlock c i x (loadBuffer .vBuf s₀.par.n next))
      (s₀.walkedElement start count) count :=
  fun i hi _ _ _ _ length walked rest =>
    reaches_walkOnBlock_chainEnd word (passes i hi) (counters i hi) walked length
      (reaches_loadBuffer_chainEnd walked length rest)

end

/-- The digit of E_BUF for chain i, and the steps it leaves to the top (R149, R150). -/
def State.digit (s : State) (i : Nat) : Nat := coef s.cfgW s.eBuf i

def State.digitsLeft (s : State) (i : Nat) : Nat := maxDigit s.cfgW - s.digit i

/-- The counters of the two walks by a digit. -/
theorem walkCounters_digit {i : Nat} (s : State) (index : (BitVec.ofNat 16 i).toNat = i) :
    walkCounters .walkSign { s with chainI := BitVec.ofNat 16 i } = some (0, s.digit i) ∧
    walkCounters .walkVerify { s with chainI := BitVec.ofNat 16 i } = some (s.digit i, s.digitsLeft i) := by
  simp only [walkCounters, State.chainDigit, index, State.digitsLeft, State.digit, and_self]

/-! ## Verification -/

section

variable {post : Bool → State → Nat → Prop}

/-- Bits 15 to 8 of STATUS are ERR (10_state.md R26). -/
theorem extractLsb'_statusWord (s : State) : s.statusWord.extractLsb' 8 8 = s.err := by
  obtain ⟨-, -, -, -, -, -, code, -⟩ := statusFields.1 s
  exact code

/-- `rd STATUS -> s ; if s[15:8] ≠ 0 { … }` after a command looks at the command's code. -/
theorem reaches_read_status {s : State} {failed passed : HostProgram Bool} (between : s.between)
    (rest : (if s.err ≠ 0 then failed else passed).reaches post s hashes) :
    (HostProgram.read .status fun status => if status.extractLsb' 8 8 ≠ 0 then failed else passed).reaches post s
      hashes := by
  rw [← extractLsb'_statusWord s] at rest
  exact ⟨between, trivial, rest⟩

theorem code_eq_zero_iff {e : ErrCode} : e.code = 0 ↔ e = .ok := by
  cases e <;> decide

/-- A chain of verification on which a check of WALK.VERIFY fails ends in false (R179). -/
theorem reaches_verifyChain_failed {s : State} {i : Nat} {y : Bytes} {e : ErrCode}
    {next : Bytes → HostProgram Bool} (between : s.between) (held : s.vBuf.length = s.par.n)
    (length : y.length = s.par.n) (code : check .walkVerify { s with chainI := BitVec.ofNat 16 i } = e)
    (fails : e ≠ .ok) (rest : ∀ t, t.err = e.code → post false t hashes) :
    (verifyChain s.par.n i y next).reaches post s hashes := by
  refine reaches_walkOnBlock between held length
    (issue_settlesIn_failed (by decide) ((check_onChain _ s i y).trans code) fails) (reaches_read_status ⟨rfl, rfl⟩ ?_)
  rw [complete_err, if_pos (mt code_eq_zero_iff.mp fails)]
  exact rest _ rfl

/-- The loop of verification (R178), as far as an error of the block may only end it where false is an answer. -/
theorem walksChains_verifyChain {s₀ : State} {p : Nat} {start count : Nat → Nat}
    (counters : ∀ i < p, walkCounters .walkVerify { s₀ with chainI := BitVec.ofNat 16 i } = some (start i, count i))
    (fails : ∀ i < p, check .walkVerify { s₀ with chainI := BitVec.ofNat 16 i } ≠ .ok → ∀ t, post false t hashes) :
    WalksChains post hashes s₀ p (verifyChain s₀.par.n) (s₀.walkedElement start count) count := by
  intro i hi x next s steps length walked rest
  by_cases passes : check .walkVerify { s₀ with chainI := BitVec.ofNat 16 i } = .ok
  · refine reaches_walkOnBlock_chainEnd (by decide) passes (counters i hi) walked length
      (reaches_read_status ⟨rfl, rfl⟩ ?_)
    rw [chainEnd_err, if_neg (not_not.mpr rfl)]
    exact reaches_loadBuffer_chainEnd walked length rest
  · obtain ⟨-, held, -⟩ := walked.inv.lengths
    rw [← walked.par] at length ⊢
    exact reaches_verifyChain_failed (between_of_inv walked.inv walked.idle) held length
      (check_of_unwalked_eq _ _ walked.kept) passes fun t _ => fails i hi passes t

end

end Loops

end Sys2Proof.Machine
end

section
/-! SUPPORT. Key generation, public-key derivation and signing run on a block (45_host_sequences.md R171, R172, R176):
how each run ends, with the hashes of the block and of the host (R181). `h` is the host's view of the block, its H, N
and loaded w. -/

set_option autoImplicit false

namespace Sys2Proof.Machine

open Sys2Proof

/-- The invariant says nothing of the host's part. -/
theorem inv_bare {s : State} : s.bare.Inv ↔ s.Inv :=
  ⟨fun ⟨lengths, busyPhase, config, encoding, code, walking⟩ => ⟨lengths, busyPhase, config, encoding, code, walking⟩,
    fun ⟨lengths, busyPhase, config, encoding, code, walking⟩ => ⟨lengths, busyPhase, config, encoding, code, walking⟩⟩

/-- Walks on a configured block leave it ready for the next operation. -/
theorem State.WalkedTo.ready {s₀ s : State} {steps : Nat} (walked : s₀.WalkedTo steps s.bare) (cfgd : s₀.cfgd = true) :
    s.ready s₀.cfgW :=
  ⟨inv_bare.mp walked.inv, walked.idle, walked.cfgd.trans cfgd, walked.cfgW⟩

/-- The index of a chain fits the 16 bits of CHAIN_I (40_control.md R106). -/
theorem toNat_ofNat_chain {n w i : Nat} (range : 1 ≤ n ∧ n ≤ 257) (hw : supportedW w = true) (hi : i < deriveP n w) :
    (BitVec.ofNat 16 i).toNat = i := by
  have bound := derivedParametersStayInRange.1 n w range.1 range.2 (supportedW_cases hw)
  rw [BitVec.toNat_ofNat]
  omega

/-! ## The host's functions -/

/-- The block's hashes of signing (R181). -/
theorem sum_coef_eq_signCost (w : Nat) (e : Bytes) (p : Nat) :
    ((List.range p).map fun i => coef w e i).sum = signCost w e p := by
  induction p with
  | zero => rfl
  | succ p ih => rw [List.range_succ, List.map_append, List.sum_append, ih, signCost, List.map_singleton,
      List.sum_singleton]

/-- The block's hashes of verification (R181). -/
theorem sum_coef_eq_verifyCost (w : Nat) (e : Bytes) (p : Nat) :
    ((List.range p).map fun i => maxDigit w - coef w e i).sum = verifyCost w e p := by
  induction p with
  | zero => rfl
  | succ p ih => rw [List.range_succ, List.map_append, List.sum_append, ih, verifyCost, List.map_singleton,
      List.sum_singleton]

theorem length_walkChains (h : HostParams) (ident : Bytes) (q : Word) (start count : Nat → Nat) (xs : List Bytes) :
    (walkChains h ident q start count xs).length = xs.length :=
  List.length_mapIdx

/-- Walking every chain on from where a walk of it ended (R143). -/
theorem walkChains_walkChains (h : HostParams) (ident : Bytes) (q : Word) (first second : Nat → Nat)
    (xs : List Bytes) :
    walkChains h ident q first second (walkChains h ident q (fun _ => 0) first xs) =
      walkChains h ident q (fun _ => 0) (fun i => first i + second i) xs := by
  simp only [walkChains, List.mapIdx_mapIdx, walk_add, Nat.zero_add, Function.comp_def]

/-- Every element walked is as long as H's output (R142). -/
theorem length_of_mem_walkChains {h : HostParams} {ident : Bytes} {q : Word} {start count : Nat → Nat}
    {xs : List Bytes} {n : Nat} (hash : ∀ x, (h.hash x).length = n) (lengths : ∀ x ∈ xs, x.length = n) :
    ∀ y ∈ walkChains h ident q start count xs, y.length = n := by
  intro y hy
  obtain ⟨i, hi, rfl⟩ := List.mem_mapIdx.mp hy
  exact walk_length hash _ _ _ _ _ _ (lengths _ (List.getElem_mem hi))

theorem wellFormed_iff {sig : Signature} {n p : Nat} :
    sig.wellFormed n p = true ↔ sig.c.length = n ∧ sig.y.length = p ∧ ∀ y ∈ sig.y, y.length = n := by
  simp [Signature.wellFormed, and_assoc]

theorem verify_of_wellFormed {h : HostParams} {message : Bytes} {sig : Signature} {ident : Bytes} {q : Word}
    {key : Bytes} (wellFormed : sig.wellFormed h.n h.p = true) :
    verify h message sig ident q key =
      (publicDigest h ident q (walkChains h ident q
        (fun i => coef h.w (h.encodedHash (messageDigest h ident q sig.c message)) i)
        (fun i => maxDigit h.w - coef h.w (h.encodedHash (messageDigest h ident q sig.c message)) i) sig.y) == key) :=
  if_pos wellFormed

/-- A signature whose elements are those of a key walked by the digits of E is well formed, and its chains' tops are
those of the public key (R184). -/
theorem verify_walkChains {h : HostParams} {message ident c : Bytes} {q : Word} {xs : List Bytes}
    (hash : ∀ x, (h.hash x).length = h.n) (randomizer : c.length = h.n) (chains : xs.length = h.p)
    (lengths : ∀ x ∈ xs, x.length = h.n) :
    let sig : Signature := ⟨c, walkChains h ident q (fun _ => 0)
      (fun i => coef h.w (h.encodedHash (messageDigest h ident q c message)) i) xs⟩
    sig.wellFormed h.n h.p = true ∧ verify h message sig ident q (publicKey h ident q xs) = true := by
  intro sig
  have wellFormed : sig.wellFormed h.n h.p = true :=
    wellFormed_iff.mpr ⟨randomizer, (length_walkChains ..).trans chains, length_of_mem_walkChains hash lengths⟩
  refine ⟨wellFormed, ?_⟩
  rw [verify_of_wellFormed wellFormed, walkChains_walkChains]
  simp only [Nat.add_sub_of_le (coef_le_maxDigit _ _ _), sig]
  exact beq_self_eq_true _

/-- The host's view of a block is fixed with its build parameters. -/
theorem params_of_par_eq {b b' : Bench} (w : Nat) (par : b'.block.par = b.block.par) : b'.params w = b.params w := by
  simp only [Bench.params, State.hash, par]

/-! ## Key generation -/

/-- Key generation makes one host hash a chain and no access (R171). -/
theorem run_privateElements (turns : Nat → Nat) (patience : Nat) (b : Bench) (seed ident : Bytes) (q : Word)
    (i count : Nat) (next : List Bytes → HostProgram (List Bytes)) :
    (privateElements seed ident q i count next).run turns patience b =
      (next ((List.range' i count).map fun i => b.block.hash (privateElementInput seed ident q i))).run turns patience
        { b with hashes := b.hashes + count } := by
  induction count generalizing b i next with
  | zero => rfl
  | succ count ih =>
    rw [privateElements, run_hash, ih, List.range'_succ, List.map_cons, Nat.add_assoc, Nat.add_comm 1]

/-- Key generation ends in the p elements (R171, R181). -/
theorem run_privateKeyProgram (turns : Nat → Nat) (patience : Nat) (b : Bench) (w : Nat) (seed ident : Bytes)
    (q : Word) :
    (privateKeyProgram b.block.par.n w seed ident q).run turns patience b =
      .finished (privateKey (b.params w) seed ident q)
        { b with hashes := b.hashes + deriveP b.block.par.n w } := by
  rw [privateKeyProgram, run_privateElements, run_done, ← List.range_eq_range']
  rfl

/-! ## Public-key derivation -/

/-- WALK.FULL on a chain of a configured block (60_exceptions.md R192). -/
theorem check_walkFull {s : State} (cfgd : s.cfgd = true) (chain : s.chainI.toNat < s.cfgP) :
    check .walkFull s = .ok := by
  simp [check_eq_ok_iff, unsupportedConfig, needsEncoding, operandRangeError, cfgd, chain]

/-- Public-key derivation ends in K, with p·(2^w − 1) hashes of the block and one of the host (R172, R173). -/
theorem publicKeyProgram_meets (turns : Nat → Nat) (patience : Nat) {w : Nat} {b : Bench} {h : HostParams}
    {xs : List Bytes} {ident : Bytes} (q : Word) (params : b.params w = h) (ready : b.block.ready w)
    (chains : xs.length = h.p) (lengths : ∀ x ∈ xs, x.length = h.n) (length : ident.length = b.block.par.iLen) :
    ((publicKeyProgram h.n xs ident q).run turns patience b).meets (fairSchedule turns patience) fun key b' =>
      key = publicKey h ident q xs ∧
      (b.block.bare.identified ident q).WalkedTo (h.p * maxDigit w) b'.block.bare ∧ b'.hashes = b.hashes + 1 := by
  subst params
  obtain ⟨inv, idle, cfgd, rfl⟩ := ready
  obtain ⟨hw, -, -, -, hp⟩ := inv.config cfgd
  have inv₀ := inv_identified q (inv_bare.mpr inv) idle length
  have passes : ∀ i < deriveP b.block.par.n b.block.cfgW,
      check .walkFull { b.block.bare.identified ident q with chainI := BitVec.ofNat 16 i } = .ok := fun i hi =>
    check_walkFull cfgd (by rw [toNat_ofNat_chain b.block.par.nRange hw hi]; exact hp ▸ hi)
  have total : ((List.range (deriveP b.block.par.n b.block.cfgW)).map fun _ => maxDigit b.block.cfgW).sum =
      deriveP b.block.par.n b.block.cfgW * maxDigit b.block.cfgW := by simp
  refine run_meets turns patience (reaches_loadIdentity (inv_bare.mpr inv) idle length ?_)
  refine reaches_forChains_all (walksChains_walkOnBlock (start := fun _ => 0) (by decide) passes fun _ _ => rfl) inv₀
    idle chains lengths fun t walked b' block hashes => ⟨?_, block ▸ total ▸ walked, hashes⟩
  rw [State.hash, walked.par]
  rfl

/-! ## Signing -/

/-- The block as ENCODE leaves it in signing and in verification. -/
def State.prepared (s : State) (ident : Bytes) (q : Word) (digest : Bytes) : State :=
  (s.bare.identified ident q).encoded digest

theorem prepared_inv {s : State} {ident digest : Bytes} (q : Word) (inv : s.Inv) (idle : s.phase = .idle)
    (cfgd : s.cfgd = true) (length : ident.length = s.par.iLen) (digestLength : digest.length = s.par.n) :
    (s.prepared ident q digest).Inv :=
  inv_encoded (inv_identified q (inv_bare.mpr inv) idle length) cfgd digestLength

/-- E_BUF then holds the encoding of the digest (R176). -/
theorem prepared_eBuf {s : State} {ident digest : Bytes} {q : Word} (inv : s.Inv) (cfgd : s.cfgd = true) :
    (s.prepared ident q digest).eBuf =
      encodeDigest s.cfgW (deriveU s.par.n s.cfgW) (deriveLs s.par.n s.cfgW) digest := by
  obtain ⟨-, hu, -, hls, -⟩ := inv.config cfgd
  rw [← hu, ← hls]
  rfl

/-- So the digits are those of the host's encoded hash. -/
theorem prepared_digit {b : Bench} {ident digest : Bytes} {q : Word} (inv : b.block.Inv) (cfgd : b.block.cfgd = true) :
    (b.block.prepared ident q digest).digit =
      fun i => coef b.block.cfgW ((b.params b.block.cfgW).encodedHash digest) i := by
  funext i
  rw [State.digit, prepared_eBuf inv cfgd]
  rfl

theorem prepared_digitsLeft {b : Bench} {ident digest : Bytes} {q : Word} (inv : b.block.Inv)
    (cfgd : b.block.cfgd = true) : (b.block.prepared ident q digest).digitsLeft =
      fun i => maxDigit b.block.cfgW - coef b.block.cfgW ((b.params b.block.cfgW).encodedHash digest) i := by
  funext i
  rw [State.digitsLeft, prepared_digit inv cfgd]
  rfl

/-- RESULT then holds the checksum of the digest (41_codec.md R129). -/
theorem prepared_result {s : State} {ident digest : Bytes} {q : Word} (inv : s.Inv) (cfgd : s.cfgd = true) :
    (s.prepared ident q digest).result =
      (checksum s.cfgW (deriveU s.par.n s.cfgW) (deriveLs s.par.n s.cfgW) digest).setWidth 32 := by
  obtain ⟨-, hu, -, hls, -⟩ := inv.config cfgd
  rw [← hu, ← hls]
  rfl

/-- The checks of the two walks by a digit pass on every chain. -/
theorem check_prepared {s : State} {ident digest : Bytes} {q : Word} {i : Nat} (inv : s.Inv) (cfgd : s.cfgd = true)
    (hi : i < deriveP s.par.n s.cfgW) :
    check .walkSign { s.prepared ident q digest with chainI := BitVec.ofNat 16 i } = .ok ∧
    check .walkVerify { s.prepared ident q digest with chainI := BitVec.ofNat 16 i } = .ok := by
  obtain ⟨hw, -, -, -, hp⟩ := inv.config cfgd
  refine check_digit_walk cfgd rfl ?_
  rw [toNat_ofNat_chain s.par.nRange hw hi]
  exact hp ▸ hi

/-- `wrbuf I_BUF, I ; wr LEAF_Q, q ; wrbuf QD_BUF, Q ; exec ENCODE` (R176, R178). -/
theorem reaches_prepared {α : Type} {post : α → State → Nat → Prop} {hashes : Nat} {s : State} {ident digest : Bytes}
    {q : Word} {next : HostProgram α} (inv : s.Inv) (idle : s.phase = .idle) (cfgd : s.cfgd = true)
    (length : ident.length = s.par.iLen) (digestLength : digest.length = s.par.n)
    (rest : next.reaches post (s.prepared ident q digest) hashes) :
    (loadIdentity ident q <| storeBuffer .qdBuf digest <| execCommand .encode next).reaches post s.bare hashes :=
  reaches_loadIdentity (inv_bare.mpr inv) idle length
    (reaches_encoded (inv_identified q (inv_bare.mpr inv) idle length) idle cfgd digestLength rest)

/-- Signing ends in the signature and the checksum, with the sum of the digits in hashes of the block and one of the
host (R176, R181). -/
theorem signProgram_meets (turns : Nat → Nat) (patience : Nat) {w : Nat} {b : Bench} {h : HostParams}
    {xs : List Bytes} {ident c : Bytes} (message : Bytes) (q : Word) (params : b.params w = h)
    (ready : b.block.ready w) (chains : xs.length = h.p) (lengths : ∀ x ∈ xs, x.length = h.n)
    (length : ident.length = b.block.par.iLen) (randomizer : c.length = h.n) :
    ((signProgram h.n message xs ident q c).run turns patience b).meets (fairSchedule turns patience) fun result b' =>
      result = .ok
        ⟨⟨c, walkChains h ident q (fun _ => 0)
          (fun i => coef w (h.encodedHash (messageDigest h ident q c message)) i) xs⟩,
        (checksum w (deriveU h.n w) (deriveLs h.n w) (messageDigest h ident q c message)).setWidth 32⟩ ∧
      (b.block.prepared ident q (messageDigest h ident q c message)).WalkedTo
        ((List.range h.p).map fun i => coef w (h.encodedHash (messageDigest h ident q c message)) i).sum
        b'.block.bare ∧ b'.hashes = b.hashes + 1 := by
  subst params
  obtain ⟨inv, idle, cfgd, rfl⟩ := ready
  obtain ⟨hw, -⟩ := inv.config cfgd
  generalize hdigest : messageDigest (b.params b.block.cfgW) ident q c message = digest
  have digestLength : digest.length = b.block.par.n := by
    rw [← hdigest]
    exact hashBytes_length _ _
  have counters : ∀ i < deriveP b.block.par.n b.block.cfgW,
      walkCounters .walkSign { b.block.prepared ident q digest with chainI := BitVec.ofNat 16 i } =
        some (0, (b.block.prepared ident q digest).digit i) := fun i hi =>
    (walkCounters_digit _ (toNat_ofNat_chain b.block.par.nRange hw hi)).1
  rw [prepared_digit inv cfgd] at counters
  refine run_meets turns patience ?_
  rw [signProgram, if_neg (not_not.mpr randomizer)]
  refine reaches_hash hdigest (reaches_prepared inv idle cfgd length digestLength ⟨⟨rfl, rfl⟩, trivial, ?_⟩)
  refine reaches_forChains_all (walksChains_walkOnBlock (start := fun _ => 0) (by decide)
    (fun i hi => (check_prepared inv cfgd hi).1) counters)
    (prepared_inv q inv idle cfgd length digestLength) rfl chains lengths
    fun t walked b' block hashes => ⟨?_, block ▸ walked, hashes⟩
  rw [show State.readTarget _ .result = (b.block.prepared ident q digest).result from rfl, prepared_result inv cfgd]
  rfl

end Sys2Proof.Machine
end

section
/-! SUPPORT. Verification run on a block (45_host_sequences.md R178 to R180): how the run ends, also on a block that is
not configured or has another w. -/

set_option autoImplicit false

namespace Sys2Proof.Machine

open Sys2Proof

section Verification

variable {post : Bool → State → Nat → Prop} {hashes w : Nat} {s : State} {message ident key digest : Bytes}
  {sig : Signature} {q : Word} (hw : supportedW w = true)
  (wellFormed : sig.wellFormed s.par.n (deriveP s.par.n w) = true) (inv : s.Inv) (idle : s.phase = .idle)
  (length : ident.length = s.par.iLen) (hdigest : s.hash (messageDigestInput ident q sig.c message) = digest)

include hw wellFormed inv idle length hdigest

/-- Verification on a configured block, for whatever w, as far as an error of the block may only end it where false is
an answer. -/
theorem reaches_verifyProgram (cfgd : s.cfgd = true)
    (fails : ∀ i < deriveP s.par.n w,
      check .walkVerify { s.prepared ident q digest with chainI := BitVec.ofNat 16 i } ≠ .ok →
        ∀ t, post false t (hashes + 1))
    (ends : ∀ t, (s.prepared ident q digest).WalkedTo
        ((List.range (deriveP s.par.n w)).map (s.prepared ident q digest).digitsLeft).sum t →
      post (s.hash (publicDigestInput ident q (sig.y.mapIdx ((s.prepared ident q digest).walkedElement
        (s.prepared ident q digest).digit (s.prepared ident q digest).digitsLeft))) == key) t (hashes + 2)) :
    (verifyProgram s.par.n w message sig ident q key).reaches post s.bare hashes := by
  obtain ⟨-, chains, lengths⟩ := wellFormed_iff.mp wellFormed
  have digestLength : digest.length = s.par.n := hdigest ▸ hashBytes_length _ _
  have counters : ∀ i < deriveP s.par.n w, walkCounters .walkVerify
      { s.prepared ident q digest with chainI := BitVec.ofNat 16 i } = some ((s.prepared ident q digest).digit i, _) :=
    fun i hi => (walkCounters_digit _ (toNat_ofNat_chain s.par.nRange hw hi)).2
  rw [verifyProgram, if_pos wellFormed]
  refine reaches_hash hdigest (reaches_prepared inv idle cfgd length digestLength ?_)
  refine reaches_forChains_all (walksChains_verifyChain counters fails)
    (prepared_inv q inv idle cfgd length digestLength) rfl chains lengths fun t walked => ?_
  have hash : t.hash = s.hash := by
    rw [State.hash, walked.par]
    rfl
  exact reaches_hash (congrFun hash _) (ends t walked)

/-- On a block that is not configured the first WALK.VERIFY fails. -/
theorem reaches_verifyProgram_of_not_configured (cfgd : s.cfgd = false) (fails : ∀ t, post false t (hashes + 1)) :
    (verifyProgram s.par.n w message sig ident q key).reaches post s.bare hashes := by
  obtain ⟨-, chains, lengths⟩ := wellFormed_iff.mp wellFormed
  have digestLength : digest.length = s.par.n := hdigest ▸ hashBytes_length _ _
  have inv₁ := inv_identified q (inv_bare.mpr inv) idle length
  obtain ⟨-, vBuf, -⟩ := inv₁.lengths
  rw [verifyProgram, if_pos wellFormed]
  refine reaches_hash hdigest (reaches_loadIdentity (inv_bare.mpr inv) idle length
    (reaches_unencoded inv₁ idle cfgd digestLength ?_))
  cases ys : sig.y with
  | nil =>
    have positive := deriveV_pos hw s.par.nRange.1
    rw [ys, List.length_nil, deriveP] at chains
    omega
  | cons y ys' =>
    have code : check .walkVerify
        { (s.bare.identified ident q).unencoded digest with chainI := BitVec.ofNat 16 0 } = .notConfigured :=
      check_of_not_configured rfl cfgd
    exact reaches_verifyChain_failed (s := (s.bare.identified ident q).unencoded digest) ⟨rfl, rfl⟩ vBuf
      (lengths y (by simp [ys])) code nofun fun t _ => fails t

end Verification

/-- Verification of a well-formed signature ends in the host's verdict, with the sum of the steps left in hashes of the
block and two of the host (R178, R181). -/
theorem verifyProgram_meets (turns : Nat → Nat) (patience : Nat) {w : Nat} {b : Bench} {h : HostParams}
    {sig : Signature} {ident : Bytes} (message : Bytes) (q : Word) (key : Bytes) (params : b.params w = h)
    (ready : b.block.ready w) (wellFormed : sig.wellFormed h.n h.p = true)
    (length : ident.length = b.block.par.iLen) :
    ((verifyProgram h.n w message sig ident q key).run turns patience b).meets (fairSchedule turns patience)
      fun verdict b' =>
        verdict = verify h message sig ident q key ∧
        (b.block.prepared ident q (messageDigest h ident q sig.c message)).WalkedTo
          ((List.range h.p).map fun i =>
            maxDigit w - coef w (h.encodedHash (messageDigest h ident q sig.c message)) i).sum b'.block.bare ∧
        b'.hashes = b.hashes + 2 := by
  subst params
  obtain ⟨inv, idle, cfgd, rfl⟩ := ready
  obtain ⟨hw, -⟩ := inv.config cfgd
  simp only [verify_of_wellFormed wellFormed]
  generalize hdigest : messageDigest (b.params b.block.cfgW) ident q sig.c message = digest
  refine run_meets turns patience (reaches_verifyProgram hw wellFormed inv idle length hdigest cfgd
    (fun i hi failed => absurd (check_prepared inv cfgd hi).2 failed) fun t walked b' block hashes => ?_)
  rw [prepared_digitsLeft inv cfgd] at walked ⊢
  rw [prepared_digit inv cfgd]
  exact ⟨rfl, block ▸ walked, hashes⟩

/-- The code of WALK.VERIFY's first failing check, as R150 lists them. -/
theorem code_check_walkVerify (s : State) : (check .walkVerify s).code = completionCode .walkVerify s := by
  cases cfgd : s.cfgd with
  | false => simp [check, completionCode, needsConfig, cfgd]
  | true =>
    by_cases chain : s.cfgP ≤ s.chainI.toNat
    · simp [check, completionCode, unsupportedConfig, isWalk, cfgd, chain]
    · cases evalid : s.evalid <;>
        simp [check, completionCode, unsupportedConfig, isWalk, needsEncoding, operandRangeError, cfgd, chain, evalid]

end Sys2Proof.Machine
end

section
/-! The statements about the host's programs run on the block (45_host_sequences.md). -/

set_option autoImplicit false

namespace Sys2Proof.Machine

open Sys2Proof

/-- Settles O4: the loop leaves the p chains walked to their tops, and no walk touches what makes a block ready. -/
theorem publicKeyProgramDerivesTheKey : Obligations.PublicKeyProgramDerivesTheKey := by
  unfold Obligations.PublicKeyProgramDerivesTheKey
  intro turns patience w b xs ident q ready chains lengths length
  refine meets_mono (publicKeyProgram_meets turns patience q rfl ready chains lengths length) fun key b' h => ?_
  obtain ⟨-, -, cfgd, rfl⟩ := ready
  obtain ⟨key, walked, hashes⟩ := h
  exact ⟨key, walked.count, hashes, walked.ready cfgd, walked.overrun⟩

/-- Settles O38: ENCODE leaves E, by whose digits the loop walks the chains, and no walk touches E. -/
theorem signProgramSigns : Obligations.SignProgramSigns := by
  unfold Obligations.SignProgramSigns
  intro turns patience w b message xs ident q c n r
  refine ⟨fun wrong => ?_, fun randomizer ready chains lengths length => ?_⟩
  · simp only [r, signProgram, if_pos wrong, run_done]
  · refine meets_mono (signProgram_meets turns patience message q rfl ready chains lengths length randomizer)
      fun result b' h => ?_
    obtain ⟨inv, -, cfgd, rfl⟩ := ready
    obtain ⟨signed, walked, hashes⟩ := h
    exact ⟨signed, walked.qdBuf, walked.eBuf.trans (prepared_eBuf inv cfgd), walked.evalid,
      sum_coef_eq_signCost _ _ _ ▸ walked.count, hashes, walked.ready cfgd, walked.overrun⟩

/-- Settles O51: an error of the block on any chain ends the loop in false, so what is said of the loop's end is said of
a block that is configured and on which no walk failed. -/
theorem verifyProgramVerifies : Obligations.VerifyProgramVerifies := by
  unfold Obligations.VerifyProgramVerifies
  intro turns patience w b message sig ident q key width n r wellFormed
  have checks : sig.wellFormed n (deriveP n w) = true ↔ wellFormed := wellFormed_iff
  have hw := supportedW_iff.mpr width
  refine ⟨fun malformed => ?_, fun wf ready length => ?_, fun wf inv idle length => ?_,
    fun i y next inv idle length => ?_⟩
  · simp only [r, verifyProgram, if_neg (mt checks.mp malformed), run_done]
  · refine meets_mono (verifyProgram_meets turns patience message q key rfl ready (checks.mpr wf) length)
      fun verdict b' h => ?_
    obtain ⟨inv, -, cfgd, rfl⟩ := ready
    obtain ⟨verdict, walked, hashes⟩ := h
    refine ⟨?_, sum_coef_eq_verifyCost _ _ _ ▸ walked.count, hashes, walked.code rfl, walked.ready cfgd, walked.overrun⟩
    rw [verdict, verify_of_wellFormed (h := b.params b.block.cfgW) (checks.mpr wf)]
    exact beq_iff_eq
  · refine run_meets turns patience ?_
    cases cfgd : b.block.cfgd with
    | false =>
      exact reaches_verifyProgram_of_not_configured hw (checks.mpr wf) inv idle length rfl cfgd
        fun t b' _ _ => nofun
    | true =>
      exact reaches_verifyProgram hw (checks.mpr wf) inv idle length rfl cfgd (fun i _ _ t b' _ _ => nofun)
        fun t walked b' block _ _ => ⟨(congrArg State.err block).trans (walked.code rfl), rfl⟩
  · intro code failed
    obtain ⟨-, held, -⟩ := inv.lengths
    refine (run_meets turns patience (reaches_verifyChain_failed (s := b.block.bare)
      (between_of_inv (inv_bare.mpr inv) idle) held length
      (check_bare .walkVerify { b.block with chainI := BitVec.ofNat 16 i }) ?_ ?_)).1
    · exact fun passes => failed ((code_check_walkVerify _).symm.trans (code_eq_zero_iff.mpr passes))
    · intro t err b' block _
      exact ⟨rfl, (congrArg State.err block).trans (err.trans (code_check_walkVerify _))⟩

/-- Settles O60: each run leaves the block ready for the next, and verification walks each chain on from its digit to
its top. -/
theorem roundTripOnTheBlock : Obligations.RoundTripOnTheBlock := by
  unfold Obligations.RoundTripOnTheBlock
  refine ⟨by decide, ?_⟩
  intro turns patience w b seed ident q c message fair ready randomizer length n p m digit signed verified costs
  have split : ∀ i, digit i + (m - digit i) = m := fun i => Nat.add_sub_of_le (coef_le_maxDigit _ _ _)
  refine ⟨?_, ?_⟩
  · simp only [signed, verified, ← List.sum_map_add, split]
    simp
  have chains : (privateKey (b.params w) seed ident q).length = (b.params w).p := by simp [privateKey]
  have lengths : ∀ x ∈ privateKey (b.params w) seed ident q, x.length = (b.params w).n := by
    simp [privateKey, privateElement, Bench.params, State.hash]
  have ⟨_, _, cfgd, hw⟩ := ready
  rw [run_privateKeyProgram]
  refine (finishesIn_finished _ _ _).mpr ⟨rfl, rfl, ?_⟩
  refine finishesIn_mono ((publicKeyProgram_meets turns patience q
    (b := { b with hashes := b.hashes + deriveP b.block.par.n w }) (params_of_par_eq w rfl) ready chains lengths
    length).2 fair) fun key b₂ ⟨hkey, walked₂, hashes₂⟩ => ⟨⟨walked₂.count, hashes₂⟩, ?_⟩
  have par₂ : b₂.block.par = b.block.par := walked₂.par
  have ready₂ : b₂.block.ready w := hw ▸ walked₂.ready cfgd
  refine finishesIn_mono ((signProgram_meets turns patience message q (params_of_par_eq w par₂) ready₂ chains lengths
    (par₂ ▸ length) randomizer).2 fair) fun result b₃ ⟨hresult, walked₃, hashes₃⟩ =>
      ⟨⟨walked₃.count, hashes₃⟩, _, _, hresult, ?_⟩
  have par₃ : b₃.block.par = b.block.par := walked₃.par.trans par₂
  have ⟨_, _, cfgd₂, hw₂⟩ := ready₂
  have ready₃ : b₃.block.ready w := hw₂ ▸ walked₃.ready cfgd₂
  have ⟨wellFormed, genuine⟩ := verify_walkChains (h := b.params w) (message := message) (ident := ident) (q := q)
    (hashBytes_length _) randomizer chains lengths
  refine finishesIn_mono ((verifyProgram_meets turns patience message q key (params_of_par_eq w par₃) ready₃ wellFormed
    (par₃ ▸ length)).2 fair) fun verdict b₄ ⟨hverdict, walked₄, hashes₄⟩ => ⟨⟨walked₄.count, hashes₄⟩, ?_⟩
  rw [hverdict, hkey]
  exact genuine

end Sys2Proof.Machine
end

section
/-! SUPPORT. The completion codes: which check reports which code, that the one order of the checks is each command's
own list (60_exceptions.md R192), and the code a dispatch leaves in ERR. -/

set_option autoImplicit false

namespace Sys2Proof.Machine

open Sys2Proof

/-- Different errors have different codes (60_exceptions.md R191). -/
theorem code_injective : Function.Injective ErrCode.code := by
  intro e e'
  cases e <;> cases e' <;> decide

/-! ## The checks -/

/-- No check reports ILLEGAL_COMMAND: a word raises it, never a command (60_exceptions.md R193). -/
theorem check_ne_illegalCommand (i : Instr) (s : State) : check i s ≠ .illegalCommand := by
  unfold check
  split_ifs <;> decide

theorem unsupportedConfig_iff {i : Instr} :
    unsupportedConfig i = true ↔ ∃ w, i = .cfg w ∧ ¬ (w = 1 ∨ w = 2 ∨ w = 4 ∨ w = 8) := by
  cases i with
  | cfg w => simp [unsupportedConfig, ← supportedW_iff]
  | _ => simp [unsupportedConfig]

/-- The width check is CFG's, which has no check before it (60_exceptions.md R194). -/
theorem check_eq_unsupportedParameter_iff {i : Instr} {s : State} :
    check i s = .unsupportedParameter ↔ ∃ w, i = .cfg w ∧ ¬ (w = 1 ∨ w = 2 ∨ w = 4 ∨ w = 8) := by
  rw [← unsupportedConfig_iff]
  constructor
  · unfold check
    split_ifs with _ unsupported <;> simp [*]
  · intro unsupported
    obtain ⟨w, rfl, -⟩ := unsupportedConfig_iff.mp unsupported
    simp [check, needsConfig, unsupported]

/-- The one order of the checks, taken at each command, is that command's own list (60_exceptions.md R192). -/
theorem code_check (i : Instr) (s : State) : (check i s).code = completionCode i s := by
  cases i with
  | walkVerify => exact code_check_walkVerify s
  | cfg w =>
    cases width : supportedW w <;>
      simp [check, completionCode, needsConfig, unsupportedConfig, isWalk, needsEncoding, operandRangeError,
        ← supportedW_iff, width]
  | walk j0 k =>
    by_cases range : 2 ^ s.cfgW - 1 < j0 + k <;>
      simp [check, completionCode, apply_ite ErrCode.code, needsConfig, unsupportedConfig, isWalk, needsEncoding,
        operandRangeError, maxDigit, range]
  | _ =>
    simp [check, completionCode, apply_ite ErrCode.code, needsConfig, unsupportedConfig, isWalk, needsEncoding,
      operandRangeError]

theorem completionCode_eq_zero_iff {i : Instr} {s : State} : completionCode i s = 0 ↔ check i s = .ok := by
  rw [← code_check, code_eq_zero_iff]

/-! ## The dispatch -/

theorem exec_of_check_eq_ok {i : Instr} {s : State} (passes : check i s = .ok) :
    exec i s = .next (effectOf i s) := by
  rw [exec_eq_checked, checked_of_ok _ passes]

theorem exec_of_check_ne_ok {i : Instr} {s : State} (fails : check i s ≠ .ok) :
    exec i s = .next (complete (check i s) s) := by
  rw [exec_eq_checked, checked_of_not_ok _ fails]

theorem dispatch_of_illegal {s : State} (word : decode s.cmdLast = .error .illegalCommand) :
    dispatch s = .next (complete .illegalCommand s) := by
  simp only [dispatch, fetch, word]

theorem step_of_sequencerNext {s r : State} (turn : sequencerNext s r) : step s = sequencerStep r := by
  obtain ⟨empty, rfl⟩ | ⟨rest, head, rfl⟩ := turn
  · exact step_of_agenda_nil empty
  · exact step_of_agenda_cons head

/-- An event used up is all that a turn's coming next takes from the state. -/
theorem eq_of_sequencerNext {s r : State} (turn : sequencerNext s r) : ∃ agenda, r = { s with agenda := agenda } := by
  obtain ⟨-, rfl⟩ | ⟨rest, -, rfl⟩ := turn
  · exact ⟨r.agenda, rfl⟩
  · exact ⟨rest, rfl⟩

/-! ## ERR -/

/-- A command whose checks pass has completed with OK, or has started a walk and leaves ERR to its end. -/
theorem effectOf_err (i : Instr) (s : State) :
    (effectOf i s).err = 0 ∨ ((effectOf i s).phase = .walking ∧ (effectOf i s).err = s.err) := by
  have started : ∀ j0 k, (startWalk j0 k s).err = 0 ∨
      ((startWalk j0 k s).phase = .walking ∧ (startWalk j0 k s).err = s.err) := fun j0 k => by
    obtain ⟨-, h⟩ | ⟨-, h⟩ := startWalk_cases j0 k s <;> simp [h]
  cases i with
  | walk | walkFull | walkSign | walkVerify => exact started _ _
  | cfg | coefQ | coefE | cksum | encode => exact .inl rfl

/-- From ERR = 0, where an issue leaves it (10_state.md R46), a dispatch leaves the code of its checks. -/
theorem exec_err {i : Instr} {s t : State} (clear : s.err = 0) (h : exec i s = .next t) :
    t.err = (check i s).code := by
  obtain ⟨passes, rfl⟩ | ⟨-, rfl⟩ := exec_cases h
  · rw [passes, code_ok]
    obtain err | ⟨-, err⟩ := effectOf_err i s
    · exact err
    · exact err.trans clear
  · exact complete_err _ s

end Sys2Proof.Machine
end

section
/-! The statements about the completion codes (60_exceptions.md). -/

set_option autoImplicit false

namespace Sys2Proof.Machine

open Sys2Proof

/-- Settles O7: a turn on an illegal word is the completion and nothing else, and no check has that code. -/
theorem illegalWordCompletesWithItsCode : Obligations.IllegalWordCompletesWithItsCode := by
  unfold Obligations.IllegalWordCompletesWithItsCode
  refine ⟨fun s r turn phase word => ?_, fun i s t clear h illegal => ?_⟩
  · rw [step_of_sequencerNext turn]
    obtain ⟨agenda, rfl⟩ := eq_of_sequencerNext turn
    exact sequencerStep_of_illegal phase word
  · exact check_ne_illegalCommand i s (code_injective ((exec_err clear h).symm.trans illegal))

/-- Settles O8: the code is that of the model's check, which is not OK exactly when the dispatch only completes. -/
theorem firstFailingCheckIsReportedAlone : Obligations.FirstFailingCheckIsReportedAlone := by
  unfold Obligations.FirstFailingCheckIsReportedAlone
  refine ⟨fun i s => ⟨fun fails => ?_, fun passes => ?_⟩, fun s word => dispatch_of_illegal word⟩
  · rw [exec_of_check_ne_ok (mt completionCode_eq_zero_iff.mpr fails), ← code_check]
    rfl
  · exact ⟨_, exec_of_check_eq_ok (completionCode_eq_zero_iff.mp passes), effectOf_err i s⟩

/-- Settles O10: another w fails CFG's one check, and no other command has a check with that code. -/
theorem unsupportedWidthKeepsConfiguration : Obligations.UnsupportedWidthKeepsConfiguration := by
  unfold Obligations.UnsupportedWidthKeepsConfiguration
  refine ⟨fun w s unsupported => ?_, fun i s t clear h reported => ?_⟩
  · have code : check (.cfg w) s = .unsupportedParameter := check_eq_unsupportedParameter_iff.mpr ⟨w, rfl, unsupported⟩
    rw [exec_of_check_ne_ok (by rw [code]; decide), code]
    rfl
  · exact check_eq_unsupportedParameter_iff.mp (code_injective ((exec_err clear h).symm.trans reported))

end Sys2Proof.Machine
end

section
/-! SUPPORT. What makes an encoding stale, and what a stale one does to the commands that need it
(70_reset_and_hazards.md R216, R217). -/

set_option autoImplicit false

namespace Sys2Proof.Machine

open Sys2Proof

/-- What a write leaves is determined, up to the host's remaining events. -/
theorem afterWrite_unique {s t t' : State} {off : Nat} {val : Word} (h : afterWrite s off val t)
    (h' : afterWrite s off val t') : t = { t' with agenda := t.agenda } :=
  Host.Outcome.next.inj ((h t.agenda).symm.trans (h' t.agenda))

/-- CFG for a supported w clears EVALID, and for any other w keeps it (R217, 40_control.md R107). -/
theorem exec_cfg_evalid {s t : State} {w : Nat} (h : exec (.cfg w) s = .next t) :
    t.evalid = if w = 1 ∨ w = 2 ∨ w = 4 ∨ w = 8 then false else s.evalid := by
  obtain ⟨passes, rfl⟩ | ⟨fails, rfl⟩ := exec_cases h
  · rw [if_pos (check_cfg_eq_ok_iff.mp passes)]
    rfl
  · rw [if_neg (mt check_cfg_eq_ok_iff.mpr fails), complete_evalid]

/-- CFG leaves the bytes of E_BUF, whether it succeeds or fails (R217). -/
theorem exec_cfg_eBuf {s t : State} {w : Nat} (h : exec (.cfg w) s = .next t) : t.eBuf = s.eBuf := by
  obtain ⟨-, rfl⟩ | ⟨-, rfl⟩ := exec_cases h
  · rfl
  · exact complete_eBuf _ s

/-- The commands that need an encoding are the two digit walks and COEF.E (60_exceptions.md R197). -/
theorem needsEncoding_iff {i : Instr} :
    needsEncoding i = true ↔ i = .walkSign ∨ i = .walkVerify ∨ i = .coefE := by
  cases i <;> simp [needsEncoding]

/-- NO_ENCODING comes after the configuration and the chain index, before the digit index (60_exceptions.md R192). -/
theorem check_of_stale {i : Instr} {s : State} (needs : needsEncoding i = true) (cfgd : s.cfgd = true)
    (stale : s.evalid = false) (chain : isWalk i = true → s.chainI.toNat < s.cfgP) : check i s = .noEncoding := by
  have supported : unsupportedConfig i = false := by
    obtain rfl | rfl | rfl := needsEncoding_iff.mp needs <;> rfl
  have inRange : (isWalk i && decide (s.cfgP ≤ s.chainI.toNat)) = false := by
    simpa using chain
  simp [check, needs, cfgd, stale, supported, inRange]

end Sys2Proof.Machine
end

section
/-! SUPPORT. The state after the reset event (70_reset_and_hazards.md R210). -/

set_option autoImplicit false

namespace Sys2Proof.Machine

open Sys2Proof

/-- STATUS reads 0 with every field clear (10_state.md R26). -/
theorem packStatus_clear : packStatus 0 false false false false false = 0 := by decide

/-- The free values of a reset fill each buffer to its fixed length (R210, U1). -/
theorem afterReset_lengthsOk (par : Params) (draw : Nat) (agenda : List Event) (readLog : List Word) :
    (State.afterReset par draw agenda readLog).lengthsOk := by
  simp [State.lengthsOk, State.afterReset]

/-- The PARAM registers of the CFG values read 0 while CFGD = 0, whatever those values are (10_state.md R38). -/
theorem readTarget_cfgParam_of_not_configured {s : State} (cfgd : s.cfgd = false) :
    ∀ target ∈ [Target.paramW, .paramU, .paramV, .paramLs, .paramP], s.readTarget target = 0 := by
  simp [State.readTarget, State.paramWord, cfgd]

/-- The reset event next on the agenda is the next step, busy or not (R211). -/
theorem step_reset {s : State} {rest : List Event} (head : s.agenda = .reset :: rest) :
    step s = .next (State.afterReset s.par s.draws rest s.readLog) :=
  step_of_agenda_cons head

end Sys2Proof.Machine
end

section
/-! The statements about stale encodings and the reset event (70_reset_and_hazards.md). -/

set_option autoImplicit false

namespace Sys2Proof.Machine

open Sys2Proof

/-- Settles O45: the digest write and CFG by what each leaves of EVALID and E_BUF, the refusal by the check order. -/
theorem staleEncodingIsRefused : Obligations.StaleEncodingIsRefused := by
  unfold Obligations.StaleEncodingIsRefused
  refine ⟨fun s t m val free hm after => ?_, fun s t w h => ⟨exec_cfg_eBuf h, exec_cfg_evalid h⟩,
    fun s i command cfgd stale chain => ?_⟩
  · have written : afterWrite s (Target.qdBuf m).offset val (writeTarget (.qdBuf m) val s) :=
      afterWrite_of_idle (target := .qdBuf m) hm val free
    rw [afterWrite_unique after written]
    exact ⟨rfl, rfl⟩
  · have code : check i s = .noEncoding := check_of_stale (needsEncoding_iff.mpr command) cfgd stale chain
    rw [exec_of_check_ne_ok (by rw [code]; decide), code]
    rfl

/-- Settles O46: the step is the reset event, whose state has CFGD = 0, its buffers' lengths and SEQ_PHASE = IDLE. -/
theorem resetEventClearsTheBlock : Obligations.ResetEventClearsTheBlock := by
  unfold Obligations.ResetEventClearsTheBlock
  intro s rest head
  exact ⟨_, step_reset head, rfl, rfl, rfl, rfl, rfl, rfl, rfl, packStatus_clear, rfl, rfl, rfl, rfl,
    readTarget_cfgParam_of_not_configured rfl, rfl, rfl, rfl, rfl, afterReset_lengthsOk _ _ _ _, rfl,
    sequencerStep_of_idle rfl⟩

end Sys2Proof.Machine
end

section
/-! SUPPORT. Assembled words by their fields (30_encoding.md R81, R94), and that no two rows of the opcode map share a
word (R83). -/

set_option autoImplicit false

namespace Sys2Proof

/-- A word that matches two rows has both patterns where both masks look. -/
theorem pattern_and_mask_eq {r r' : OpRow} {x : Word} (h : r.matchesWord x = true) (h' : r'.matchesWord x = true) :
    r.pattern &&& r'.mask = r'.pattern &&& r.mask := by
  rw [← beq_iff_eq.mp h, ← beq_iff_eq.mp h', BitVec.and_assoc, BitVec.and_assoc, BitVec.and_comm r.mask]

/-- Any two rows differ in a bit at which both look (R83). -/
theorem opRows_patterns_apart : opRows.Pairwise fun r r' => r.pattern &&& r'.mask ≠ r'.pattern &&& r.mask := by
  decide

/-- The assembler puts the operand of CFG in A and leaves B zero (R94). -/
theorem encode_cfg_toNat (a : Byte) : encode (.cfg a.toNat) = 0#8 ++ 0#8 ++ a ++ 1#8 := by
  rw [encode, commandWord_eq_append (by decide) a.isLt (by decide), BitVec.ofNat_toNat, BitVec.setWidth_eq]

/-- The assembler puts j0 in A and k in B (R94). -/
theorem encode_walk_toNat (a b : Byte) : encode (.walk a.toNat b.toNat) = 0#8 ++ b ++ a ++ 2#8 := by
  rw [encode, commandWord_eq_append (by decide) a.isLt b.isLt, BitVec.ofNat_toNat, BitVec.ofNat_toNat,
    BitVec.setWidth_eq, BitVec.setWidth_eq]

/-- A byte is well formed as an operand (R84). -/
theorem wf_cfg_toNat (a : Byte) : (Instr.cfg a.toNat).wf = true := decide_eq_true a.isLt

theorem wf_walk_toNat (a b : Byte) : (Instr.walk a.toNat b.toNat).wf = true := by
  simp only [Instr.wf, a.isLt, b.isLt, decide_true, Bool.and_self]

/-- A well-formed command's operands are the values of bytes (R84). -/
theorem operands_of_wf {i : Instr} (wf : i.wf = true) :
    (∃ a : Byte, i = .cfg a.toNat) ∨ (∃ a b : Byte, i = .walk a.toNat b.toNat) ∨
    i ∈ [.walkFull, .walkSign, .walkVerify, .coefQ, .coefE, .cksum, .encode] := by
  cases i with
  | cfg w => exact .inl ⟨BitVec.ofNat 8 w, by rw [BitVec.toNat_ofNat, Nat.mod_eq_of_lt (of_decide_eq_true wf)]⟩
  | walk j0 k =>
    have ⟨hj, hk⟩ : j0 < 256 ∧ k < 256 := by simpa [Instr.wf] using wf
    exact .inr (.inl ⟨BitVec.ofNat 8 j0, BitVec.ofNat 8 k,
      by rw [BitVec.toNat_ofNat, BitVec.toNat_ofNat, Nat.mod_eq_of_lt hj, Nat.mod_eq_of_lt hk]⟩)
  | _ => simp

end Sys2Proof
end

section
/-! The statements about the command words (30_encoding.md section 1 and section 3). -/

set_option autoImplicit false

namespace Sys2Proof

/-- Settles O1: an operand is a byte, which stands in the word as it is; the other commands are one word each. -/
theorem decodeReadsBackEncode : Obligations.DecodeReadsBackEncode := by
  unfold Obligations.DecodeReadsBackEncode
  intro i wf
  obtain ⟨a, rfl⟩ | ⟨a, b, rfl⟩ | fixed := operands_of_wf wf
  · rw [encode_cfg_toNat, decode_append, if_pos ⟨rfl, rfl, rfl⟩]
  · rw [encode_walk_toNat, decode_append, if_neg (by simp), if_pos ⟨rfl, rfl⟩]
  · have each : ∀ c ∈ [Instr.walkFull, .walkSign, .walkVerify, .coefQ, .coefE, .cksum, .encode],
        decode (encode c) = .ok c := by decide
    exact each i fixed

/-- Settles O2: a word that decodes has the fields of a row, which are those its command assembles to; and any two rows
differ in a bit at which both look. -/
theorem decodedWordIsAssembledWord : Obligations.DecodedWordIsAssembledWord := by
  unfold Obligations.DecodedWordIsAssembledWord
  refine ⟨fun x i decoded => ?_, opRows_patterns_apart.imp fun apart x ⟨h, h'⟩ => apart (pattern_and_mask_eq h h')⟩
  rw [← append_fields x] at decoded ⊢
  generalize fieldRsv x = r, fieldB x = b, fieldA x = a, fieldOp x = o at decoded ⊢
  rw [decode_append] at decoded
  split_ifs at decoded with cfg walk row row row row row row row <;> cases decoded
  · obtain ⟨rfl, rfl, rfl⟩ := cfg
    exact ⟨wf_cfg_toNat a, encode_cfg_toNat a⟩
  · obtain ⟨rfl, rfl⟩ := walk
    exact ⟨wf_walk_toNat a b, encode_walk_toNat a b⟩
  all_goals
    obtain ⟨rfl, rfl, rfl, rfl⟩ := row
    exact ⟨rfl, rfl⟩

/-- Settles O5: each legal word is the assembled word of its command, and an illegal one has a field no row has. -/
theorem specWordsDecode : Obligations.SpecWordsDecode :=
  ⟨decodeReadsBackEncode (.cfg 4) rfl, decodeReadsBackEncode (.walk 5 10) rfl, decodeReadsBackEncode .walkFull rfl,
    decodeReadsBackEncode .coefE rfl, decodeReadsBackEncode .encode rfl, by decide, by decide⟩

end Sys2Proof
end

section
/-! SUPPORT. What each operation of the block keeps of the invariant: a completion, a command's effect, a walk under
way, a walking step, an idle write, a reset (10_state.md R22, R30, R38, R44; 42_chain_walk.md R144 to R146). -/

set_option autoImplicit false

namespace Sys2Proof.Machine

open Sys2Proof

theorem supportedW_of_inv {s : State} (inv : s.Inv) (cfgd : s.cfgd = true) : supportedW s.cfgW = true :=
  (inv.config cfgd).1

theorem between_of_free {s : State} (inv : s.Inv) (free : s.busy = false) : s.between := by
  refine between_of_inv inv ?_
  by_contra active
  exact Bool.false_ne_true (free.symm.trans (inv.busyPhase.1.mpr active))

/-! ## Completions -/

/-- A completion leaves the buffers, the configuration and the encoding, and has a code of R191. -/
theorem inv_complete {s : State} (e : ErrCode) (lengths : s.lengthsOk) (config : s.cfgOk) (encoding : s.evalidOk) :
    (complete e s).Inv :=
  inv_of_between ⟨rfl, rfl⟩ lengths config encoding (code_toNat_le e)

/-- The end of a walk puts its N-byte value into V_BUF (R146). -/
theorem inv_finishWalk {s : State} (lengths : s.lengthsOk) (config : s.cfgOk) (encoding : s.evalidOk) :
    (finishWalk s).Inv := by
  obtain ⟨iBuf, -, qdBuf, eBuf, seqTmp⟩ := lengths
  exact inv_complete .ok (s := { s with vBuf := s.seqTmp, result := walkResult s.seqJ0 s.seqK })
    ⟨iBuf, seqTmp, qdBuf, eBuf, seqTmp⟩ config encoding

/-! ## Walks -/

/-- The value in flight has N bytes, as V_BUF and every output of H do (R142). -/
theorem lengthsOk_walkProgress {s : State} (j0 k m : Nat) (lengths : s.lengthsOk) :
    (walkProgress j0 k m s).lengthsOk := by
  obtain ⟨iBuf, vBuf, qdBuf, eBuf, -⟩ := lengths
  exact ⟨iBuf, vBuf, qdBuf, eBuf, walk_length (hashBytes_length s.par.n) _ _ _ _ _ _ vBuf⟩

/-- A walk under way inside its chain, with a step to go, meets the invariant (R144, R145). -/
theorem inv_walkProgress {s : State} {j0 k m : Nat} (inv : s.Inv) (busy : s.busy = true) (cfgd : s.cfgd = true)
    (chain : s.chainI.toNat < s.cfgP) (hm : m < k) (inside : j0 + k ≤ maxDigit s.cfgW) :
    (walkProgress j0 k m s).Inv := by
  have byte := maxDigit_le (supportedW_of_inv inv cfgd)
  have whole : ∀ x ≤ maxDigit s.cfgW, (BitVec.ofNat 8 x).toNat = x := fun x hx => by
    rw [BitVec.toNat_ofNat, Nat.mod_eq_of_lt (by omega)]
  have start := whole j0 (by omega)
  have count := whole k (by omega)
  have counter := whole (j0 + m) (by omega)
  have left := whole (k - m) (by omega)
  have taken : k - (k - m) = m := by omega
  refine ⟨lengthsOk_walkProgress j0 k m inv.lengths, ⟨by simp [busy], fun _ => inv.busyPhase.2 busy⟩, inv.config,
    inv.encoding, inv.code, fun _ => ⟨cfgd, chain, ?_⟩⟩
  simp only [walkProgress, start, count, counter, left, taken]
  exact ⟨by omega, by omega, trivial, inside, rfl⟩

/-- StartWalk from an issued command keeps the invariant (R144). -/
theorem inv_startWalk {s : State} {j0 k : Nat} (inv : s.Inv) (busy : s.busy = true) (cfgd : s.cfgd = true)
    (chain : s.chainI.toNat < s.cfgP) (inside : j0 + k ≤ maxDigit s.cfgW) : (startWalk j0 k s).Inv := by
  rw [startWalk_eq]
  split
  · exact inv_finishWalk (lengthsOk_walkProgress j0 k 0 inv.lengths) inv.config inv.encoding
  · exact inv_walkProgress inv busy cfgd chain (by omega) inside

/-- The invariant of a walking block: it is m steps into a walk that stays inside its chain. The walk began with fewer
hashes counted, which is all of its beginning that the state no longer shows. -/
theorem exists_walkProgress_of_walking {s : State} (inv : s.Inv) (walking : s.phase = .walking) :
    ∃ j0 k m h, m < k ∧ j0 + k ≤ maxDigit s.cfgW ∧ s = walkProgress j0 k m { s with hcount := h } := by
  obtain ⟨-, -, some, most, counter, inside, value⟩ := inv.walking walking
  refine ⟨s.seqJ0.toNat, s.seqK.toNat, s.seqK.toNat - s.seqLeft.toNat,
    s.hcount - BitVec.ofNat 32 (s.seqK.toNat - s.seqLeft.toNat), by omega, inside, ?_⟩
  have left : s.seqK.toNat - (s.seqK.toNat - s.seqLeft.toNat) = s.seqLeft.toNat := by omega
  have byte : ∀ x : Byte, BitVec.ofNat 8 x.toNat = x := fun x => by rw [BitVec.ofNat_toNat, BitVec.setWidth_eq]
  simp only [walkProgress, left, ← counter, byte, BitVec.sub_add_cancel]
  exact value ▸ walking ▸ rfl

/-- A walking step keeps the invariant, also when it is the last one (R145, R146). -/
theorem inv_walkStep {s : State} (inv : s.Inv) (walking : s.phase = .walking) : (walkStep s).Inv := by
  have busy : s.busy = true := inv.busyPhase.1.mpr (by simp [walking])
  obtain ⟨cfgd, chain, -⟩ := inv.walking walking
  have byte := maxDigit_le (supportedW_of_inv inv cfgd)
  obtain ⟨j0, k, m, h, hm, inside, here⟩ := exists_walkProgress_of_walking inv walking
  have start : State.Inv { s with hcount := h } :=
    ⟨inv.lengths, inv.busyPhase, inv.config, inv.encoding, inv.code, inv.walking⟩
  rw [here, walkStep_walkProgress _ hm (by omega)]
  split
  · exact inv_finishWalk (lengthsOk_walkProgress j0 k k start.lengths) start.config start.encoding
  · exact inv_walkProgress start busy cfgd chain (by omega) inside

/-! ## Commands -/

/-- A command whose checks pass keeps the invariant: CFG loads the values of its w and N, ENCODE the encoding of QD_BUF,
a walk starts inside its chain (10_state.md R38, R42, 42_chain_walk.md R144). -/
theorem inv_effectOf {s : State} {i : Instr} (inv : s.Inv) (busy : s.busy = true) (passes : check i s = .ok) :
    (effectOf i s).Inv := by
  have ⟨lengths, _, config, encoding, _, _⟩ := inv
  obtain ⟨configured, -, chain, -, -⟩ := (check_eq_ok_iff i s).mp passes
  cases i with
  | cfg w =>
    have hw := supportedW_iff.mpr (check_cfg_eq_ok_iff.mp passes)
    exact inv_complete .ok lengths (fun _ => ⟨hw, rfl, rfl, rfl, rfl⟩) nofun
  | coefQ | coefE | cksum => exact inv_complete .ok lengths config encoding
  | encode =>
    obtain ⟨iBuf, vBuf, qdBuf, -, seqTmp⟩ := lengths
    have eBuf : (encodeDigest s.cfgW s.cfgU s.cfgLs s.qdBuf).length = s.par.n + 2 := by
      rw [encodeDigest_length, qdBuf]
    exact inv_complete .ok ⟨iBuf, vBuf, qdBuf, eBuf, seqTmp⟩ config fun _ => ⟨configured rfl, rfl⟩
  | walk | walkFull | walkSign | walkVerify =>
    exact inv_startWalk inv busy (configured rfl) (chain rfl) (walkCounters_le passes rfl)

/-! ## The host and the platform -/

/-- An issue makes BUSY = 1 with DONE and ERR clear (10_state.md R46); a buffer word written leaves the buffer's length,
and one of QD_BUF makes no claim on E_BUF (R30). -/
theorem inv_writeTarget {s : State} (target : Target) (val : Word) (inv : s.Inv) (free : s.busy = false) :
    (writeTarget target val s).Inv := by
  have ⟨lengths, _, config, encoding, code, _⟩ := inv
  have between := between_of_free inv free
  have ⟨iBuf, vBuf, qdBuf, eBuf, seqTmp⟩ := lengths
  cases target with
  | cmd => exact ⟨lengths, by simp [State.busyOk, writeTarget], config, encoding, Nat.zero_le _, nofun⟩
  | iBuf m =>
    exact inv_of_between between ⟨(setBufferWord_length _ _ _).trans iBuf, vBuf, qdBuf, eBuf, seqTmp⟩ config
      encoding code
  | vBuf m =>
    exact inv_of_between between ⟨iBuf, (setBufferWord_length _ _ _).trans vBuf, qdBuf, eBuf, seqTmp⟩ config
      encoding code
  | qdBuf m =>
    exact inv_of_between between ⟨iBuf, vBuf, (setBufferWord_length _ _ _).trans qdBuf, eBuf, seqTmp⟩ config
      nofun code
  | _ => exact inv_of_between between lengths config encoding code

/-- After a reset CFGD and EVALID are 0, so the free values of the configuration are bound by nothing (R210). -/
theorem inv_afterReset (par : Params) (draw : Nat) (agenda : List Event) (readLog : List Word) :
    (State.afterReset par draw agenda readLog).Inv :=
  inv_of_between ⟨rfl, rfl⟩ (afterReset_lengthsOk par draw agenda readLog) nofun nofun (Nat.zero_le _)

/-- The invariant says nothing of the events to come. -/
theorem inv_agenda {s : State} (agenda : List Event) (inv : s.Inv) : State.Inv { s with agenda := agenda } :=
  ⟨inv.lengths, inv.busyPhase, inv.config, inv.encoding, inv.code, inv.walking⟩

end Sys2Proof.Machine
end

section
/-! The statements about the invariant (10_state.md, 42_chain_walk.md, 70_reset_and_hazards.md). -/

set_option autoImplicit false

namespace Sys2Proof.Machine

open Sys2Proof

/-- Settles O49: each kind of step keeps the invariant, as what it does to the state does. -/
theorem everyStepKeepsTheInvariant : Obligations.EveryStepKeepsTheInvariant := by
  unfold Obligations.EveryStepKeepsTheInvariant
  intro s t inv h
  have ⟨lengths, busyPhase, config, encoding, code, walk⟩ := inv
  cases stepCase_of_step h with
  | idleTurn rest => exact inv_agenda rest inv
  | illegalWord | failedCheck => exact inv_complete _ lengths config encoding
  | command rest i turn phase word passes =>
    exact inv_effectOf (inv_agenda rest inv) (busyPhase.1.mpr (by simp [phase])) ((check_agenda i s rest).trans passes)
  | walking rest turn phase => exact inv_walkStep (inv_agenda rest inv) phase
  | read | lostWrite => exact ⟨lengths, busyPhase, config, encoding, code, walk⟩
  | write rest target val window head free => exact inv_writeTarget target val (inv_agenda rest inv) free
  | reset => exact inv_afterReset _ _ _ _

/-- Settles O27: a step to go means that the counter is below the last one of the chain. -/
theorem hashedCounterIsNeverKeyByte : Obligations.HashedCounterIsNeverKeyByte := by
  unfold Obligations.HashedCounterIsNeverKeyByte
  intro s inv walking
  obtain ⟨cfgd, -, some, most, counter, inside, -⟩ := inv.walking walking
  have byte := maxDigit_le (supportedW_of_inv inv cfgd)
  have below : s.seqJ.toNat ≤ maxDigit s.cfgW - 1 := by omega
  refine ⟨below, fun last => ?_⟩
  rw [last] at below
  exact absurd (below.trans (Nat.sub_le_sub_right byte 1)) (by decide)

/-- Settles O47: the state after a reset is written out in R210. -/
theorem resetStateIsAsSpecified : Obligations.ResetStateIsAsSpecified := by
  unfold Obligations.ResetStateIsAsSpecified
  exact ⟨rfl, packStatus_clear, rfl, rfl, rfl, rfl, rfl, afterReset_lengthsOk _ _ _ _, rfl, rfl,
    readTarget_cfgParam_of_not_configured rfl .paramW (by decide),
    readTarget_cfgParam_of_not_configured rfl .paramP (by decide)⟩

/-- Settles O48: the first reset is a reset. -/
theorem invariantHoldsAtReset : Obligations.InvariantHoldsAtReset :=
  inv_afterReset Params.reference 0 [] []

end Sys2Proof.Machine
end

section
/-! SUPPORT. When the checks of the codec commands and of WALK pass (41_codec.md R126 to R128, 42_chain_walk.md R147),
and what the dispatch of a walk leaves when they do (R144). -/

set_option autoImplicit false

namespace Sys2Proof.Machine

open Sys2Proof

theorem check_coefQ_eq_ok_iff {s : State} :
    check .coefQ s = .ok ↔ s.cfgd = true ∧ s.chainI.toNat < 8 * s.par.n / s.cfgW := by
  simp [check_eq_ok_iff, needsConfig, unsupportedConfig, isWalk, needsEncoding, operandRangeError]

theorem check_coefE_eq_ok_iff {s : State} :
    check .coefE s = .ok ↔ s.cfgd = true ∧ s.evalid = true ∧ s.chainI.toNat < 8 * (s.par.n + 2) / s.cfgW := by
  simp [check_eq_ok_iff, needsConfig, unsupportedConfig, isWalk, needsEncoding, operandRangeError]

theorem check_cksum_eq_ok_iff {s : State} : check .cksum s = .ok ↔ s.cfgd = true := by
  simp [check_eq_ok_iff, needsConfig, unsupportedConfig, isWalk, needsEncoding, operandRangeError]

theorem check_walk_eq_ok_iff {j0 k : Nat} {s : State} :
    check (.walk j0 k) s = .ok ↔ s.cfgd = true ∧ s.chainI.toNat < s.cfgP ∧ j0 + k ≤ maxDigit s.cfgW := by
  simp [check_eq_ok_iff, needsConfig, unsupportedConfig, isWalk, needsEncoding, operandRangeError]

section

variable {i : Instr} {s : State} {j0 k : Nat} (passes : check i s = .ok) (counters : walkCounters i s = some (j0, k))
include passes counters

/-- A walk with a step to take only loads the sequencer (R144). -/
theorem exec_walk_of_pos (hk : k ≠ 0) : exec i s = .next { loadWalk j0 k s with phase := .walking } := by
  rw [exec_of_check_eq_ok passes, effectOf_of_walkCounters counters, startWalk_eq, if_neg hk,
    loadWalk_eq_walkProgress]

/-- A walk of no step has its outcome at once (R144, R146). -/
theorem exec_walk_of_zero (hj : j0 < 256) (hk : k = 0) : exec i s = .next (walkOutcome j0 0 s) := by
  subst hk
  rw [exec_of_check_eq_ok passes, effectOf_of_walkCounters counters, startWalk_eq, if_pos rfl,
    finishWalk_walkProgress s hj (by decide)]

end

/-- One invocation of H, its input written out byte by byte (30_encoding.md R85). -/
theorem hashOnce_eq (s : State) :
    hashOnce s = { s with
      seqTmp := hashBytes s.par.n
        (s.iBuf ++
          [s.leafQ.extractLsb' 24 8, s.leafQ.extractLsb' 16 8, s.leafQ.extractLsb' 8 8, s.leafQ.extractLsb' 0 8] ++
          [s.chainI.extractLsb' 8 8, s.chainI.extractLsb' 0 8] ++ [s.seqJ] ++ s.seqTmp)
      hcount := s.hcount + 1, seqJ := s.seqJ + 1, seqLeft := s.seqLeft - 1 } := by
  rw [hashOnce, chainStep, BitVec.ofNat_toNat, BitVec.setWidth_eq]
  rfl

/-- The walk goes on while its step was not the last (R145). -/
theorem walkStep_of_seqLeft_ne_one {s : State} (more : s.seqLeft ≠ 1) : walkStep s = hashOnce s :=
  if_neg fun none => more (BitVec.sub_eq_iff_eq_add.mp none)

theorem walkStep_of_seqLeft_eq_one {s : State} (last : s.seqLeft = 1) : walkStep s = finishWalk (hashOnce s) :=
  if_pos (BitVec.sub_eq_iff_eq_add.mpr last)

end Sys2Proof.Machine
end

section
/-! The statements about single commands: their dispatch (10_state.md R47), CFG (40_control.md), the codec
(41_codec.md), the walks and their steps (42_chain_walk.md). -/

set_option autoImplicit false

namespace Sys2Proof.Machine

open Sys2Proof

/-- Settles O6: the turn dispatches CMD_LAST, whatever is to come. -/
theorem sequencerTurnRunsDecodedCommand : Obligations.SequencerTurnRunsDecodedCommand := by
  unfold Obligations.SequencerTurnRunsDecodedCommand
  intro s r i turn phase word
  rw [step_of_sequencerNext turn, exec_eq_checked]
  obtain ⟨agenda, rfl⟩ := eq_of_sequencerNext turn
  exact sequencerStep_of_command phase word

/-- Settles O9: a supported w is CFG's one check. -/
theorem cfgLoadsParameterSet : Obligations.CfgLoadsParameterSet := by
  unfold Obligations.CfgLoadsParameterSet
  intro w s width
  exact exec_of_check_eq_ok (check_cfg_eq_ok_iff.mpr width)

/-- Settles O14: the premises are the checks of COEF.Q. -/
theorem coefQWritesTheDigit : Obligations.CoefQWritesTheDigit := by
  unfold Obligations.CoefQWritesTheDigit
  intro s cfgd index
  exact exec_of_check_eq_ok (check_coefQ_eq_ok_iff.mpr ⟨cfgd, index⟩)

/-- Settles O15: the premises are the checks of COEF.E. -/
theorem coefEWritesTheDigit : Obligations.CoefEWritesTheDigit := by
  unfold Obligations.CoefEWritesTheDigit
  intro s cfgd evalid index
  exact exec_of_check_eq_ok (check_coefE_eq_ok_iff.mpr ⟨cfgd, evalid, index⟩)

/-- Settles O16: CFGD is the one check of CKSUM. -/
theorem cksumWritesTheChecksum : Obligations.CksumWritesTheChecksum := by
  unfold Obligations.CksumWritesTheChecksum
  intro s cfgd
  exact exec_of_check_eq_ok (check_cksum_eq_ok_iff.mpr cfgd)

/-- Settles O17: CFGD is the one check of ENCODE. -/
theorem encodeBuildsTheEncoding : Obligations.EncodeBuildsTheEncoding := by
  unfold Obligations.EncodeBuildsTheEncoding
  intro s cfgd
  exact exec_of_check_eq_ok (check_encode_eq_ok_iff.mpr cfgd)

/-- Settles O22: the premises are the checks of WALK. -/
theorem walkCommandStarts : Obligations.WalkCommandStarts := by
  unfold Obligations.WalkCommandStarts
  intro s j0 k wf cfgd chain inside
  have passes : check (.walk j0 k) s = .ok := check_walk_eq_ok_iff.mpr ⟨cfgd, chain, inside⟩
  have ⟨hj, _⟩ : j0 < 256 ∧ k < 256 := by simpa [Instr.wf] using wf
  refine ⟨fun none => ?_, exec_walk_of_pos passes rfl⟩
  subst none
  exact exec_walk_of_zero passes rfl hj rfl

/-- Settles O23: a whole chain has at least one step. -/
theorem walkFullStarts : Obligations.WalkFullStarts := by
  unfold Obligations.WalkFullStarts
  intro s cfgd hw chain
  exact exec_walk_of_pos (check_walkFull cfgd chain) rfl (Nat.one_le_iff_ne_zero.mp (maxDigit_pos hw))

/-- Settles O24: the walk has as many steps as the digit says. -/
theorem walkSignStarts : Obligations.WalkSignStarts := by
  unfold Obligations.WalkSignStarts
  intro s cfgd _ evalid chain
  obtain ⟨passes, -⟩ := check_digit_walk cfgd evalid chain
  exact ⟨exec_walk_of_zero passes rfl (by decide), exec_walk_of_pos passes rfl⟩

/-- Settles O25: the walk has a step exactly when the digit is not the largest. -/
theorem walkVerifyStarts : Obligations.WalkVerifyStarts := by
  unfold Obligations.WalkVerifyStarts
  intro s cfgd hw evalid chain
  obtain ⟨-, passes⟩ := check_digit_walk cfgd evalid chain
  have digit : coef s.cfgW s.eBuf s.chainI.toNat ≤ maxDigit s.cfgW := chainDigit_le s
  have byte := maxDigit_le hw
  refine ⟨fun top => ?_, fun below => exec_walk_of_pos passes rfl (Nat.sub_ne_zero_of_lt (digit.lt_of_ne below))⟩
  rw [← top]
  exact exec_walk_of_zero passes rfl (by omega) (Nat.sub_eq_zero_of_le top.ge)

/-- Settles O26: the turn is one hash, and the walk finishes when the steps left come to 0. -/
theorem walkingStepHashesOnce : Obligations.WalkingStepHashesOnce := by
  unfold Obligations.WalkingStepHashesOnce
  intro s r turn walking value
  obtain ⟨agenda, rfl⟩ := eq_of_sequencerNext turn
  have taken : step s = .next { walkStep s with agenda := agenda } := by
    rw [step_of_sequencerNext turn, ← walkStep_agenda]
    exact sequencerStep_of_walking walking
  refine ⟨fun more => ?_, fun last => ?_⟩
  · rw [taken, walkStep_of_seqLeft_ne_one more, hashOnce_eq]
  · rw [taken, walkStep_of_seqLeft_eq_one last, hashOnce_eq, last]
    rfl

end Sys2Proof.Machine
end

section
/-! SUPPORT. Digits as numbers: a number and a byte string are determined by their digits, and a digest with no lower
digit has no larger checksum (41_codec.md R120 to R123). -/

set_option autoImplicit false

namespace Sys2Proof.Machine

open Sys2Proof

/-- A number of `count` digits none of which is above the other number's is not above it. -/
theorem le_of_digits_le {b x y count : Nat} (hx : x < b ^ count)
    (digits : ∀ t < count, x / b ^ t % b ≤ y / b ^ t % b) : x ≤ y := by
  have low : ∀ t ≤ count, x % b ^ t ≤ y % b ^ t := fun t ht => by
    induction t with
    | zero => simp [Nat.mod_one]
    | succ t ih =>
      rw [Nat.mod_pow_succ, Nat.mod_pow_succ]
      exact Nat.add_le_add (ih (by omega)) (Nat.mul_le_mul_left _ (digits t ht))
  calc x = x % b ^ count := (Nat.mod_eq_of_lt hx).symm
    _ ≤ y % b ^ count := low count le_rfl
    _ ≤ y := Nat.mod_le _ _

/-- Digits that are nowhere lower make no larger sum of what they lack, and the same sum only if they are the same. -/
theorem digitSum_le_of_coef_le {w count : Nat} {q q' : Bytes} (lower : ∀ i < count, coef w q i ≤ coef w q' i) :
    digitSum w q' count ≤ digitSum w q count ∧
      (digitSum w q' count = digitSum w q count → ∀ i < count, coef w q i = coef w q' i) := by
  induction count with
  | zero => exact ⟨le_rfl, fun _ i hi => absurd hi (Nat.not_lt_zero i)⟩
  | succ count ih =>
    obtain ⟨sum, same⟩ := ih fun i hi => lower i (by omega)
    have last := lower count (by omega)
    have top := coef_le_maxDigit w q' count
    simp only [digitSum]
    refine ⟨by omega, fun equal i hi => ?_⟩
    obtain below | rfl := Nat.lt_succ_iff_lt_or_eq.mp hi
    · exact same (by omega) i below
    · omega

section
variable {w : Nat} (hw : supportedW w = true)
include hw

/-- The 8/w digits of byte k of a string are those of the number it is, most significant first (R121). -/
theorem coef_of_byte (s : Bytes) (k : Nat) {t : Nat} (ht : t < 8 / w) :
    coef w s (k * (8 / w) + (8 / w - 1 - t)) = (byteAt s k).toNat / (2 ^ w) ^ t % 2 ^ w := by
  have digitByte : (k * (8 / w) + (8 / w - 1 - t)) * w / 8 = k := by
    rcases supportedW_cases hw with rfl | rfl | rfl | rfl <;> omega
  have offset : 8 - w * ((k * (8 / w) + (8 / w - 1 - t)) % (8 / w) + 1) = w * t := by
    rcases supportedW_cases hw with rfl | rfl | rfl | rfl <;> omega
  rw [coef_eq hw, digitByte, offset, Nat.shiftRight_eq_div_pow, Nat.pow_mul]

/-- A byte string is determined by its u digits. -/
theorem eq_of_coef_eq {q q' : Bytes} (length : q.length = q'.length)
    (digits : ∀ i < deriveU q.length w, coef w q i = coef w q' i) : q = q' := by
  rw [← map_byteAt_range q, ← map_byteAt_range q', ← length]
  refine List.map_congr_left fun k hk => BitVec.eq_of_toNat_eq ?_
  rw [List.mem_range] at hk
  have byte : (2 ^ w) ^ (8 / w) = 2 ^ 8 := by
    rcases supportedW_cases hw with rfl | rfl | rfl | rfl <;> rfl
  have same : ∀ t < 8 / w,
      (byteAt q k).toNat / (2 ^ w) ^ t % 2 ^ w = (byteAt q' k).toNat / (2 ^ w) ^ t % 2 ^ w := fun t ht => by
    rw [← coef_of_byte hw q k ht, ← coef_of_byte hw q' k ht]
    refine digits _ ?_
    have hu := deriveU_mul (n := q.length) hw
    rcases supportedW_cases hw with rfl | rfl | rfl | rfl <;> omega
  exact le_antisymm (le_of_digits_le (byte.symm ▸ (byteAt q k).isLt) fun t ht => (same t ht).le)
    (le_of_digits_le (byte.symm ▸ (byteAt q' k).isLt) fun t ht => (same t ht).ge)

/-- The v digits of an encoding past those of its digest are the digits of the sum, most significant first (R130). -/
theorem coef_encodeDigest_sum {n : Nat} {q : Bytes} (hn : 1 ≤ n) (hmax : n ≤ 257) (length : q.length = n) {t : Nat}
    (ht : t < deriveV n w) :
    coef w (encodeDigest w (deriveU n w) (deriveLs n w) q) (deriveU n w + (deriveV n w - 1 - t)) =
      digitSum w q (deriveU n w) / (2 ^ w) ^ t % 2 ^ w := by
  subst length
  have place : deriveV q.length w - 1 - (deriveV q.length w - 1 - t) = t := by omega
  rw [encodeDigest, coef_append_right hw, coef_be16_of_lt_deriveV hw hn hmax _ (by omega), checksum_toNat hw hn hmax,
    place, Nat.and_two_pow_sub_one_eq_mod, Nat.shiftRight_eq_div_pow, Nat.shiftRight_eq_div_pow,
    Nat.mul_div_cancel _ (Nat.two_pow_pos _), Nat.pow_mul]

end

end Sys2Proof.Machine
end

section
/-! The statements about digits (41_codec.md R121, R122; 00_scope.md section 6). -/

set_option autoImplicit false

namespace Sys2Proof

open Machine

/-- Settles O18: a digit is a field of w bits of its byte, of which the other clauses are single cases. -/
theorem digitPlacement : Obligations.DigitPlacement := by
  unfold Obligations.DigitPlacement
  refine ⟨fun w s i width => ?_, fun s b => ⟨?_, ?_⟩, fun s b => ?_, fun s i => rfl⟩
  · rw [coef_eq (supportedW_iff.mpr width), BitVec.extractLsb'_toNat, byteAt]
  · have byte := (byteAt s b).isLt
    have digit := coef_of_byte (w := 4) rfl s b (t := 1) (by decide)
    have high : coef 4 s (b * 2 + 0) = (byteAt s b).toNat / 16 % 16 := digit
    rw [Nat.mul_comm, ← Nat.add_zero (b * 2), high]
    exact Nat.mod_eq_of_lt (by omega)
  · have low : coef 4 s (b * 2 + 1) = (byteAt s b).toNat / 1 % 16 := coef_of_byte (w := 4) rfl s b (t := 0) (by decide)
    rw [Nat.mul_comm, low, Nat.div_one, byteAt]
  · have bit : coef 1 s (b * 8 + 7) = (byteAt s b).toNat / 1 % 2 := coef_of_byte (w := 1) rfl s b (t := 0) (by decide)
    rw [Nat.mul_comm, bit, Nat.div_one, byteAt]

/-- Settles O21: were no digit lower, the digest's digits would give q' no larger a sum and the checksum's digits no
smaller one, so the sums and with them all digits of the digests would be the same. -/
theorem encodingOfAnotherDigestLowersSomeDigit : Obligations.EncodingOfAnotherDigestLowersSomeDigit := by
  unfold Obligations.EncodingOfAnotherDigestLowersSomeDigit
  intro n w q q' hn hmax width length length' differ
  have hw := supportedW_iff.mpr width
  by_contra noneLower
  push Not at noneLower
  have digest : ∀ i < deriveU n w, coef w q i ≤ coef w q' i := fun i hi => by
    have here := noneLower i (hi.trans_le (Nat.le_add_right _ _))
    rw [encodeDigest, encodeDigest, coef_append_left hw q _ (length.symm ▸ hi),
      coef_append_left hw q' _ (length'.symm ▸ hi)] at here
    exact here
  have sum : digitSum w q (deriveU n w) ≤ digitSum w q' (deriveU n w) := by
    have fits : digitSum w q (deriveU n w) < (2 ^ w) ^ deriveV n w := by
      rw [← Nat.pow_mul, Nat.mul_comm w]
      exact (digitSum_le w q _).trans_lt (maxDigit_mul_deriveU_lt_two_pow hw hn)
    refine le_of_digits_le fits fun t ht => ?_
    rw [← coef_encodeDigest_sum hw hn hmax length ht, ← coef_encodeDigest_sum hw hn hmax length' ht]
    exact noneLower _ (by rw [deriveP]; omega)
  obtain ⟨sum', same⟩ := digitSum_le_of_coef_le digest
  exact differ (eq_of_coef_eq hw (length.trans length'.symm) (length.symm ▸ same (le_antisymm sum' sum)))

end Sys2Proof
end

section
/-! SUPPORT. How far the sequencer is from idle (70_reset_and_hazards.md R220), what a walk's command reads of the state
(42_chain_walk.md R152), and that a host access leaves a walk alone (20_memory.md R73, R78, R79). -/

set_option autoImplicit false

namespace Sys2Proof.Machine

open Sys2Proof

/-! ## Completion -/

theorem turn_inv {s : State} (inv : s.Inv) : s.turn.Inv := by
  have turn : step { s with agenda := [] } = .next { s.turn with agenda := [] } := by
    rw [step_of_agenda_nil rfl, sequencerStep_eq_turn, turn_agenda]
  have kept : State.Inv { s.turn with agenda := [] } := everyStepKeepsTheInvariant _ _ (inv_agenda [] inv) turn
  exact inv_agenda (s := { s.turn with agenda := [] }) s.turn.agenda kept

/-- A dispatch step either completes or starts a walk (10_state.md R47). -/
theorem turn_phase_of_issued {s : State} (phase : s.phase = .issued) :
    s.turn.phase = .idle ∨ s.turn.phase = .walking := by
  match word : decode s.cmdLast with
  | .error .illegalCommand => exact .inl (by rw [turn_of_illegal phase word, complete_phase])
  | .ok i =>
    rw [turn_of_command phase word]
    by_cases passes : check i s = .ok
    · rw [checked_of_ok _ passes]
      exact (effectOf_busy_phase i s).imp And.right And.right
    · rw [checked_of_not_ok _ passes]
      exact .inl (complete_phase _ s)

/-- A walk with a step to go is over once its steps are taken: each turn takes one of them (42_chain_walk.md R145). -/
theorem iterate_turn_of_walking {s : State} {left : Nat} (walking : s.phase = .walking)
    (count : s.seqLeft.toNat = left + 1) : (State.turn^[left + 1] s).phase = .idle := by
  induction left generalizing s with
  | zero =>
    have last : s.seqLeft = 1 := BitVec.eq_of_toNat_eq count
    rw [Function.iterate_one, turn_of_walking walking, walkStep_of_seqLeft_eq_one last, finishWalk_phase]
  | succ left ih =>
    have more : s.seqLeft ≠ 1 := fun last => by simp [last] at count
    rw [Function.iterate_succ_apply, turn_of_walking walking, walkStep_of_seqLeft_ne_one more]
    refine ih walking ?_
    rw [hashOnce_seqLeft]
    bv_omega

/-- A walk has at most 255 steps (10_state.md R43). -/
theorem walking_completes {s : State} (inv : s.Inv) (walking : s.phase = .walking) :
    ∃ m ≤ 255, (State.turn^[m] s).phase = .idle := by
  obtain ⟨-, -, some, -⟩ := inv.walking walking
  have byte := s.seqLeft.isLt
  obtain ⟨left, count⟩ := Nat.exists_eq_add_of_le' some
  exact ⟨left + 1, by omega, iterate_turn_of_walking walking count⟩

/-- A command takes its dispatch step and then the steps of a walk, if it started one (R219). -/
theorem command_completes {s : State} (inv : s.Inv) : ∃ m ≤ 256, (State.turn^[m] s).phase = .idle := by
  cases phase : s.phase with
  | idle => exact ⟨0, by decide, phase⟩
  | walking =>
    obtain ⟨m, hm, idle⟩ := walking_completes inv phase
    exact ⟨m, by omega, idle⟩
  | issued =>
    obtain idle | walking := turn_phase_of_issued phase
    · exact ⟨1, by decide, idle⟩
    · obtain ⟨m, hm, idle⟩ := walking_completes (turn_inv inv) walking
      exact ⟨m + 1, by omega, idle⟩

/-! ## The operands of a walk -/

section

variable {s s' : State} {i : Instr} {j0 k : Nat} (counters : walkCounters i s = some (j0, k)) (cfgW : s'.cfgW = s.cfgW)
  (chainI : s'.chainI = s.chainI) (encoding : needsEncoding i = true → s'.evalid = s.evalid ∧ s'.eBuf = s.eBuf)
include counters cfgW chainI encoding

/-- The counters of a walk come from its word and, where it needs the encoding, from digit CHAIN_I (R147 to R150). -/
theorem walkCounters_of_operands_eq : walkCounters i s' = some (j0, k) := by
  rw [← counters]
  cases i with
  | walkSign | walkVerify =>
    obtain ⟨-, eBuf⟩ := encoding rfl
    simp only [walkCounters, State.chainDigit, cfgW, chainI, eBuf]
  | _ => simp only [walkCounters, cfgW]

/-- The checks of a walk look at its operands only (60_exceptions.md R192). -/
theorem check_of_operands_eq (cfgd : s'.cfgd = s.cfgd) (cfgP : s'.cfgP = s.cfgP) (passes : check i s = .ok) :
    check i s' = .ok := by
  rw [check_eq_ok_iff] at passes ⊢
  obtain ⟨configured, supported, chain, encoded, range⟩ := passes
  refine ⟨fun needs => cfgd.trans (configured needs), supported, fun walk => ?_, fun needs => ?_, ?_⟩
  · rw [chainI, cfgP]
    exact chain walk
  · exact (encoding needs).1.trans (encoded needs)
  · cases i with
    | coefQ | coefE => cases counters
    | walk => simpa only [operandRangeError, cfgW] using range
    | _ => rfl

end

/-! ## Accesses during a walk -/

theorem walkStep_blockView (s : State) : walkStep s.blockView = (walkStep s).blockView := by
  obtain ⟨last, h⟩ | ⟨more, h⟩ := walkStep_cases s
  · rw [h]
    exact if_pos last
  · rw [h]
    exact if_neg more

/-- An access that the window admits is the read or write of its target (20_memory.md R60, R61). -/
theorem step_access_of_ok {s : State} {addr width : Nat} {target : Target} (val : Word) (rest : List Event)
    (window : accessTarget s.par addr width = .ok target) :
    step { s with agenda := .read addr width :: rest } = .next (hostRead target { s with agenda := rest }) ∧
    step { s with agenda := .write addr width val :: rest } =
      .next (hostWrite target val { s with agenda := rest }) := by
  simp only [step, handle, busRead, busWrite, window, and_self]

/-- A host access while BUSY = 1 touches nothing that the block works on (20_memory.md R78, R79). -/
theorem step_access_of_busy {s : State} {e : Event} (rest : List Event) (busy : s.busy = true)
    (admitted : e.isAdmittedAccess s.par = true) :
    ∃ t : State, step { s with agenda := e :: rest } = .next { t with agenda := rest } ∧ t.blockView = s.blockView := by
  cases e with
  | sequencer | reset => cases admitted
  | read addr width =>
    cases window : accessTarget s.par addr width with
    | error => simp [Event.isAdmittedAccess, window] at admitted
    | ok target =>
      obtain ⟨val, draws, read, -, -⟩ := hostRead_cases target { s with agenda := rest }
      refine ⟨{ s with readLog := val :: s.readLog, draws := draws }, ?_, rfl⟩
      rw [(step_access_of_ok 0 rest window).1, read]
  | write addr width val =>
    cases window : accessTarget s.par addr width with
    | error => simp [Event.isAdmittedAccess, window] at admitted
    | ok target =>
      refine ⟨{ s with overrun := true }, ?_, rfl⟩
      rw [(step_access_of_ok val rest window).2, hostWrite, if_pos busy]

/-- Turns of a walk and host accesses in any order: the block is as the turns alone leave one that looked the same. -/
theorem runSteps_interleaved {s s' : State} (events : List Event) (busy : s.busy = true) (walking : s.phase = .walking)
    (same : s.blockView = s'.blockView) (admitted : ∀ e ∈ events, e = .sequencer ∨ e.isAdmittedAccess s.par = true)
    (few : events.count .sequencer < s.seqLeft.toNat) :
    ∃ t, runSteps events.length { s with agenda := events } = .next t ∧
      t.blockView = (State.turn^[events.count .sequencer] s').blockView ∧ t.phase = .walking := by
  induction events generalizing s s' with
  | nil => exact ⟨_, rfl, same, walking⟩
  | cons e rest ih =>
    have later : ∀ e ∈ rest, e = .sequencer ∨ e.isAdmittedAccess s.par = true := fun e he =>
      admitted e (List.mem_cons_of_mem _ he)
    by_cases turn : e = .sequencer
    · subst turn
      rw [List.count_cons_self] at few ⊢
      have more : s.seqLeft ≠ 1 := fun last => by simp [last] at few
      have taken : step { s with agenda := .sequencer :: rest } = .next { hashOnce s with agenda := rest } := by
        rw [step_of_agenda_cons rfl, ← walkStep_of_seqLeft_ne_one more, ← walkStep_agenda]
        exact sequencerStep_of_walking walking
      have walking' : s'.phase = .walking := (congrArg State.phase same).symm.trans walking
      have same' : (hashOnce s).blockView = s'.turn.blockView := by
        rw [← walkStep_of_seqLeft_ne_one more, ← walkStep_blockView, same, walkStep_blockView,
          turn_of_walking walking']
      rw [List.length_cons, runSteps_succ taken, Function.iterate_succ_apply]
      exact ih busy walking same' later (by rw [hashOnce_seqLeft]; bv_omega)
    · obtain ⟨t, accessed, untouched⟩ := step_access_of_busy rest busy
        ((admitted e List.mem_cons_self).resolve_left turn)
      rw [List.count_cons_of_ne turn, List.length_cons, runSteps_succ accessed]
      rw [List.count_cons_of_ne turn] at few
      refine ih ((congrArg State.busy untouched).trans busy) ((congrArg State.phase untouched).trans walking)
        (untouched.trans same) ?_ ?_
      · rw [show t.par = s.par from (congrArg State.par untouched :)]
        exact later
      · rw [show t.seqLeft = s.seqLeft from (congrArg State.seqLeft untouched :)]
        exact few

end Sys2Proof.Machine
end

section
/-! The statements about commands completing, about what a walk reads and what disturbs it, and about the host's
operations as functions (42_chain_walk.md, 20_memory.md, 70_reset_and_hazards.md, 45_host_sequences.md). -/

set_option autoImplicit false

namespace Sys2Proof.Machine

open Sys2Proof

/-- Settles O30: a dispatch step, and then at most 255 steps of a walk. -/
theorem everyCommandCompletes : Obligations.EveryCommandCompletes := by
  unfold Obligations.EveryCommandCompletes
  intro s inv empty
  obtain ⟨m, hm, idle⟩ := command_completes inv
  have orderly := iterate_turn_orderly inv.busyPhase.1 m
  exact ⟨m, hm, _, runSteps_eq_iterate_turn empty m, idle, Bool.eq_false_iff.mpr fun busy => orderly.mp busy idle⟩

/-- Settles O32: both walks have the same counters and the outcome of R146, which is made of the operands. -/
theorem walkReadsOnlyItsOperands : Obligations.WalkReadsOnlyItsOperands := by
  unfold Obligations.WalkReadsOnlyItsOperands
  intro s s' i j0 k inv inv' phase phase' empty empty' word word' counters passes par cfgd cfgW cfgP chainI leafQ iBuf
    vBuf encoding
  have counters' := walkCounters_of_operands_eq counters cfgW chainI encoding
  have passes' := check_of_operands_eq counters cfgW chainI encoding cfgd cfgP passes
  have configured := ((check_eq_ok_iff i s).mp passes).1 (needsConfig_of_walkCounters counters)
  have hw := supportedW_of_inv inv configured
  have hw' := supportedW_of_inv inv' (cfgd.trans configured)
  have grown : ∀ count : Word, count + BitVec.ofNat 32 k - count = BitVec.ofNat 32 k := fun count => by
    rw [BitVec.add_comm, BitVec.add_sub_cancel]
  refine ⟨_, _, runSteps_issued_walk phase empty word passes counters hw,
    runSteps_issued_walk phase' empty' word' passes' counters' hw', ?_, rfl, ?_, rfl⟩
  · simp only [walkOutcome, State.hash, par, chainI, leafQ, iBuf, vBuf]
  · exact (grown s.hcount).trans (grown s'.hcount).symm

/-- Settles O58: no access touches what the walk works on, and the turns find the walk as the accesses left it. -/
theorem hostAccessesDoNotDisturbAWalk : Obligations.HostAccessesDoNotDisturbAWalk := by
  unfold Obligations.HostAccessesDoNotDisturbAWalk
  intro s events inv walking admitted few
  have busy : s.busy = true := inv.busyPhase.1.mpr (by simp [walking])
  obtain ⟨t, run, view, phase⟩ :=
    runSteps_interleaved (s' := { s with agenda := [] }) events busy walking rfl admitted few
  exact ⟨t, _, run, runSteps_eq_iterate_turn rfl _, view, phase⟩

/-- Settles O59: the elements of the key are outputs of H, one a chain, and verification walks each on from its
digit to its top. -/
theorem signatureVerifies : Obligations.SignatureVerifies := by
  unfold Obligations.SignatureVerifies
  intro n w seed ident q c message _ _ _ randomizer h xs
  have chains : xs.length = h.p := by simp [xs, privateKey]
  have lengths : ∀ x ∈ xs, x.length = h.n := by simp [xs, h, privateKey, privateElement]
  obtain ⟨-, genuine⟩ := verify_walkChains (h := h) (message := message) (ident := ident) (q := q)
    (hashBytes_length n) randomizer chains lengths
  exact ⟨_, if_neg (not_not.mpr randomizer), genuine⟩

end Sys2Proof.Machine
end

section
/-! SUPPORT. Frames: the fields that StartWalk and a walking step may write (42_chain_walk.md R144 to R146), and the
offsets of the words of a buffer (10_state.md R24). -/

set_option autoImplicit false

namespace Sys2Proof.Machine

open Sys2Proof

/-- StartWalk writes the sequencer's fields, RESULT and the flags of a completion; V_BUF it leaves also when it finishes
the walk, whose value is then V_BUF (R144, R146). -/
theorem startWalk_frame (j0 k : Nat) (s : State) :
    ∃ result err busy done phase seqJ0 seqK seqJ seqLeft seqTmp, startWalk j0 k s = { s with
      result := result, err := err, busy := busy, done := done, phase := phase, seqJ0 := seqJ0, seqK := seqK
      seqJ := seqJ, seqLeft := seqLeft, seqTmp := seqTmp } := by
  obtain ⟨-, h⟩ | ⟨-, h⟩ := startWalk_cases j0 k s
  · exact ⟨_, _, _, _, _, _, _, _, _, _, h⟩
  · exact ⟨_, _, _, _, _, _, _, _, _, _, h⟩

/-- A walk's command writes what StartWalk writes (R147 to R150). -/
theorem effectOf_frame_of_isWalk {i : Instr} (walk : isWalk i = true) (s : State) :
    ∃ result err busy done phase seqJ0 seqK seqJ seqLeft seqTmp, effectOf i s = { s with
      result := result, err := err, busy := busy, done := done, phase := phase, seqJ0 := seqJ0, seqK := seqK
      seqJ := seqJ, seqLeft := seqLeft, seqTmp := seqTmp } := by
  cases i with
  | walk | walkFull | walkSign | walkVerify => exact startWalk_frame _ _ s
  | cfg | coefQ | coefE | cksum | encode => cases walk

/-- A walking step writes the value and the counters of the walk, HCOUNT, V_BUF, RESULT and the flags of a completion
(R145, R146). -/
theorem walkStep_frame (s : State) :
    ∃ vBuf result hcount err busy done phase seqJ seqLeft seqTmp, walkStep s = { s with
      vBuf := vBuf, result := result, hcount := hcount, err := err, busy := busy, done := done, phase := phase
      seqJ := seqJ, seqLeft := seqLeft, seqTmp := seqTmp } := by
  obtain ⟨-, h⟩ | ⟨-, h⟩ := walkStep_cases s
  · exact ⟨_, _, _, _, _, _, _, _, _, _, h⟩
  · exact ⟨_, _, _, _, _, _, _, _, _, _, h⟩

/-- A dispatched command has completed with OK, or has started a walk and left RESULT to its end (R33). -/
theorem effectOf_result (i : Instr) (s : State) :
    ((effectOf i s).phase = .idle ∧ (effectOf i s).err = 0 ∧ (effectOf i s).done = true ∧
      (effectOf i s).busy = false) ∨ (effectOf i s).result = s.result := by
  have started : ∀ j0 k, ((startWalk j0 k s).phase = .idle ∧ (startWalk j0 k s).err = 0 ∧
      (startWalk j0 k s).done = true ∧ (startWalk j0 k s).busy = false) ∨ (startWalk j0 k s).result = s.result :=
    fun j0 k => by
      obtain ⟨-, h⟩ | ⟨-, h⟩ := startWalk_cases j0 k s <;> simp [h]
  cases i with
  | walk | walkFull | walkSign | walkVerify => exact started _ _
  | cfg | coefQ | coefE | cksum | encode => exact .inl ⟨rfl, rfl, rfl, rfl⟩

/-- The dispatch of a command whose checks pass, whatever is to come. -/
theorem exec_agenda_of_check_eq_ok {i : Instr} {s : State} (agenda : List Event) (passes : check i s = .ok) :
    exec i { s with agenda := agenda } = .next (effectOf i { s with agenda := agenda }) :=
  exec_of_check_eq_ok ((check_agenda i s agenda).trans passes)

/-- Every word of a buffer has a byte of it (R24, 20_memory.md R66). -/
theorem word_lt_of_lt_wordCount {len m : Nat} (h : m < wordCount len) : 4 * m < len := by
  unfold wordCount at h
  omega

end Sys2Proof.Machine
end

section
/-! The statements about what commands and steps leave alone (30_encoding.md R91, 10_state.md R33 to R42). -/

set_option autoImplicit false

namespace Sys2Proof.Machine

open Sys2Proof

/-- Settles O33: a failed check only completes, and the effect of each command writes what its row lists. -/
theorem commandsTouchOnlyTheirOutputs : Obligations.CommandsTouchOnlyTheirOutputs := by
  unfold Obligations.CommandsTouchOnlyTheirOutputs
  intro i s t h
  obtain ⟨-, rfl⟩ | ⟨-, rfl⟩ := exec_cases h
  · cases walk : isWalk i with
    | true =>
      obtain ⟨_, _, _, _, _, _, _, _, _, _, frame⟩ := effectOf_frame_of_isWalk walk s
      have notCfg : ¬ ∃ w, i = .cfg w := fun ⟨w, cfg⟩ => by simp [cfg, isWalk] at walk
      simp [frame, notCfg]
    | false =>
      cases i with
      | walk | walkFull | walkSign | walkVerify => cases walk
      | cfg | coefQ | coefE | cksum | encode => simp [effectOf, cfgEffect, coefEffect, cksumEffect, encodeEffect]
  · simp

/-- Settles O34: the words that are read are made of the fields that the frame of the dispatch leaves. -/
theorem otherWindowWordsReadAsBefore : Obligations.OtherWindowWordsReadAsBefore := by
  unfold Obligations.OtherWindowWordsReadAsBefore
  intro i s t target h notStatus notResult notParam notEncoding
  obtain ⟨⟨par, cmdLast, -, hcount, leafQ, chainI, iBuf, qdBuf, -⟩, config, -, eBuf, vBuf, -, -⟩ :=
    commandsTouchOnlyTheirOutputs i s t h
  cases target with
  | status => exact absurd rfl notStatus
  | result => exact absurd rfl notResult
  | paramW | paramU | paramV | paramLs | paramP =>
    obtain ⟨cfgd, cfgW, cfgU, cfgV, cfgLs, cfgP⟩ := config fun w cfg => notParam ⟨w, cfg⟩ (by decide)
    simp only [State.readTarget, State.paramWord, cfgd, cfgW, cfgU, cfgV, cfgLs, cfgP]
  | eBuf m => simp only [State.readTarget, eBuf fun encode => notEncoding encode m rfl]
  | cmd | hcount | leafQ | chainI | paramN | paramIlen | iBuf m | vBuf m | qdBuf m =>
    simp only [State.readTarget, par, cmdLast, hcount, leafQ, chainI, iBuf, vBuf, qdBuf]

/-- Settles O13: of all steps only a dispatched CFG and reset write the configuration; none writes N, I_LEN, BASE. -/
theorem parametersChangeOnlyByCfg : Obligations.ParametersChangeOnlyByCfg := by
  unfold Obligations.ParametersChangeOnlyByCfg
  intro s t h
  cases stepCase_of_step h with
  | idleTurn | illegalWord | failedCheck | read | lostWrite =>
    exact ⟨rfl, fun _ => .inl ⟨rfl, rfl, rfl, rfl, rfl, rfl⟩⟩
  | command rest i turn phase word passes =>
    obtain ⟨⟨par, -⟩, config, -⟩ := commandsTouchOnlyTheirOutputs _ _ _ (exec_agenda_of_check_eq_ok rest passes)
    refine ⟨par, fun _ => ?_⟩
    by_cases cfg : ∃ w, i = .cfg w
    · obtain ⟨w, rfl⟩ := cfg
      exact .inr ⟨_, w, turn, phase, word, check_cfg_eq_ok_iff.mp passes, rfl⟩
    · obtain ⟨cfgd, cfgW, cfgU, cfgV, cfgLs, cfgP⟩ := config (not_exists.mp cfg)
      exact .inl ⟨cfgW, cfgU, cfgV, cfgLs, cfgP, cfgd⟩
  | walking rest =>
    obtain ⟨_, _, _, _, _, _, _, _, _, _, frame⟩ := walkStep_frame { s with agenda := rest }
    rw [frame]
    exact ⟨rfl, fun _ => .inl ⟨rfl, rfl, rfl, rfl, rfl, rfl⟩⟩
  | write rest target val => cases target <;> exact ⟨rfl, fun _ => .inl ⟨rfl, rfl, rfl, rfl, rfl, rfl⟩⟩
  | reset rest head => exact ⟨rfl, fun noReset => absurd (by rw [head]; rfl) noReset⟩

/-- Settles O56: of all steps only reset and a write while BUSY = 0 touch the four, a write only its own words. -/
theorem operandRegistersBelongToTheHost : Obligations.OperandRegistersBelongToTheHost := by
  unfold Obligations.OperandRegistersBelongToTheHost
  intro s t h noReset wrote
  cases stepCase_of_step h with
  | idleTurn | illegalWord | failedCheck | read | lostWrite =>
    exact ⟨absurd rfl, absurd rfl, absurd rfl, absurd rfl⟩
  | command rest i turn phase word passes =>
    obtain ⟨⟨-, -, -, -, leafQ, chainI, iBuf, qdBuf, -⟩, -⟩ :=
      commandsTouchOnlyTheirOutputs _ _ _ (exec_agenda_of_check_eq_ok rest passes)
    exact ⟨absurd leafQ, absurd chainI, absurd iBuf, absurd qdBuf⟩
  | walking rest =>
    obtain ⟨_, _, _, _, _, _, _, _, _, _, frame⟩ := walkStep_frame { s with agenda := rest }
    rw [frame]
    exact ⟨absurd rfl, absurd rfl, absurd rfl, absurd rfl⟩
  | reset rest head => exact absurd (by rw [head]; rfl) noReset
  | write rest target val window head free =>
    have here : ∀ lo hi, lo ≤ target.offset → target.offset < hi → wrote lo hi := fun lo hi low high =>
      ⟨free, target.offset, val, low, high, by rw [head]; rfl⟩
    cases target with
    | leafQ => exact ⟨fun _ => here _ _ (by decide) (by decide), absurd rfl, absurd rfl, absurd rfl⟩
    | chainI => exact ⟨absurd rfl, fun _ => here _ _ (by decide) (by decide), absurd rfl, absurd rfl⟩
    | iBuf m =>
      have word := word_lt_of_lt_wordCount window
      have len := s.par.iLenRange
      exact ⟨absurd rfl, absurd rfl, fun _ => here _ _ (Nat.le_add_right _ _) (by simp only [Target.offset]; omega),
        absurd rfl⟩
    | qdBuf m =>
      have word := word_lt_of_lt_wordCount window
      have len := s.par.nRange
      exact ⟨absurd rfl, absurd rfl, absurd rfl,
        fun _ => here _ _ (Nat.le_add_right _ _) (by simp only [Target.offset]; omega)⟩
    | _ => exact ⟨absurd rfl, absurd rfl, absurd rfl, absurd rfl⟩

/-- Settles O57: of all steps only reset, a dispatched command, a walk's end and a write to V_BUF touch the three. -/
theorem resultBuffersChangeOnlyByTheirCommands : Obligations.ResultBuffersChangeOnlyByTheirCommands := by
  unfold Obligations.ResultBuffersChangeOnlyByTheirCommands
  intro s t h noReset
  cases stepCase_of_step h with
  | idleTurn | illegalWord | failedCheck | read | lostWrite => exact ⟨absurd rfl, absurd rfl, absurd rfl⟩
  | command rest i turn phase word passes =>
    obtain ⟨-, -, -, eBuf, vBuf, -, -⟩ :=
      commandsTouchOnlyTheirOutputs _ _ _ (exec_agenda_of_check_eq_ok rest passes)
    refine ⟨absurd vBuf, fun changed => ?_, fun changed => ?_⟩
    · have encode : i = .encode := by
        by_contra other
        exact changed (eBuf other)
      subst encode
      exact ⟨phase, word, rfl, rfl⟩
    · obtain completed | kept := effectOf_result i { s with agenda := rest }
      · exact ⟨by simp [phase], completed⟩
      · exact absurd kept changed
  | walking rest turn phase =>
    obtain ⟨-, walk⟩ | ⟨-, walk⟩ := walkStep_cases { s with agenda := rest }
    · rw [walk]
      exact ⟨fun _ => .inr ⟨phase, rfl, rfl, rfl, rfl⟩, absurd rfl, fun _ => ⟨by simp [phase], rfl, rfl, rfl, rfl⟩⟩
    · rw [walk]
      exact ⟨absurd rfl, absurd rfl, absurd rfl⟩
  | reset rest head => exact absurd (by rw [head]; rfl) noReset
  | write rest target val window head free =>
    cases target with
    | vBuf m =>
      have word := word_lt_of_lt_wordCount window
      have len := s.par.nRange
      exact ⟨fun _ => .inl ⟨free, 0x200 + 4 * m, val, by omega, by omega, by rw [head]; rfl⟩, absurd rfl, absurd rfl⟩
    | _ => exact ⟨absurd rfl, absurd rfl, absurd rfl⟩

end Sys2Proof.Machine
end

section
/-! SUPPORT. Which accesses the window admits (20_memory.md R62, R63), what a read of an idle block returns (R60, R65),
and runs of host accesses one after another (30_encoding.md R95). -/

set_option autoImplicit false

namespace Sys2Proof.Machine

open Sys2Proof

/-! ## Admission -/

/-- The window admits an access exactly when it is a 32-bit one at an aligned address of a defined offset (R62, R63). -/
theorem accessTarget_admits_iff {par : Params} {addr width : Nat} :
    (∃ target, accessTarget par addr width = .ok target) ↔
      width = 32 ∧ addr % 4 = 0 ∧ par.base ≤ addr ∧ definedOffset par (addr - par.base) := by
  constructor
  · rintro ⟨target, admitted⟩
    obtain ⟨rfl, rfl, window⟩ := accessTarget_eq_ok admitted
    have base := par.baseAligned
    have aligned := offset_mod_four target
    refine ⟨rfl, by omega, Nat.le_add_right _ _, ?_⟩
    rw [Nat.add_sub_cancel_left]
    exact definedOffset_iff.mpr ⟨target, window, rfl⟩
  · rintro ⟨rfl, -, low, defined⟩
    obtain ⟨target, window, offset⟩ := definedOffset_iff.mp defined
    have address : addr = par.base + target.offset := by omega
    exact ⟨target, address ▸ accessTarget_of_inWindow window⟩

/-- Any other access is stuck on the fault that the window names (R62, R63). -/
theorem step_access_of_error {s : State} {addr width : Nat} {f : Fault} (val : Word) (rest : List Event)
    (window : accessTarget s.par addr width = .error f) :
    step { s with agenda := .read addr width :: rest } = .fault f ∧
    step { s with agenda := .write addr width val :: rest } = .fault f := by
  simp only [step, handle, busRead, busWrite, window, and_self]

/-! ## Reads of an idle block -/

/-- A host read while BUSY = 0 logs the word of R60, and nothing else changes. -/
theorem afterRead_of_idle {s : State} {target : Target} (window : target.inWindow s.par) (free : s.busy = false) :
    afterRead s target.offset { s with readLog := s.readTarget target :: s.readLog } := by
  intro rest
  obtain ⟨val, draws, read, while_free, -⟩ := hostRead_cases target { s with agenda := rest }
  obtain ⟨rfl, rfl⟩ := while_free free
  rw [step_read window, read, readTarget_agenda]

/-- The bytes of a buffer word (R65, R66). -/
theorem wordShown_bufferWord (b : Bytes) (m : Nat) : wordShown b m (bufferWord b m) := fun k hk =>
  wordByte_bufferWord b m k hk

/-- What a read returns does not depend on what has been read. -/
@[simp] theorem readTarget_readLog (s : State) (readLog : List Word) (target : Target) :
    State.readTarget { s with readLog := readLog } target = s.readTarget target := by cases target <;> rfl

/-! ## Accesses one after another -/

/-- Events each of which takes a state of P to a state of P: the run of them all is their effects one after another. -/
theorem runSteps_events {P : State → Prop} {event : Nat → Event} {effect : Nat → State → State} {ms : List Nat}
    {s : State} (start : P s) (steps : ∀ m ∈ ms, ∀ u, P u → P (effect m u) ∧
      ∀ rest, step { u with agenda := event m :: rest } = .next { effect m u with agenda := rest }) :
    runSteps ms.length { s with agenda := ms.map event } =
      .next { ms.foldl (fun u m => effect m u) s with agenda := [] } := by
  induction ms generalizing s with
  | nil => rfl
  | cons m ms ih =>
    obtain ⟨kept, first⟩ := steps m List.mem_cons_self s start
    rw [List.length_cons, List.map_cons, runSteps_succ (first _)]
    exact ih kept fun m hm => steps m (List.mem_cons_of_mem _ hm)

/-- Writes to an idle block, none of them to CMD, are the writes of R61 one after another. -/
theorem runSteps_writes {s : State} {target : Nat → Target} (data : ∀ m, target m ≠ .cmd) (bytes : Bytes)
    {ms : List Nat} (between : s.between) (window : ∀ m ∈ ms, (target m).inWindow s.par) :
    runSteps ms.length { s with agenda := ms.map fun m => wr s.par (target m) (bufferWord bytes m) } =
      .next { ms.foldl (fun s m => writeTarget (target m) (bufferWord bytes m) s) s with agenda := [] } := by
  refine runSteps_events (P := fun u => u.between ∧ u.par = s.par) ⟨between, rfl⟩ fun m hm u ⟨idle, par⟩ => ?_
  refine ⟨⟨writeTarget_between _ (data m) idle, (writeTarget_par _ _ u).trans par⟩, ?_⟩
  rw [← par]
  exact afterWrite_of_idle (par ▸ window m hm) _ idle.2

/-- The accesses of `wrbuf`, one a word of the string (30_encoding.md R95). -/
theorem wrbuf_eq_map (par : Params) (target : Nat → Target) (bytes : Bytes) :
    wrbuf par target bytes =
      (List.range (wordCount bytes.length)).map fun m => wr par (target m) (bufferWord bytes m) :=
  List.map_map

/-- `wrbuf` to an idle block writes all words of the string (R95). -/
theorem runSteps_wrbuf {s : State} {target : Nat → Target} {bytes : Bytes} (data : ∀ m, target m ≠ .cmd)
    (between : s.between) (window : ∀ m < wordCount bytes.length, (target m).inWindow s.par) :
    runSteps (wrbuf s.par target bytes).length { s with agenda := wrbuf s.par target bytes } =
      .next { (List.range (wordCount bytes.length)).foldl
        (fun s m => writeTarget (target m) (bufferWord bytes m) s) s with agenda := [] } := by
  rw [wrbuf_eq_map, List.length_map]
  exact runSteps_writes data bytes between fun m hm => window m (List.mem_range.mp hm)

/-- Words put at the head of the log one after another stand in it in reverse. -/
theorem foldl_log (ms : List Nat) (word : Nat → Word) (s : State) :
    ms.foldl (fun u m => { u with readLog := word m :: u.readLog }) s =
      { s with readLog := (ms.map word).reverse ++ s.readLog } := by
  induction ms generalizing s with
  | nil => rfl
  | cons m ms ih => rw [List.foldl_cons, ih, List.map_cons, List.reverse_cons, List.append_assoc]; rfl

/-- Reads of an idle block log the words of R60 in order. -/
theorem runSteps_reads {s : State} {target : Nat → Target} {ms : List Nat} (free : s.busy = false)
    (window : ∀ m ∈ ms, (target m).inWindow s.par) :
    runSteps ms.length { s with agenda := ms.map fun m => rd s.par (target m) } =
      .next { s with
        agenda := [], readLog := (ms.map fun m => s.readTarget (target m)).reverse ++ s.readLog } := by
  have run := runSteps_events (P := fun u => ∃ log, u = { s with readLog := log })
    (event := fun m => rd s.par (target m))
    (effect := fun m u => { u with readLog := s.readTarget (target m) :: u.readLog }) (ms := ms) ⟨s.readLog, rfl⟩ ?_
  · rwa [foldl_log] at run
  · rintro m hm u ⟨log, rfl⟩
    have read := afterRead_of_idle (s := { s with readLog := log }) (window m hm) free
    rw [readTarget_readLog] at read
    exact ⟨⟨_, rfl⟩, read⟩

/-- `rdbuf` of an idle block returns the bytes of the buffer, the padding of its last word cut off (R95, R66). -/
theorem runSteps_rdbuf {s : State} {target : Nat → Target} {b : Bytes} {len : Nat} (free : s.busy = false)
    (unread : s.readLog = []) (held : b.length = len) (shows : ∀ m, s.readTarget (target m) = bufferWord b m)
    (window : ∀ m < wordCount len, (target m).inWindow s.par) :
    ∃ t, runSteps (rdbuf s.par target len).length { s with agenda := rdbuf s.par target len } = .next t ∧
      bytesOfWords t.readLog.reverse len = b := by
  subst held
  have run := runSteps_reads free fun m hm => window m (List.mem_range.mp hm)
  refine ⟨_, by rw [rdbuf, List.length_map]; exact run, ?_⟩
  simp only [unread, shows, List.append_nil, List.reverse_reverse]
  exact bytesOfWords_bufferWord b

end Sys2Proof.Machine
end

section
/-! The statements about the host's accesses while BUSY = 0 (20_memory.md, 30_encoding.md R95). -/

set_option autoImplicit false

namespace Sys2Proof.Machine

open Sys2Proof

/-- Settles O35: what the window admits has a step, and what it does not is the fault it names. -/
theorem onlyAdmittedAccessesHaveAStep : Obligations.OnlyAdmittedAccessesHaveAStep := by
  unfold Obligations.OnlyAdmittedAccessesHaveAStep
  intro s addr width val rest admitted
  have admits : (∃ target, accessTarget s.par addr width = .ok target) ↔ admitted := accessTarget_admits_iff
  cases window : accessTarget s.par addr width with
  | ok target =>
    have ⟨read, write⟩ := step_access_of_ok val rest window
    exact ⟨fun _ => ⟨⟨_, read⟩, _, write⟩, fun refused => absurd (admits.mp ⟨target, window⟩) refused⟩
  | error f =>
    have ⟨read, write⟩ := step_access_of_error val rest window
    refine ⟨fun here => ?_, fun _ => ⟨⟨f, read⟩, f, write⟩⟩
    obtain ⟨target, ok⟩ := admits.mpr here
    exact nomatch window.symm.trans ok

/-- Settles O36: each read is the read of its target, and a buffer word shows its four bytes. -/
theorem idleReadReturnsTheRegister : Obligations.IdleReadReturnsTheRegister := by
  unfold Obligations.IdleReadReturnsTheRegister
  intro s free shows param
  have idle : ∀ target : Target, target.inWindow s.par → shows target.offset (s.readTarget target) :=
    fun target window => afterRead_of_idle window free
  have chainI : shows 0x014 (BitVec.ofNat 32 s.chainI.toNat) := by
    rw [BitVec.ofNat_toNat]
    exact idle .chainI trivial
  exact ⟨idle .cmd trivial, idle .status trivial, idle .result trivial, idle .hcount trivial, idle .leafQ trivial,
    chainI, idle .paramN trivial, idle .paramIlen trivial, idle .paramW trivial, idle .paramU trivial,
    idle .paramV trivial, idle .paramLs trivial, idle .paramP trivial,
    fun m hm => ⟨_, wordShown_bufferWord s.iBuf m, idle (.iBuf m) hm⟩,
    fun m hm => ⟨_, wordShown_bufferWord s.vBuf m, idle (.vBuf m) hm⟩,
    fun m hm => ⟨_, wordShown_bufferWord s.qdBuf m, idle (.qdBuf m) hm⟩,
    fun m hm => ⟨_, wordShown_bufferWord s.eBuf m, idle (.eBuf m) hm⟩⟩

/-- Settles O43: the writes are of all words of the buffer, in which all of its bytes lie. -/
theorem wrbufStoresTheString : Obligations.WrbufStoresTheString := by
  unfold Obligations.WrbufStoresTheString
  intro s bytes inv free
  have between := between_of_free inv free
  obtain ⟨iBuf, vBuf, qdBuf, -⟩ := inv.lengths
  refine ⟨fun length => ⟨?_, ?_⟩, fun length => ?_⟩
  · have run := runSteps_wrbuf (target := .vBuf) nofun between fun m hm => by rwa [length] at hm
    rwa [foldl_writeTarget_vBuf, storeWords_range (length.trans vBuf.symm)] at run
  · have some : (List.range (wordCount bytes.length)).isEmpty = false := by
      have positive := s.par.nRange.1
      rw [List.isEmpty_eq_false_iff, Ne, List.range_eq_nil, length, wordCount]
      omega
    have run := runSteps_wrbuf (target := .qdBuf) nofun between fun m hm => by rwa [length] at hm
    rwa [foldl_writeTarget_qdBuf, storeWords_range (length.trans qdBuf.symm), some, Bool.false_and] at run
  · have run := runSteps_wrbuf (target := .iBuf) nofun between fun m hm => by rwa [length] at hm
    rwa [foldl_writeTarget_iBuf, storeWords_range (length.trans iBuf.symm)] at run

/-- Settles O44: the reads are of all words of the buffer, of which the padding is cut off. -/
theorem rdbufReturnsTheBytes : Obligations.RdbufReturnsTheBytes := by
  unfold Obligations.RdbufReturnsTheBytes
  intro s inv free unread
  obtain ⟨-, vBuf, -, eBuf, -⟩ := inv.lengths
  exact ⟨runSteps_rdbuf free unread vBuf (fun _ => rfl) fun _ => id,
    runSteps_rdbuf free unread eBuf (fun _ => rfl) fun _ => id⟩

end Sys2Proof.Machine
end
